-- ==== Sys2Proof/Word.lean ====
section
/-! DEFINITION. The byte and the 32-bit word of the BCMU (spec/00_scope.md R12, R13). -/

namespace Sys2Proof

/-- An 8-bit unsigned value (R13). -/
abbrev Byte := BitVec 8

/-- A 32-bit word, bit 0 least significant (R12). -/
abbrev Word := BitVec 32

/-- A word address of the host port: the byte offset divided by 4, 19 bits, so the 21-bit host space (20_memory.md R50, R53). -/
abbrev WordAddr := BitVec 19

end Sys2Proof
end

