-- ==== Sys2Proof/Syntax.lean ====
section
/-! DEFINITION. The six commands, one constructor per row of spec/opcode_table.json (30_encoding.md R71, R72). -/

namespace Sys2Proof

/-- The padding-check mode, bit CHK of the command word (R71): strict validates, lenient is the reference behaviour. -/
inductive PadCheck where
  | lenient
  | strict
  deriving DecidableEq, Repr

/-- A command. Every other operand is read from state at completion (R73). -/
inductive Instr where
  /-- PAD with its padding block size PBS. -/
  | pad (pbs : BitVec 8)
  /-- UNPAD, lenient or strict. -/
  | unpad (chk : PadCheck)
  /-- ECB_ENC. -/
  | ecbEnc
  /-- ECB_DEC. -/
  | ecbDec
  /-- CBC_ENC. -/
  | cbcEnc
  /-- CBC_DEC, lenient or strict. -/
  | cbcDec (chk : PadCheck)
  deriving DecidableEq, Repr

end Sys2Proof
end

