-- ==== Sys2Proof/WellFormed.lean ====
section
/-! DEFINITION. Which terms of Instr are commands the encoding can express (30_encoding.md R74). -/

namespace Sys2Proof

/-- Well-formed commands: PAD needs a nonzero PBS (R74); the types of the fields leave nothing else to check. -/
def Instr.wf (i : Instr) : Bool :=
  match i with
  | .pad pbs => pbs != 0
  | .unpad _ => true
  | .ecbEnc => true
  | .ecbDec => true
  | .cbcEnc => true
  | .cbcDec _ => true

end Sys2Proof
end

