-- ==== Sys2Proof/Decode.lean ====
section
/-! DEFINITION. The command word: its fields, its well-formedness, decoder, encoder and assembler (30_encoding.md R70 to R77). -/

namespace Sys2Proof

/-- Why a command word is illegal (R75). Each ends in the command error ILLEGAL_CMD. -/
inductive Illegal where
  /-- A nonzero bit among [31:16] or [7:5]. -/
  | reservedBits
  /-- OP = 0 or OP in 7..15. -/
  | reservedOp
  /-- CHK = 1 with an OP other than UNPAD and CBC_DEC. -/
  | chkNotAllowed
  /-- PBS = 0 with PAD. -/
  | pbsZero
  /-- A nonzero PBS with an OP other than PAD. -/
  | pbsNotAllowed
  deriving DecidableEq, Repr

/-- Field OP, bits [3:0] (R71). -/
def fieldOP (c : Word) : BitVec 4 := c.extractLsb' 0 4

/-- Field CHK, bit [4] (R71). -/
def fieldCHK (c : Word) : Bool := c.getLsbD 4

/-- Field PBS, bits [15:8] (R71). -/
def fieldPBS (c : Word) : BitVec 8 := c.extractLsb' 8 8

/-- The predicate WF of R74, clause by clause. -/
def wordWF (c : Word) : Bool :=
  c.extractLsb' 16 16 == 0
    && c.extractLsb' 5 3 == 0
    && decide (1 ≤ (fieldOP c).toNat) && decide ((fieldOP c).toNat ≤ 6)
    && (!fieldCHK c || fieldOP c == 2 || fieldOP c == 6)
    && (!(fieldOP c == 1) || fieldPBS c != 0)
    && (fieldOP c == 1 || fieldPBS c == 0)

/-- The mode that the bit CHK selects (R71). -/
def padCheckOf (chk : Bool) : PadCheck := if chk then .strict else .lenient

/-- A command without the field PBS: refused when PBS is not 0 (R74). -/
def withoutPBS (c : Word) (i : Instr) : Except Illegal Instr :=
  if fieldPBS c = 0 then .ok i else .error .pbsNotAllowed

/-- A command without the field CHK: refused when CHK is 1 (R74). -/
def withoutCHK (c : Word) (r : Except Illegal Instr) : Except Illegal Instr :=
  if fieldCHK c then .error .chkNotAllowed else r

/-- The decoder: total, and every refusal has a name (R72, R74, R75). -/
def decode (c : Word) : Except Illegal Instr :=
  if c.extractLsb' 16 16 ≠ 0 ∨ c.extractLsb' 5 3 ≠ 0 then .error .reservedBits
  else match (fieldOP c).toNat with
    | 1 => withoutCHK c (if fieldPBS c = 0 then .error .pbsZero else .ok (.pad (fieldPBS c)))
    | 2 => withoutPBS c (.unpad (padCheckOf (fieldCHK c)))
    | 3 => withoutCHK c (withoutPBS c .ecbEnc)
    | 4 => withoutCHK c (withoutPBS c .ecbDec)
    | 5 => withoutCHK c (withoutPBS c .cbcEnc)
    | 6 => withoutPBS c (.cbcDec (padCheckOf (fieldCHK c)))
    | _ => .error .reservedOp

/-- The bit CHK of a mode (R71). -/
def chkBit (k : PadCheck) : BitVec 1 :=
  match k with
  | .lenient => 0
  | .strict => 1

/-- A command word from its fields, reserved bits 0 (R71). -/
def packWord (pbs : BitVec 8) (chk : BitVec 1) (op : BitVec 4) : Word :=
  (0 : BitVec 16) ++ pbs ++ (0 : BitVec 3) ++ chk ++ op

/-- The encoder (R71, R72). -/
def encode (i : Instr) : Word :=
  match i with
  | .pad pbs => packWord pbs 0 1
  | .unpad k => packWord 0 (chkBit k) 2
  | .ecbEnc => packWord 0 0 3
  | .ecbDec => packWord 0 0 4
  | .cbcEnc => packWord 0 0 5
  | .cbcDec k => packWord 0 (chkBit k) 6

/-- The instruction the decoder reads from a word whose low `nbits` bits are those of `w` and whose other bits are 0. -/
def decodeTableWord (nbits w : Nat) : Option Instr :=
  match decode (BitVec.ofNat 32 (w % 2 ^ nbits)) with
  | .ok i => some i
  | .error _ => none

/-- The 262 legal words of R76, listed through the encoder. -/
def legalWords : List Word :=
  ((List.range 255).map fun n => encode (.pad (BitVec.ofNat 8 (n + 1))))
    ++ [.unpad .lenient, .unpad .strict, .ecbEnc, .ecbDec, .cbcEnc, .cbcDec .lenient, .cbcDec .strict].map encode

/-! ### The assembler of R77 -/

/-- The value of a digit in base 10 or 16. -/
def digitValue (base : Nat) (ch : Char) : Option Nat :=
  let n := ch.toNat
  let v := if 48 ≤ n ∧ n ≤ 57 then n - 48
           else if 97 ≤ n ∧ n ≤ 102 then n - 87
           else if 65 ≤ n ∧ n ≤ 70 then n - 55
           else base
  if v < base then some v else none

/-- The number a nonempty sequence of digits stands for. -/
def digitsValue (base : Nat) (acc : Nat) (cs : List Char) : Option Nat :=
  match cs with
  | [] => some acc
  | ch :: rest =>
    match digitValue base ch with
    | none => none
    | some v => digitsValue base (base * acc + v) rest

/-- A decimal or hexadecimal literal (R77). -/
def literalValue (cs : List Char) : Option Nat :=
  match cs with
  | [] => none
  | ['0', 'x'] => none
  | '0' :: 'x' :: rest => digitsValue 16 0 rest
  | cs => digitsValue 10 0 cs

/-- The upper-case letters A to Z as lower-case ones: mnemonics are case-insensitive (R77). -/
def lowerChar (ch : Char) : Char :=
  if 65 ≤ ch.toNat ∧ ch.toNat ≤ 90 then Char.ofNat (ch.toNat + 32) else ch

/-- The operand of `pad`: 1..255, anything else is an assembly error (R77). -/
def asmPad (operand : List Char) : Option Instr :=
  match literalValue operand with
  | none => none
  | some n => if 1 ≤ n ∧ n ≤ 255 then some (.pad (BitVec.ofNat 8 n)) else none

/-- The command a mnemonic with its operands stands for (R77), letters already lower-case. -/
def asmInstr (mnemonic : List Char) (operands : List (List Char)) : Option Instr :=
  if mnemonic = ['p', 'a', 'd'] then
    match operands with
    | [operand] => asmPad operand
    | _ => none
  else if operands ≠ [] then none
  else if mnemonic = ['u', 'n', 'p', 'a', 'd'] then some (.unpad .lenient)
  else if mnemonic = ['u', 'n', 'p', 'a', 'd', '.', 'c', 'h', 'k'] then some (.unpad .strict)
  else if mnemonic = ['e', 'c', 'b', '.', 'e', 'n', 'c'] then some .ecbEnc
  else if mnemonic = ['e', 'c', 'b', '.', 'd', 'e', 'c'] then some .ecbDec
  else if mnemonic = ['c', 'b', 'c', '.', 'e', 'n', 'c'] then some .cbcEnc
  else if mnemonic = ['c', 'b', 'c', '.', 'd', 'e', 'c'] then some (.cbcDec .lenient)
  else if mnemonic = ['c', 'b', 'c', '.', 'd', 'e', 'c', '.', 'c', 'h', 'k'] then some (.cbcDec .strict)
  else none

/-- The assembler of command words (R77): the word, or none for an assembly error. -/
def assemble (mnemonic : List Char) (operands : List (List Char)) : Option Word :=
  (asmInstr (mnemonic.map lowerChar) (operands.map (List.map lowerChar))).map encode

end Sys2Proof
end

