-- ==== Sys2Proof/Config.lean ====
section
/-! DEFINITION. What an implementation of the BCMU fixes (00_scope.md R7 to R9) and the free values the spec leaves open. -/

namespace Sys2Proof

/-- The raw block cipher attached to the unit (R8: a configuration parameter, not state).
`external n` is any cipher: an uninterpreted one for each n (log 3).
`aes128` is the default instance's (R9, log 4).
`toy` and `identity` are the two test ciphers of 95_test_vectors.md section 1. -/
inductive RawCipher where
  | aes128
  | toy
  | identity
  | external (n : Nat)
  deriving DecidableEq, Repr

/-- The implementation parameters (R7, R8).
They are data, so that one machine stands for every instance (log 1). -/
structure Params where
  B         : Nat
  KLEN      : Nat
  BUF_BYTES : Nat
  cipher    : RawCipher
  deriving DecidableEq, Repr

/-- The sizes each named cipher works on; any sizes suit an external one and the identity. -/
def RawCipher.fits (c : RawCipher) (B KLEN : Nat) : Bool :=
  match c with
  | .aes128 => B == 16 && KLEN == 16
  | .toy => B == 4 && KLEN == 4
  | .identity => true
  | .external _ => true

/-- The number of 32-bit words that hold n bytes (00_scope.md R14). -/
def ceil4 (n : Nat) : Nat := (n + 3) / 4

/-- The legal ranges of R7 and R10. -/
def Params.legal (p : Params) : Bool :=
  decide (1 ≤ p.B) && decide (p.B ≤ 255) && decide (1 ≤ p.KLEN) && decide (p.KLEN ≤ 255)
    && decide (4 ≤ p.BUF_BYTES) && decide (p.BUF_BYTES ≤ 2 ^ 20) && decide (p.BUF_BYTES % 4 = 0)
    && p.cipher.fits p.B p.KLEN

/-- The default instance of R9. -/
def Params.default : Params := { B := 16, KLEN := 16, BUF_BYTES := 4096, cipher := .aes128 }

/-- Test instance TOY of 95_test_vectors.md section 1. -/
def Params.toy : Params := { B := 4, KLEN := 4, BUF_BYTES := 64, cipher := .toy }

/-- Test instance WIN of 95_test_vectors.md section 1. -/
def Params.win : Params := { B := 3, KLEN := 5, BUF_BYTES := 16, cipher := .identity }

/-- FREE VALUE (log 3). The external raw cipher number n: for each key a permutation of the B-byte blocks.
E is the permutation and D its inverse, so R8's CipherInverse holds and nothing else is known of them. -/
opaque Config.rawCipher : Nat → (B KLEN : Nat) → (Fin KLEN → Byte) → Equiv.Perm (Fin B → Byte)

/-- FREE VALUE (log 5). The byte that BUF holds at an address after reset number `draw`, until it is written (10_state.md R36). -/
opaque Config.buf0 : Nat → Nat → Byte

end Sys2Proof
end

