-- ==== Sys2Proof/Machine/Bytes.lean ====
section
/-! DEFINITION. Byte sequences and blocks (00_scope.md R13, 40_command_execution.md R96, R97). -/

namespace Sys2Proof.Machine

open Sys2Proof

/-- The XOR of two byte sequences of equal length (R13); its callers pass no others (R97). -/
def xorBytes (a b : List Byte) : List Byte := List.zipWith (· ^^^ ·) a b

/-- `rep(n, v)` of R13. -/
def repBytes (n : Nat) (v : Byte) : List Byte := List.replicate n v

/-- `blk(y, i)` of R96: block i of a sequence, for block size B. -/
def blk (B : Nat) (y : List Byte) (i : Nat) : List Byte := (y.drop (i * B)).take B

/-- The consecutive blocks of a sequence, block 0 first (R96). -/
def blocksOf (B : Nat) (y : List Byte) : List (List Byte) := (List.range (y.length / B)).map (blk B y)

end Sys2Proof.Machine
end

