-- ==== Sys2Proof/Machine/Aes.lean ====
section
/-! DEFINITION. AES-128 of one block, the raw cipher of the default instance (00_scope.md R9).
PRESUMED (log 4): taken from FIPS-197, which the spec names and does not define (91 N13).
A block is 16 bytes, byte 4c + r being row r of column c. -/

namespace Sys2Proof.Machine

open Sys2Proof

/-- Byte `i` of a row of sixteen bytes written as one number, the first byte leftmost. -/
def rowByte (row i : Nat) : Byte := BitVec.ofNat 8 (row >>> (8 * (15 - i)))

/-- The byte a table of sixteen rows holds for b. -/
def tableByte (rows : List Nat) (b : Byte) : Byte := rowByte (rows.getD (b.toNat / 16) 0) (b.toNat % 16)

/-- The S-box of FIPS-197, one row for each high digit of the byte. -/
def sboxRows : List Nat :=
  [0x637c777bf26b6fc53001672bfed7ab76,
     0xca82c97dfa5947f0add4a2af9ca472c0,
     0xb7fd9326363ff7cc34a5e5f171d83115,
     0x04c723c31896059a071280e2eb27b275]
    ++ [0x09832c1a1b6e5aa0523bd6b329e32f84,
     0x53d100ed20fcb15b6acbbe394a4c58cf,
     0xd0efaafb434d338545f9027f503c9fa8,
     0x51a3408f929d38f5bcb6da2110fff3d2]
    ++ [0xcd0c13ec5f974417c4a77e3d645d1973,
     0x60814fdc222a908846eeb814de5e0bdb,
     0xe0323a0a4906245cc2d3ac629195e479,
     0xe7c8376d8dd54ea96c56f4ea657aae08]
    ++ [0xba78252e1ca6b4c6e8dd741f4bbd8b8a,
     0x703eb5664803f60e613557b986c11d9e,
     0xe1f8981169d98e949b1e87e9ce5528df,
     0x8ca1890dbfe6426841992d0fb054bb16]

/-- The inverse S-box. -/
def invSboxRows : List Nat :=
  [0x52096ad53036a538bf40a39e81f3d7fb,
     0x7ce339829b2fff87348e4344c4dee9cb,
     0x547b9432a6c2233dee4c950b42fac34e,
     0x082ea16628d924b2765ba2496d8bd125]
    ++ [0x72f8f66486689816d4a45ccc5d65b692,
     0x6c704850fdedb9da5e154657a78d9d84,
     0x90d8ab008cbcd30af7e45805b8b34506,
     0xd02c1e8fca3f0f02c1afbd0301138a6b]
    ++ [0x3a9111414f67dcea97f2cfcef0b4e673,
     0x96ac7422e7ad3585e2f937e81c75df6e,
     0x47f11a711d29c5896fb7620eaa18be1b,
     0xfc563e4bc6d279209adbc0fe78cd5af4]
    ++ [0x1fdda8338807c731b11210592780ec5f,
     0x60517fa919b54a0d2de57a9f93c99cef,
     0xa0e03b4dae2af5b0c8ebbb3c83539961,
     0x172b047eba77d626e169146355210c7d]

/-- SubBytes of one byte. -/
def subByte (b : Byte) : Byte := tableByte sboxRows b

/-- InvSubBytes of one byte. -/
def invSubByte (b : Byte) : Byte := tableByte invSboxRows b

/-- ShiftRows: row r of the block moves left by r columns. -/
def shiftRows (x : List Byte) : List Byte := (List.range 16).map fun i => x.getD ((i + 4 * (i % 4)) % 16) 0

/-- InvShiftRows: row r moves right by r columns. -/
def invShiftRows (x : List Byte) : List Byte := (List.range 16).map fun i => x.getD ((i + 12 * (i % 4)) % 16) 0

/-- Multiplication by x in GF(2^8) modulo x^8 + x^4 + x^3 + x + 1. -/
def xtime (b : Byte) : Byte := (b <<< 1) ^^^ (if b.getLsbD 7 then 0x1B else 0)

/-- Multiplication in GF(2^8) by a constant below 16. -/
def gmul (c : Nat) (b : Byte) : Byte :=
  (if c.testBit 0 then b else 0) ^^^ (if c.testBit 1 then xtime b else 0)
    ^^^ (if c.testBit 2 then xtime (xtime b) else 0) ^^^ (if c.testBit 3 then xtime (xtime (xtime b)) else 0)

/-- One entry of a column times a row of constants. -/
def mixEntry (c0 c1 c2 c3 : Nat) (a b c d : Byte) : Byte := gmul c0 a ^^^ gmul c1 b ^^^ gmul c2 c ^^^ gmul c3 d

/-- MixColumns, column by column. -/
def mixColumns (x : List Byte) : List Byte :=
  match x with
  | a :: b :: c :: d :: rest =>
    mixEntry 2 3 1 1 a b c d :: mixEntry 1 2 3 1 a b c d :: mixEntry 1 1 2 3 a b c d :: mixEntry 3 1 1 2 a b c d
      :: mixColumns rest
  | short => short

/-- InvMixColumns, column by column. -/
def invMixColumns (x : List Byte) : List Byte :=
  match x with
  | a :: b :: c :: d :: rest =>
    mixEntry 14 11 13 9 a b c d :: mixEntry 9 14 11 13 a b c d :: mixEntry 13 9 14 11 a b c d
      :: mixEntry 11 13 9 14 a b c d :: invMixColumns rest
  | short => short

/-- The four words of a round key and the round constant give the next round key. -/
def nextRoundKey (rcon : Byte) (k : List Byte) : List Byte :=
  let w0 := xorBytes (k.take 4) [subByte (k.getD 13 0) ^^^ rcon, subByte (k.getD 14 0), subByte (k.getD 15 0), subByte (k.getD 12 0)]
  let w1 := xorBytes ((k.drop 4).take 4) w0
  let w2 := xorBytes ((k.drop 8).take 4) w1
  let w3 := xorBytes ((k.drop 12).take 4) w2
  w0 ++ w1 ++ w2 ++ w3

/-- The round keys after the cipher key, one for each round constant. -/
def roundKeys (rcons : List Byte) (k : List Byte) : List (List Byte) :=
  match rcons with
  | [] => []
  | rcon :: rest => nextRoundKey rcon k :: roundKeys rest (nextRoundKey rcon k)

/-- The ten round constants of AES-128. -/
def aesRcons : List Byte := [0x01, 0x02, 0x04, 0x08, 0x10, 0x20, 0x40, 0x80, 0x1B, 0x36]

/-- The rounds of encryption; the last one has no MixColumns. -/
def aesRounds (keys : List (List Byte)) (x : List Byte) : List Byte :=
  match keys with
  | [] => x
  | [k] => xorBytes (shiftRows (x.map subByte)) k
  | k :: rest => aesRounds rest (xorBytes (mixColumns (shiftRows (x.map subByte))) k)

/-- The rounds of decryption, undoing those of encryption in the reverse order. -/
def aesInvRounds (keys : List (List Byte)) (y : List Byte) : List Byte :=
  match keys with
  | [] => y
  | [k] => (invShiftRows (xorBytes y k)).map invSubByte
  | k :: rest => (invShiftRows (invMixColumns (xorBytes (aesInvRounds rest y) k))).map invSubByte

/-- AES-128 encryption of one block. -/
def aesEncrypt (key x : List Byte) : List Byte := aesRounds (roundKeys aesRcons key) (xorBytes x key)

/-- AES-128 decryption of one block. -/
def aesDecrypt (key y : List Byte) : List Byte := xorBytes (aesInvRounds (roundKeys aesRcons key) y) key

end Sys2Proof.Machine
end

