-- ==== Sys2Proof/Machine/Cipher.lean ====
section
/-! DEFINITION. The raw block cipher of an instance: the total functions E and D of 00_scope.md R8. -/

namespace Sys2Proof.Machine

open Sys2Proof

/-- E of the test cipher TOY (95_test_vectors.md section 1). -/
def toyEncrypt (k x : List Byte) : List Byte :=
  (List.range 4).map fun i => x.getD ((i + 1) % 4) 0 ^^^ k.getD i 0

/-- D of the test cipher TOY: index j reads j - 1 modulo 4. -/
def toyDecrypt (k y : List Byte) : List Byte :=
  (List.range 4).map fun j => y.getD ((j + 3) % 4) 0 ^^^ k.getD ((j + 3) % 4) 0

/-- The first n bytes of a sequence as a function of the index. -/
def bytesFn (n : Nat) (x : List Byte) : Fin n → Byte := fun i => x.getD i.val 0

/-- E of the external cipher: the permutation of Config, on the bytes of the block (log 3). -/
def externalEncrypt (n B KLEN : Nat) (k x : List Byte) : List Byte :=
  List.ofFn (Config.rawCipher n B KLEN (bytesFn KLEN k) (bytesFn B x))

/-- D of the external cipher: the inverse permutation. -/
def externalDecrypt (n B KLEN : Nat) (k y : List Byte) : List Byte :=
  List.ofFn ((Config.rawCipher n B KLEN (bytesFn KLEN k)).symm (bytesFn B y))

/-- E of an instance's raw cipher: `blockEncrypt` (R8). -/
def encryptBlock (p : Params) (k x : List Byte) : List Byte :=
  match p.cipher with
  | .aes128 => aesEncrypt k x
  | .toy => toyEncrypt k x
  | .identity => x
  | .external n => externalEncrypt n p.B p.KLEN k x

/-- D of an instance's raw cipher: `blockDecrypt` (R8). -/
def decryptBlock (p : Params) (k y : List Byte) : List Byte :=
  match p.cipher with
  | .aes128 => aesDecrypt k y
  | .toy => toyDecrypt k y
  | .identity => y
  | .external n => externalDecrypt n p.B p.KLEN k y

end Sys2Proof.Machine
end

