-- ==== Sys2Proof/Machine/State.lean ====
section
/-! DEFINITION. The state of the BCMU (10_state.md R22), its events and responses, and the state after reset (R43). -/

namespace Sys2Proof.Machine

open Sys2Proof

/-- Why the machine stops. There is no constructor: "The machine never stops itself: every command completes,
every host access gets a response, and a reset returns the unit to idle" (93_implementation_defined.md, log 14). -/
inductive Fault where
  deriving DecidableEq, Repr

/-- Why an instruction has no meaning in the model. -/
inductive Refusal where
  /-- Raised only by an arm of exec whose instruction has no meaning yet; no arm is so now. Safe. -/
  | notModelled (mnemonic : String)
  deriving DecidableEq, Repr

/-- The command errors (60_exceptions.md R141, codes 1 to 7). Each is recorded in STATUS.ERR and stops nothing. -/
inductive CmdError where
  | illegalCmd
  | noKey
  | noIv
  | srcRange
  | length
  | badPadding
  | dstRange
  deriving DecidableEq, Repr

/-- One host access (20_memory.md R51); the byte offset is four times the word address (log 10). -/
inductive Access where
  | rd (w : WordAddr)
  | wr (w : WordAddr) (v : Word)
  deriving DecidableEq, Repr

/-- The response to one host access (R51): OK with data for a read, OK for a write, or ERR. -/
inductive Response where
  | okRead (data : Word)
  | okWrite
  | err
  deriving DecidableEq, Repr

/-- One event of the interleaving (20_memory.md R63): a host access, a turn of the unit, or reset (log 7). -/
inductive Event where
  | host (a : Access)
  | unitTurn
  | reset
  deriving DecidableEq, Repr

/-- The state. The first fifteen fields are the record of 10_state.md R22, under its names.
The last four are the model's own (log 1, 5, 7, 9). -/
@[ext]
structure State where
  /-- CTRL.IE (R27). -/
  IE   : Bool
  /-- STATUS.BUSY (R28). -/
  BUSY : Bool
  /-- STATUS.DONE (R28). -/
  DONE : Bool
  /-- STATUS.ERR (R28). -/
  ERR  : BitVec 4
  /-- STATUS.HERR (R28). -/
  HERR : Bool
  /-- The hidden latch of the last accepted CMD write (R39). -/
  CMDL : Word
  /-- Byte offset of the input in BUF (R30). -/
  SRC  : Word
  /-- Length of the input in bytes (R31). -/
  LEN  : Word
  /-- Byte offset of the output in BUF (R32). -/
  DST  : Word
  /-- Length of the last output (R33). -/
  RLEN : Word
  /-- The key, KLEN bytes (R34). -/
  KEY  : List Byte
  /-- Which KEY words have been written (R34, R37). -/
  KEYM : List Bool
  /-- The initialization vector, B bytes (R35). -/
  IV   : List Byte
  /-- Which IV words have been written (R35, R38). -/
  IVM  : List Bool
  /-- The bytes of BUF written since reset, addresses strictly rising (R36, log 5, log 6). -/
  BUF  : List Host.Cell
  /-- The implementation parameters; no step writes them (log 1). -/
  inst : Params
  /-- How many resets have happened: which draw of BUF's unspecified contents holds (log 5). -/
  draw : Nat
  /-- The events still to come, first one next (log 7). -/
  env  : List Event
  /-- The response to the last host access, as the host holds it (log 9). -/
  resp : Option Response
  deriving DecidableEq, Repr

/-- The state right after reset of an instance (10_state.md R43, 70 R170); BUF lists nothing, so every byte is a free value. -/
def State.afterReset (p : Params) (draw : Nat) (env : List Event) : State :=
  { IE := false, BUSY := false, DONE := false, ERR := 0, HERR := false, CMDL := 0
    SRC := 0, LEN := 0, DST := 0, RLEN := 0
    KEY := List.replicate p.KLEN 0, KEYM := List.replicate (ceil4 p.KLEN) false
    IV := List.replicate p.B 0, IVM := List.replicate (ceil4 p.B) false
    BUF := [], inst := p, draw := draw, env := env, resp := none }

/-- The machine right after reset: the default instance of 00_scope.md R9 with nothing pending (log 2). -/
def State.reset : State := State.afterReset Params.default 0 []

end Sys2Proof.Machine
end

