-- ==== Sys2Proof/Machine/Flags.lean ====
section
/-! DEFINITION. Everything computed from state bits: error codes, STATUS and CTRL words, constant registers, irq. -/

namespace Sys2Proof.Machine

open Sys2Proof

/-- The code of a command error in STATUS.ERR (60_exceptions.md R141); 0 is OK. -/
def errCode (e : CmdError) : BitVec 4 :=
  match e with
  | .illegalCmd => 1
  | .noKey => 2
  | .noIv => 3
  | .srcRange => 4
  | .length => 5
  | .badPadding => 6
  | .dstRange => 7

/-- STATUS.KEYV: every KEY word has been written since the last reset or KEYCLR (10_state.md R37). -/
def keyValid (s : State) : Bool := s.KEYM.all id

/-- STATUS.IVV: every IV word has been written since the last reset or IVCLR (R38). -/
def ivValid (s : State) : Bool := s.IVM.all id

/-- The word a read of STATUS returns (R28). -/
def statusWord (s : State) : Word :=
  (0 : BitVec 23) ++ BitVec.ofBool s.HERR ++ s.ERR ++ BitVec.ofBool (ivValid s) ++ BitVec.ofBool (keyValid s)
    ++ BitVec.ofBool s.DONE ++ BitVec.ofBool s.BUSY

/-- The word a read of CTRL returns: IE in bit 0, every other bit 0 (R27). -/
def ctrlWord (s : State) : Word := (0 : BitVec 31) ++ BitVec.ofBool s.IE

/-- The constant in ID (R24). -/
def idWord : Word := 0x45434243

/-- INFO: VERSION = 1, a reserved byte 0, KLEN, B (R25). -/
def infoWord (p : Params) : Word := (1 : BitVec 8) ++ (0 : BitVec 8) ++ BitVec.ofNat 8 p.KLEN ++ BitVec.ofNat 8 p.B

/-- BUFSZ (R26). -/
def bufszWord (p : Params) : Word := BitVec.ofNat 32 p.BUF_BYTES

/-- The interrupt output, a level (R41, 60_exceptions.md R152). -/
def irq (s : State) : Bool := s.IE && s.DONE

end Sys2Proof.Machine
end

