-- ==== Sys2Proof/Machine/Ops.lean ====
section
/-! DEFINITION. The named operations over BUF, the byte windows and the registers: memory, issue, completion, command errors, acknowledge, reset. -/

namespace Sys2Proof.Machine

open Sys2Proof

/-! ### BUF as a sorted list of cells -/

/-- What an address that the list does not hold reads as: no stored byte (log 6). -/
def Memory.unlisted : Option Byte := none

/-- The stored byte at an address. -/
def Memory.read (m : List Host.Cell) (a : Nat) : Option Byte :=
  match m with
  | [] => Memory.unlisted
  | (b, v) :: rest => if a = b then some v else Memory.read rest a

/-- Store one byte, keeping the addresses strictly rising. -/
def Memory.write (m : List Host.Cell) (a : Nat) (v : Byte) : List Host.Cell :=
  match m with
  | [] => [(a, v)]
  | (b, u) :: rest =>
    if a < b then (a, v) :: (b, u) :: rest
    else if a = b then (a, v) :: rest
    else (b, u) :: Memory.write rest a v

/-- Store a byte sequence from an address upwards: MemWrite of 00_scope.md R15. -/
def Memory.writeBytes (m : List Host.Cell) (a : Nat) (vs : List Byte) : List Host.Cell :=
  match vs with
  | [] => m
  | v :: rest => Memory.writeBytes (Memory.write m a v) (a + 1) rest

/-- The canonical form: addresses strictly rising.
A listed cell always holds a byte and an unlisted one none, so no entry equals what an unlisted address reads as. -/
def Memory.wf (m : List Host.Cell) : Bool := decide (m.Pairwise fun x y => x.1 < y.1)

/-- Byte `a` of BUF: the stored byte, else the free value it holds since the last reset (10_state.md R36, 93 U18, log 5). -/
def bufByte (s : State) (a : Nat) : Byte := (Memory.read s.BUF a).getD (Config.buf0 s.draw a)

/-- MemRead of R15. -/
def memRead (s : State) (a n : Nat) : List Byte := (List.range n).map fun i => bufByte s (a + i)

/-! ### Little-endian words (20_memory.md R52) -/

/-- Byte i of a word, bits [8i+7:8i]. -/
def wordByte (v : Word) (i : Nat) : Byte := v.extractLsb' (8 * i) 8

/-- The word of four bytes, the first one least significant. -/
def wordOfBytes (b0 b1 b2 b3 : Byte) : Word := b3 ++ b2 ++ b1 ++ b0

/-- Word `w` of a byte array, positions beyond its end reading 0 (10_state.md R35). -/
def windowWord (bytes : List Byte) (w : Nat) : Word :=
  wordOfBytes (bytes.getD (4 * w) 0) (bytes.getD (4 * w + 1) 0) (bytes.getD (4 * w + 2) 0) (bytes.getD (4 * w + 3) 0)

/-- A byte array after word `w` is written, bytes beyond its end discarded (R34, R35). -/
def setWindowWord (bytes : List Byte) (w : Nat) (v : Word) : List Byte :=
  (((bytes.set (4 * w) (wordByte v 0)).set (4 * w + 1) (wordByte v 1)).set (4 * w + 2) (wordByte v 2)).set
    (4 * w + 3) (wordByte v 3)

/-- Word `w` of BUF (R36). -/
def bufWord (s : State) (w : Nat) : Word :=
  wordOfBytes (bufByte s (4 * w)) (bufByte s (4 * w + 1)) (bufByte s (4 * w + 2)) (bufByte s (4 * w + 3))

/-! ### Register and window writes of the host -/

/-- A write to one KEY word: its bytes and its mask bit (R34). -/
def storeKey (s : State) (w : Nat) (v : Word) : State :=
  { s with KEY := setWindowWord s.KEY w v, KEYM := s.KEYM.set w true }

/-- A write to one IV word: its bytes and its mask bit (R35). -/
def storeIv (s : State) (w : Nat) (v : Word) : State :=
  { s with IV := setWindowWord s.IV w v, IVM := s.IVM.set w true }

/-- A write to one BUF word (R36). -/
def storeBuf (s : State) (w : Nat) (v : Word) : State :=
  { s with BUF := Memory.writeBytes s.BUF (4 * w) [wordByte v 0, wordByte v 1, wordByte v 2, wordByte v 3] }

/-- The KEYCLR action (R27). -/
def clearKey (s : State) : State :=
  { s with KEY := s.KEY.map fun _ => 0, KEYM := s.KEYM.map fun _ => false }

/-- The IVCLR action (R27). -/
def clearIv (s : State) : State :=
  { s with IV := s.IV.map fun _ => 0, IVM := s.IVM.map fun _ => false }

/-- The KEYCLR action when the bit is 1 (R27). -/
def clearKeyIf (b : Bool) (s : State) : State := if b then clearKey s else s

/-- The IVCLR action when the bit is 1 (R27). -/
def clearIvIf (b : Bool) (s : State) : State := if b then clearIv s else s

/-- A write to CTRL: IE, then KEYCLR, then IVCLR (R27). -/
def storeCtrl (s : State) (v : Word) : State :=
  clearIvIf (v.getLsbD 2) (clearKeyIf (v.getLsbD 1) { s with IE := v.getLsbD 0 })

/-- A write to STATUS: the host's acknowledge, clearing DONE and HERR where v has a 1 (R28).
It is the only return from a command error or an access error (60_exceptions.md R155). -/
def acknowledge (s : State) (v : Word) : State :=
  { s with DONE := s.DONE && !v.getLsbD 1, HERR := s.HERR && !v.getLsbD 8 }

/-! ### The life of a command -/

/-- Issue: an accepted CMD write (40_command_execution.md R90). -/
def issue (s : State) (v : Word) : State :=
  { s with CMDL := v, BUSY := true, DONE := false, ERR := 0, RLEN := 0 }

/-- Completion with ERR = OK: MemWrite of the output at DST, RLEN its length (R91, R99). -/
def completeOk (s : State) (out : List Byte) : State :=
  { s with BUF := Memory.writeBytes s.BUF s.DST.toNat out, RLEN := BitVec.ofNat 32 out.length
           ERR := 0, BUSY := false, DONE := true }

/-- Completion with an error: the hardware's whole exception entry (R91, 60_exceptions.md R150, R154).
The code is recorded, RLEN is 0, and no byte of BUF is written. -/
def raiseError (s : State) (e : CmdError) : State :=
  { s with RLEN := 0, ERR := errCode e, BUSY := false, DONE := true }

/-- The Complete step for what Exec returned (R91). -/
def finish (s : State) (r : Except CmdError (List Byte)) : State :=
  match r with
  | .ok out => completeOk s out
  | .error e => raiseError s e

/-! ### Responses and reset -/

/-- The port answers OK. -/
def respond (s : State) (r : Response) : State := { s with resp := some r }

/-- An access that gets ERR: HERR <- 1 and nothing else (20_memory.md R54, 60_exceptions.md R151). -/
def refuseAccess (s : State) : State := { s with HERR := true, resp := some .err }

/-- The reset event (70_reset_and_hazards.md R170, R171): every field at its reset value, BUF a new draw (93 U24).
The instance and the events still to come are not the BCMU's state and stay (log 19). -/
def applyReset (s : State) : State := State.afterReset s.inst (s.draw + 1) s.env

end Sys2Proof.Machine
end

