-- ==== Sys2Proof/Machine/Operands.lean ====
section
/-! DEFINITION. How a command reads its operands and the checks of Exec, in the order it makes them (40_command_execution.md R93 to R95). -/

namespace Sys2Proof.Machine

open Sys2Proof

/-- A check of Exec: go on when it holds, else end with the error. -/
def require (ok : Bool) (e : CmdError) : Except CmdError Unit := if ok then .ok () else .error e

/-- The input of a command, read once and whole (R94). -/
def inputBytes (s : State) : List Byte := memRead s s.SRC.toNat s.LEN.toNat

/-- KEYV = 1, else NOKEY (60_exceptions.md R143). -/
def requireKey (s : State) : Except CmdError Unit := require (keyValid s) .noKey

/-- IVV = 1, else NOIV (R144). -/
def requireIv (s : State) : Except CmdError Unit := require (ivValid s) .noIv

/-- The input lies inside BUF, on the exact sum, else SRC_RANGE (R145). -/
def requireSource (s : State) : Except CmdError Unit :=
  require (decide (s.SRC.toNat + s.LEN.toNat ≤ s.inst.BUF_BYTES)) .srcRange

/-- LEN is a multiple of B, else LENGTH (R146, ECB; 0 is a multiple). -/
def requireBlocks (s : State) : Except CmdError Unit :=
  require (decide (s.LEN.toNat % s.inst.B = 0)) .length

/-- LEN is not 0, else LENGTH (R146, UNPAD and CBC_DEC). -/
def requireNonempty (s : State) : Except CmdError Unit := require (decide (s.LEN.toNat ≠ 0)) .length

/-- The output lies inside BUF, on the exact sum, else DST_RANGE (R148). -/
def placeOutput (s : State) (out : List Byte) : Except CmdError (List Byte) :=
  if s.DST.toNat + out.length ≤ s.inst.BUF_BYTES then .ok out else .error .dstRange

end Sys2Proof.Machine
end

