-- ==== Sys2Proof/Machine/Padding.lean ====
section
/-! DEFINITION. The PKCS#7 codec and the commands PAD and UNPAD (41_padding.md). -/

namespace Sys2Proof.Machine

open Sys2Proof

/-- `pad(x, b)` (R110). -/
def padBytes (x : List Byte) (b : Nat) : List Byte :=
  x ++ repBytes (b - x.length % b) (BitVec.ofNat 8 (b - x.length % b))

/-- The padding count V: the value of the last byte (R111). No caller passes an empty sequence (log 21). -/
def paddingCount (x : List Byte) : Nat := (x.getLastD 0).toNat

/-- `unpad(x, chk)` (R111). -/
def unpadBytes (x : List Byte) (chk : PadCheck) : Except CmdError (List Byte) :=
  if x.length < paddingCount x then .error .badPadding
  else match chk with
    | .lenient => .ok (x.take (x.length - paddingCount x))
    | .strict =>
      if paddingCount x = 0 then .error .badPadding
      else if (x.drop (x.length - paddingCount x)).all fun v => v.toNat == paddingCount x then
        .ok (x.take (x.length - paddingCount x))
      else .error .badPadding

/-- What Exec returns for PAD (40_command_execution.md R93, 41_padding.md R112). -/
def padResult (pbs : BitVec 8) (s : State) : Except CmdError (List Byte) := do
  require (pbs != 0) .illegalCmd
  requireSource s
  placeOutput s (padBytes (inputBytes s) pbs.toNat)

/-- What Exec returns for UNPAD (R93, R113). -/
def unpadResult (chk : PadCheck) (s : State) : Except CmdError (List Byte) := do
  requireSource s
  requireNonempty s
  let out ← unpadBytes (inputBytes s) chk
  placeOutput s out

/-- PAD: the completion of the command (R112, R91). -/
def execPad (pbs : BitVec 8) (s : State) : Host.Outcome State Fault Refusal := .next (finish s (padResult pbs s))

/-- UNPAD: the completion of the command (R113, R91). -/
def execUnpad (chk : PadCheck) (s : State) : Host.Outcome State Fault Refusal := .next (finish s (unpadResult chk s))

end Sys2Proof.Machine
end

