-- ==== Sys2Proof/Machine/Cbc.lean ====
section
/-! DEFINITION. The CBC mode engine: CBC_ENC and CBC_DEC (43_cbc.md). -/

namespace Sys2Proof.Machine

open Sys2Proof

/-- The encryption chain: C_i = E(P_i xor previous), and previous becomes C_i (R130). -/
def cbcChain (enc : List Byte → List Byte) (previous : List Byte) (ps : List (List Byte)) : List (List Byte) :=
  match ps with
  | [] => []
  | p :: rest => enc (xorBytes p previous) :: cbcChain enc (enc (xorBytes p previous)) rest

/-- The decryption chain: P_i = D(C_i) xor previous, and previous becomes C_i, the ciphertext block (R131). -/
def cbcUnchain (dec : List Byte → List Byte) (previous : List Byte) (cs : List (List Byte)) : List (List Byte) :=
  match cs with
  | [] => []
  | c :: rest => xorBytes (dec c) previous :: cbcUnchain dec c rest

/-- `cbc_enc(K, IV0, x)` (R130). -/
def cbcEncrypt (p : Params) (k iv x : List Byte) : List Byte :=
  (cbcChain (encryptBlock p k) iv (blocksOf p.B (padBytes x p.B))).flatten

/-- The decrypted sequence of `cbc_dec`, before unpad (R131). -/
def cbcPlain (p : Params) (k iv y : List Byte) : List Byte :=
  (cbcUnchain (decryptBlock p k) iv (blocksOf p.B y)).flatten

/-- `cbc_dec(K, IV0, y, chk)` (R131). -/
def cbcDecrypt (p : Params) (k iv y : List Byte) (chk : PadCheck) : Except CmdError (List Byte) :=
  unpadBytes (cbcPlain p k iv y) chk

/-- What Exec returns for CBC_ENC (40_command_execution.md R93). -/
def cbcEncResult (s : State) : Except CmdError (List Byte) := do
  requireKey s
  requireIv s
  requireSource s
  placeOutput s (cbcEncrypt s.inst s.KEY s.IV (inputBytes s))

/-- What Exec returns for CBC_DEC (R93). -/
def cbcDecResult (chk : PadCheck) (s : State) : Except CmdError (List Byte) := do
  requireKey s
  requireIv s
  requireSource s
  requireNonempty s
  requireBlocks s
  let out ← cbcDecrypt s.inst s.KEY s.IV (inputBytes s) chk
  placeOutput s out

/-- CBC_ENC: the completion of the command (R130, R91). -/
def execCbcEnc (s : State) : Host.Outcome State Fault Refusal := .next (finish s (cbcEncResult s))

/-- CBC_DEC: the completion of the command (R131, R91). -/
def execCbcDec (chk : PadCheck) (s : State) : Host.Outcome State Fault Refusal := .next (finish s (cbcDecResult chk s))

end Sys2Proof.Machine
end

