-- ==== Sys2Proof/Machine/Ecb.lean ====
section
/-! DEFINITION. The ECB mode adapter: ECB_ENC and ECB_DEC (42_ecb.md). -/

namespace Sys2Proof.Machine

open Sys2Proof

/-- Each block of x through f, in block order (R120, R121). -/
def mapBlocks (B : Nat) (f : List Byte → List Byte) (x : List Byte) : List Byte := ((blocksOf B x).map f).flatten

/-- `ecb_enc(K, x)` (R120). -/
def ecbEncrypt (p : Params) (k x : List Byte) : List Byte := mapBlocks p.B (encryptBlock p k) x

/-- `ecb_dec(K, y)` (R121). -/
def ecbDecrypt (p : Params) (k y : List Byte) : List Byte := mapBlocks p.B (decryptBlock p k) y

/-- What Exec returns for ECB_ENC (40_command_execution.md R93). -/
def ecbEncResult (s : State) : Except CmdError (List Byte) := do
  requireKey s
  requireSource s
  requireBlocks s
  placeOutput s (ecbEncrypt s.inst s.KEY (inputBytes s))

/-- What Exec returns for ECB_DEC (R93). -/
def ecbDecResult (s : State) : Except CmdError (List Byte) := do
  requireKey s
  requireSource s
  requireBlocks s
  placeOutput s (ecbDecrypt s.inst s.KEY (inputBytes s))

/-- ECB_ENC: the completion of the command (R120, R91). -/
def execEcbEnc (s : State) : Host.Outcome State Fault Refusal := .next (finish s (ecbEncResult s))

/-- ECB_DEC: the completion of the command (R121, R91). -/
def execEcbDec (s : State) : Host.Outcome State Fault Refusal := .next (finish s (ecbDecResult s))

end Sys2Proof.Machine
end

