-- ==== Sys2Proof/Machine/Dispatch.lean ====
section
/-! DEFINITION. One arm per command: the completion of each (40_command_execution.md R91, R93). -/

namespace Sys2Proof.Machine

open Sys2Proof

def exec (i : Instr) (s : State) : Host.Outcome State Fault Refusal :=
  match i with
  | .pad pbs => Sys2Proof.Machine.execPad pbs s
  | .unpad chk => Sys2Proof.Machine.execUnpad chk s
  | .ecbEnc => Sys2Proof.Machine.execEcbEnc s
  | .ecbDec => Sys2Proof.Machine.execEcbDec s
  | .cbcEnc => Sys2Proof.Machine.execCbcEnc s
  | .cbcDec chk => Sys2Proof.Machine.execCbcDec chk s

end Sys2Proof.Machine
end

