-- ==== Sys2Proof/Machine/HostPort.lean ====
section
/-! DEFINITION. The host port: the register map, what each access returns, and which accesses get ERR (10_state.md R23 to R36, 20_memory.md R50 to R57). -/

namespace Sys2Proof.Machine

open Sys2Proof

/-- What a host offset reaches (10_state.md R23); windows carry their word number. -/
inductive Target where
  | id
  | info
  | bufsz
  | ctrl
  | status
  | cmd
  | src
  | len
  | dst
  | rlen
  | key (w : Nat)
  | iv (w : Nat)
  | buf (w : Nat)
  | reserved
  deriving DecidableEq, Repr

/-- The byte offset of a word address (20_memory.md R51, R53). -/
def byteOffset (w : WordAddr) : Nat := 4 * w.toNat

/-- The register map of R23; its one parameter is BUF_BYTES (20_memory.md R61). -/
def targetOf (bufBytes : Nat) (off : Nat) : Target :=
  if off = 0x000 then .id
  else if off = 0x004 then .info
  else if off = 0x008 then .bufsz
  else if off = 0x00C then .ctrl
  else if off = 0x010 then .status
  else if off = 0x014 then .cmd
  else if off = 0x018 then .src
  else if off = 0x01C then .len
  else if off = 0x020 then .dst
  else if off = 0x024 then .rlen
  else if off < 0x100 then .reserved
  else if off < 0x200 then .key ((off - 0x100) / 4)
  else if off < 0x300 then .iv ((off - 0x200) / 4)
  else if off < 0x100000 then .reserved
  else if off < 0x100000 + bufBytes then .buf ((off - 0x100000) / 4)
  else .reserved

/-- Whether a read gets OK (20_memory.md R54, R55, R57). -/
def readAccepted (busy : Bool) (t : Target) : Bool :=
  match t with
  | .reserved => false
  | .id => true
  | .info => true
  | .bufsz => true
  | .ctrl => true
  | .status => true
  | .rlen => true
  | .cmd => !busy
  | .src => !busy
  | .len => !busy
  | .dst => !busy
  | .key _ => !busy
  | .iv _ => !busy
  | .buf _ => !busy

/-- Whether a write of v gets OK (R54, R55, R57). -/
def writeAccepted (busy : Bool) (t : Target) (v : Word) : Bool :=
  match t with
  | .reserved => false
  | .id => false
  | .info => false
  | .bufsz => false
  | .rlen => false
  | .status => true
  | .ctrl => !busy || (!v.getLsbD 1 && !v.getLsbD 2)
  | .cmd => !busy
  | .src => !busy
  | .len => !busy
  | .dst => !busy
  | .key _ => !busy
  | .iv _ => !busy
  | .buf _ => !busy

/-- The word an accepted read returns (10_state.md R24 to R36): CMD and the write-only KEY read 0. -/
def readWord (s : State) (t : Target) : Word :=
  match t with
  | .id => idWord
  | .info => infoWord s.inst
  | .bufsz => bufszWord s.inst
  | .ctrl => ctrlWord s
  | .status => statusWord s
  | .cmd => 0
  | .src => s.SRC
  | .len => s.LEN
  | .dst => s.DST
  | .rlen => s.RLEN
  | .key _ => 0
  | .iv w => windowWord s.IV w
  | .buf w => bufWord s w
  | .reserved => 0

/-- The effect of an accepted write (R27 to R36); a CMD write issues. -/
def writeEffect (s : State) (t : Target) (v : Word) : State :=
  match t with
  | .ctrl => storeCtrl s v
  | .status => acknowledge s v
  | .cmd => issue s v
  | .src => { s with SRC := v }
  | .len => { s with LEN := v }
  | .dst => { s with DST := v }
  | .key w => storeKey s w v
  | .iv w => storeIv s w v
  | .buf w => storeBuf s w v
  | .id => s
  | .info => s
  | .bufsz => s
  | .rlen => s
  | .reserved => s

/-- The target of a word address on this instance. -/
def targetAt (s : State) (w : WordAddr) : Target := targetOf s.inst.BUF_BYTES (byteOffset w)

/-- RD(4w) (R51): a read that gets OK changes no state of the BCMU (R56). -/
def hostRead (s : State) (w : WordAddr) : State :=
  if readAccepted s.BUSY (targetAt s w) then respond s (.okRead (readWord s (targetAt s w))) else refuseAccess s

/-- WR(4w, v) (R51). -/
def hostWrite (s : State) (w : WordAddr) (v : Word) : State :=
  if writeAccepted s.BUSY (targetAt s w) v then respond (writeEffect s (targetAt s w) v) .okWrite else refuseAccess s

/-- One host access: one atomic step, exactly one response (R51, R58). -/
def hostAccess (s : State) (a : Access) : State :=
  match a with
  | .rd w => hostRead s w
  | .wr w v => hostWrite s w v

end Sys2Proof.Machine
end

