-- ==== Sys2Proof/Machine/Unit.lean ====
section
/-! DEFINITION. The unit agent and what one event of the interleaving does (40_command_execution.md R91, R92, 20_memory.md R63). -/

namespace Sys2Proof.Machine

open Sys2Proof

/-- The Complete step (R91): the latched word decides; a word that is not well formed raises ILLEGAL_CMD (R93, 30_encoding.md R75). -/
def completeStep (s : State) : Host.Outcome State Fault Refusal :=
  match decode s.CMDL with
  | .ok i => exec i s
  | .error _ => .next (raiseError s .illegalCmd)

/-- A turn of the unit: Complete is enabled exactly when BUSY = 1, and otherwise the turn passes (R91, log 8). -/
def unitStep (s : State) : Host.Outcome State Fault Refusal := if s.BUSY then completeStep s else .next s

/-- One event, already taken off the list. -/
def eventStep (e : Event) (s : State) : Host.Outcome State Fault Refusal :=
  match e with
  | .host a => .next (hostAccess s a)
  | .unitTurn => unitStep s
  | .reset => .next (applyReset s)

/-- The word of an instruction as the host latches it: bits above `nbits` are 0. -/
def tableWord (nbits w : Nat) : Word := BitVec.ofNat 32 (w % 2 ^ nbits)

/-- The state after the word is issued (R90), with a turn of the unit as the very next event (log 11). -/
def placeWord (s : State) (v : Word) : State := { issue s v with env := .unitTurn :: s.env }

end Sys2Proof.Machine
end

