-- ==== Sys2Proof/Machine/Step.lean ====
section
/-! DEFINITION. One step of the machine, and how an instruction is placed so that the next step runs it. -/

namespace Sys2Proof.Machine

open Sys2Proof

/-- One step: the next event, or, with none pending, a turn of the unit (40_command_execution.md R92, log 7). -/
def step (s : State) : Host.Outcome State Fault Refusal :=
  match s.env with
  | [] => unitStep s
  | e :: rest => eventStep e { s with env := rest }

/-- The state in which the very next step runs the instruction with bits w (log 11). -/
def State.withFetchWord (s : State) (nbits w : Nat) : State := placeWord s (tableWord nbits w)

end Sys2Proof.Machine
end

