-- ==== Sys2Proof/Machine/HostProgram.lean ====
section
/-! DEFINITION. The host language of 30_encoding.md R78 and R79, the spec's notation for host programs.
It is not part of the BCMU: its registers and program are held apart from State (log 16). -/

namespace Sys2Proof.Machine

open Sys2Proof

/-- The word address of a byte offset. -/
def wordAddr (off : Nat) : WordAddr := BitVec.ofNat 19 (off / 4)

/-- The host instructions of R78; a branch names the index its label stands at. -/
inductive HostInstr where
  | wr (w : WordAddr) (imm : Word)
  | rd (w : WordAddr) (r : Fin 8)
  | rdx (w : WordAddr)
  | andi (r : Fin 8) (imm : Word)
  | bnez (r : Fin 8) (target : Nat)
  | beqz (r : Fin 8) (target : Nat)
  | halt
  deriving DecidableEq, Repr

/-- Why a host program stopped (R78). -/
inductive HostStop where
  | halted
  | busError
  deriving DecidableEq, Repr

/-- The host's side of a run: r0..r7, the next instruction, whether it stopped, and its accesses with their responses, newest first. -/
structure HostState where
  regs    : List Word
  next    : Nat
  stopped : Option HostStop
  trace   : List (Access × Option Response)
  deriving DecidableEq, Repr

/-- A host program before its first instruction. -/
def HostState.start : HostState := { regs := List.replicate 8 0, next := 0, stopped := none, trace := [] }

/-- The host after an access: its trace grows, and it goes on to the next instruction. -/
def hostSeen (h : HostState) (a : Access) (r : Option Response) : HostState :=
  { h with next := h.next + 1, trace := (a, r) :: h.trace }

/-- What `rd` does with the response: the data into rN, or "bus error" (R78). -/
def hostLoad (h : HostState) (r : Fin 8) (resp : Option Response) : HostState :=
  match resp with
  | some (.okRead data) => { h with regs := h.regs.set r.val data }
  | some .okWrite => h
  | some .err => { h with stopped := some .busError }
  | none => h

/-- A branch taken or not. -/
def hostBranch (h : HostState) (taken : Bool) (target : Nat) : HostState :=
  { h with next := if taken then target else h.next + 1 }

/-- One host instruction (R78). -/
def hostInstrStep (i : HostInstr) (h : HostState) (s : State) : HostState × State :=
  match i with
  | .wr w imm => (hostSeen h (.wr w imm) (hostWrite s w imm).resp, hostWrite s w imm)
  | .rd w r => (hostLoad (hostSeen h (.rd w) (hostRead s w).resp) r (hostRead s w).resp, hostRead s w)
  | .rdx w => (hostSeen h (.rd w) (hostRead s w).resp, hostRead s w)
  | .andi r imm => ({ h with regs := h.regs.set r.val (h.regs.getD r.val 0 &&& imm), next := h.next + 1 }, s)
  | .bnez r target => (hostBranch h (h.regs.getD r.val 0 != 0) target, s)
  | .beqz r target => (hostBranch h (h.regs.getD r.val 0 == 0) target, s)
  | .halt => ({ h with stopped := some .halted }, s)

/-- Whose turn it is in a run of a host program against the unit (40_command_execution.md R92). -/
inductive Turn where
  | host
  | unit
  deriving DecidableEq, Repr

/-- One turn. -/
def turnStep (prog : List HostInstr) (t : Turn) (hs : HostState × State) : HostState × State :=
  match t with
  | .unit =>
    match unitStep hs.2 with
    | .next s => (hs.1, s)
    | .fault _ => hs
    | .refused _ => hs
  | .host =>
    match hs.1.stopped, prog[hs.1.next]? with
    | none, some i => hostInstrStep i hs.1 hs.2
    | none, none => hs
    | some _, _ => hs

/-- A run of a host program under a schedule of turns. -/
def runTurns (prog : List HostInstr) (ts : List Turn) (hs : HostState × State) : HostState × State :=
  match ts with
  | [] => hs
  | t :: rest => runTurns prog rest (turnStep prog t hs)

/-! ### The pseudo-instructions of R79 -/

/-- `issue <command>`. -/
def asmIssue (i : Instr) : List HostInstr := [.wr (wordAddr 0x014) (encode i)]

/-- `wait`, standing at index `here` of its program: poll STATUS into r7 until BUSY = 0. -/
def asmWait (here : Nat) : List HostInstr := [.rd (wordAddr 0x010) 7, .andi 7 1, .bnez 7 here]

/-- `setup <src>, <len>, <dst>`. -/
def asmSetup (src len dst : Word) : List HostInstr :=
  [.wr (wordAddr 0x018) src, .wr (wordAddr 0x01C) len, .wr (wordAddr 0x020) dst]

/-- Words written to consecutive window offsets. -/
def asmWords (off : Nat) (ws : List Word) : List HostInstr :=
  match ws with
  | [] => []
  | w :: rest => .wr (wordAddr off) w :: asmWords (off + 4) rest

/-- `key <w0>, ...`. -/
def asmKey (ws : List Word) : List HostInstr := asmWords 0x100 ws

/-- `iv <w0>, ...`. -/
def asmIv (ws : List Word) : List HostInstr := asmWords 0x200 ws

/-- `put <boff>, <w0>, ...`. -/
def asmPut (boff : Nat) (ws : List Word) : List HostInstr := asmWords (0x100000 + boff) ws

/-- `ack`: clears DONE and HERR. -/
def asmAck : List HostInstr := [.wr (wordAddr 0x010) 0x00000102]

end Sys2Proof.Machine
end

