-- ==== Sys2Proof/Safety.lean ====
section
/-! DEFINITION. The invariant that the rules give the BCMU's state and every step keeps. -/

namespace Sys2Proof.Machine

open Sys2Proof

/-- Bytes of a window whose word has not been written since reset or clear are still 0 (10_state.md R34, R35, R43). -/
def unwrittenZero (bytes : List Byte) (mask : List Bool) : Prop :=
  ∀ j, j < bytes.length → mask.getD (j / 4) false = false → bytes.getD j 0 = 0

/-- What holds of every state a run reaches on a legal instance. -/
structure Inv (s : State) : Prop where
  /-- The parameters are in the ranges of 00_scope.md R7. -/
  legal : s.inst.legal = true
  /-- KEY is KLEN bytes (10_state.md R22). -/
  keyLength : s.KEY.length = s.inst.KLEN
  /-- KEYM is ceil4(KLEN) bits. -/
  keymLength : s.KEYM.length = ceil4 s.inst.KLEN
  /-- IV is B bytes. -/
  ivLength : s.IV.length = s.inst.B
  /-- IVM is ceil4(B) bits. -/
  ivmLength : s.IVM.length = ceil4 s.inst.B
  /-- BUF's list is in its canonical form. -/
  bufWf : Memory.wf s.BUF = true
  /-- BUF is BUF_BYTES bytes (R36). -/
  bufRange : ∀ c ∈ s.BUF, c.1 < s.inst.BUF_BYTES
  /-- ERR codes 8..15 are never written (60_exceptions.md R141). -/
  errLegal : s.ERR.toNat ≤ 7
  /-- While BUSY = 1, DONE, ERR and RLEN are as issue left them (40_command_execution.md R90). -/
  busyClear : s.BUSY = true → s.DONE = false ∧ s.ERR = 0 ∧ s.RLEN = 0
  /-- RLEN is 0 beside an error (10_state.md R33). -/
  errorLength : s.ERR ≠ 0 → s.RLEN = 0
  /-- Every output length is at most BUF_BYTES (R33). -/
  rlenBound : s.RLEN.toNat ≤ s.inst.BUF_BYTES
  /-- A KEY byte never written is 0. -/
  keyUnwritten : unwrittenZero s.KEY s.KEYM
  /-- An IV byte never written is 0. -/
  ivUnwritten : unwrittenZero s.IV s.IVM

end Sys2Proof.Machine
end

