-- ==== Sys2Proof/Certificates/Slice0/Obligations.lean ====
section
/-! DEFINITION. The statements for the provers, made from the numbered rules of spec/.
The helpers of Sys2Proof.Rules write a rule's own expressions (a block of the input, a padded byte, a refused access)
directly over the bytes of BUF, not through the functions the meanings call. -/

namespace Sys2Proof.Rules

open Sys2Proof Sys2Proof.Machine

/-- The predicate WF of 30_encoding.md R74, clause by clause. -/
def WF (c : Word) : Prop :=
  c.extractLsb' 16 16 = 0 ∧ c.extractLsb' 5 3 = 0
    ∧ 1 ≤ (c.extractLsb' 0 4).toNat ∧ (c.extractLsb' 0 4).toNat ≤ 6
    ∧ (c.getLsbD 4 = true → (c.extractLsb' 0 4).toNat = 2 ∨ (c.extractLsb' 0 4).toNat = 6)
    ∧ ((c.extractLsb' 0 4).toNat = 1 → c.extractLsb' 8 8 ≠ 0)
    ∧ ((c.extractLsb' 0 4).toNat ≠ 1 → c.extractLsb' 8 8 = 0)

/-- The digits 0 to 15 as lower-case characters. -/
def digitChars : List Char := ['0', '1', '2', '3', '4', '5', '6', '7', '8', '9', 'a', 'b', 'c', 'd', 'e', 'f']

/-- The characters of a digit sequence, and the number it stands for in a base, most significant digit first. -/
def digitText (ds : List Nat) : List Char := ds.map fun d => digitChars.getD d '?'
def digitNumber (base : Nat) (ds : List Nat) : Nat := ds.foldl (fun n d => base * n + d) 0

/-- The characters are a decimal literal, or a hexadecimal one written 0x (00_scope.md R12), of the number n (30_encoding.md R77). -/
def literalOf (cs : List Char) (n : Nat) : Prop :=
  ∃ ds : List Nat, ds ≠ []
    ∧ (((∀ d ∈ ds, d < 10) ∧ cs = digitText ds ∧ n = digitNumber 10 ds)
      ∨ ((∀ d ∈ ds, d < 16) ∧ cs = '0' :: 'x' :: digitText ds ∧ n = digitNumber 16 ds))

/-- Input byte j of a command: BUF[SRC + j]. -/
def inByte (s : State) (j : Nat) : Byte := bufByte s (s.SRC.toNat + j)

/-- Input block i: the B bytes of BUF from SRC + i·B. -/
def inBlock (s : State) (i : Nat) : List Byte := memRead s (s.SRC.toNat + i * s.inst.B) s.inst.B

/-- Byte j of pad(x, b), x the input: the input byte, then R bytes of value R (41_padding.md R110). -/
def paddedByte (s : State) (b j : Nat) : Byte :=
  if j < s.LEN.toNat then inByte s j else BitVec.ofNat 8 (b - s.LEN.toNat % b)

/-- Block i of pad(x, B) (43_cbc.md R130). -/
def paddedBlock (s : State) (i : Nat) : List Byte :=
  (List.range s.inst.B).map fun j => paddedByte s s.inst.B (i * s.inst.B + j)

/-- P_i = D(K, C_i) xor C_(i-1), C_(-1) the IV, over the input blocks (43_cbc.md R131). -/
def plainBlock (s : State) (i : Nat) : List Byte :=
  xorBytes (decryptBlock s.inst s.KEY (inBlock s i)) (if i = 0 then s.IV else inBlock s (i - 1))

/-- Byte j of the decrypted sequence of CBC_DEC. -/
def plainByte (s : State) (j : Nat) : Byte := (plainBlock s (j / s.inst.B)).getD (j % s.inst.B) 0

/-- The padding count V of a sequence of L bytes: its last byte (R111). -/
def countOf (L : Nat) (byte : Nat → Byte) : Nat := (byte (L - 1)).toNat

/-- When unpad rejects a sequence of L bytes (60_exceptions.md R147). -/
def badPadding (chk : PadCheck) (L : Nat) (byte : Nat → Byte) : Prop :=
  L < countOf L byte
    ∨ (chk = .strict ∧ (countOf L byte = 0 ∨ ∃ j, L - countOf L byte ≤ j ∧ j < L ∧ (byte j).toNat ≠ countOf L byte))

/-- The input lies inside BUF, on the exact sum (60_exceptions.md R145). -/
def sourceFits (s : State) : Prop := s.SRC.toNat + s.LEN.toNat ≤ s.inst.BUF_BYTES

/-- KEY and IV have the lengths of 10_state.md R22. -/
def keyIvSized (s : State) : Prop := s.KEY.length = s.inst.KLEN ∧ s.IV.length = s.inst.B

/-- The offset is reserved (10_state.md R23). -/
def reservedOffset (s : State) (o : Nat) : Prop :=
  (0x028 ≤ o ∧ o < 0x100) ∨ (0x300 ≤ o ∧ o < 0x100000) ∨ 0x100000 + s.inst.BUF_BYTES ≤ o

/-- The accesses that get ERR (60_exceptions.md R151, 20_memory.md R54, R55, R57). -/
def refused (s : State) (a : Access) : Prop :=
  match a with
  | .rd w =>
    reservedOffset s (byteOffset w)
      ∨ (s.BUSY = true ∧ byteOffset w ∉ [0x000, 0x004, 0x008, 0x00C, 0x010, 0x024])
  | .wr w v =>
    reservedOffset s (byteOffset w)
      ∨ byteOffset w ∈ [0x000, 0x004, 0x008, 0x024]
      ∨ (s.BUSY = true ∧ byteOffset w ≠ 0x010
          ∧ ¬ (byteOffset w = 0x00C ∧ v.getLsbD 1 = false ∧ v.getLsbD 2 = false))

/-- The next event is a write of v to byte offset o. -/
def nextWrites (s : State) (o : Nat) (v : Word) : Prop :=
  ∃ w rest, s.env = .host (.wr w v) :: rest ∧ byteOffset w = o

/-- The next event is reset. -/
def nextResets (s : State) : Prop := ∃ rest, s.env = .reset :: rest

/-- The next step is a turn of the unit: such an event is next, or none is pending. -/
def nextIsUnit (s : State) : Prop := s.env = [] ∨ ∃ rest, s.env = .unitTurn :: rest

end Sys2Proof.Rules

open Sys2Proof Sys2Proof.Machine Sys2Proof.Rules

/-! ### Encoding -/

/-- Words written out from the fields of 30_encoding.md R71, R72, and the rows of 95_test_vectors.md 3.3. -/
def Obligations.SampleWordsDecode : Prop :=
  decode 0x00000101 = .ok (.pad 1) ∧ decode 0x0000FF01 = .ok (.pad 255)
    ∧ decode 0x00000002 = .ok (.unpad .lenient) ∧ decode 0x00000012 = .ok (.unpad .strict)
    ∧ decode 0x00000003 = .ok .ecbEnc ∧ decode 0x00000004 = .ok .ecbDec ∧ decode 0x00000005 = .ok .cbcEnc
    ∧ decode 0x00000006 = .ok (.cbcDec .lenient) ∧ decode 0x00000016 = .ok (.cbcDec .strict)
    ∧ decode 0x00000001 = .error .pbsZero ∧ decode 0x00000013 = .error .chkNotAllowed
    ∧ decode 0x00000106 = .error .pbsNotAllowed ∧ decode 0x80000003 = .error .reservedBits
    ∧ decode 0x00000022 = .error .reservedBits ∧ decode 0x00000000 = .error .reservedOp
    ∧ decode 0x0000000F = .error .reservedOp

/-- R77: the assembler's table, nothing else assembles, and no illegal word is emitted.
The literals are pinned twice: by the digits they consist of, and by the digits of every number 1 to 255 in either base. -/
def Obligations.AssemblerFollowsSyntaxTable : Prop :=
  (∀ (m : List Char) (ops : List (List Char)) (c : Word),
    (assemble m ops = some c ↔
      (m.map lowerChar = ['p', 'a', 'd'] ∧ ∃ operand n, ops = [operand] ∧ literalOf (operand.map lowerChar) n
          ∧ 1 ≤ n ∧ n ≤ 255 ∧ c = BitVec.ofNat 32 (1 + 256 * n))
      ∨ (m.map lowerChar = ['u', 'n', 'p', 'a', 'd'] ∧ ops = [] ∧ c = 0x00000002)
      ∨ (m.map lowerChar = ['u', 'n', 'p', 'a', 'd', '.', 'c', 'h', 'k'] ∧ ops = [] ∧ c = 0x00000012)
      ∨ (m.map lowerChar = ['e', 'c', 'b', '.', 'e', 'n', 'c'] ∧ ops = [] ∧ c = 0x00000003)
      ∨ (m.map lowerChar = ['e', 'c', 'b', '.', 'd', 'e', 'c'] ∧ ops = [] ∧ c = 0x00000004)
      ∨ (m.map lowerChar = ['c', 'b', 'c', '.', 'e', 'n', 'c'] ∧ ops = [] ∧ c = 0x00000005)
      ∨ (m.map lowerChar = ['c', 'b', 'c', '.', 'd', 'e', 'c'] ∧ ops = [] ∧ c = 0x00000006)
      ∨ (m.map lowerChar = ['c', 'b', 'c', '.', 'd', 'e', 'c', '.', 'c', 'h', 'k'] ∧ ops = [] ∧ c = 0x00000016))
    ∧ (assemble m ops = some c → WF c))
  ∧ ∀ n, 1 ≤ n → n ≤ 255 →
    assemble ['p', 'a', 'd'] [Nat.toDigits 10 n] = some (BitVec.ofNat 32 (1 + 256 * n))
    ∧ assemble ['p', 'a', 'd'] ['0' :: 'x' :: Nat.toDigits 16 n] = some (BitVec.ofNat 32 (1 + 256 * n))

/-- R74, R75, R142: the decoder accepts exactly the well-formed words; any word issues; one that is not well formed
completes with ILLEGAL_CMD, RLEN = 0 and no other change. -/
def Obligations.IllegalWordsIssueAndCompleteIllegalCmd : Prop :=
  (∀ c : Word, (∃ i, decode c = .ok i) ↔ WF c)
    ∧ (∀ (s : State) (w : WordAddr) (v : Word), s.BUSY = false → byteOffset w = 0x014 →
        (hostWrite s w v).resp = some .okWrite ∧ (hostWrite s w v).BUSY = true ∧ (hostWrite s w v).CMDL = v)
    ∧ (∀ s : State, s.BUSY = true → ¬ WF s.CMDL →
        unitStep s = .next { s with ERR := 1, RLEN := 0, BUSY := false, DONE := true })

/-- Decoding the word of a well-formed command gives the command back, every operand at every value (R71, R72). -/
def Obligations.DecodeInvertsEncode : Prop :=
  ∀ i : Instr, i.wf = true → decode (encode i) = .ok i

/-- Each legal word has one meaning, and encoding that meaning gives the word back. -/
def Obligations.EncodeInvertsDecode : Prop :=
  ∀ (c : Word) (i : Instr), decode c = .ok i → i.wf = true ∧ encode i = c

/-- R76: the list of legal words, 262 of them, and every other word illegal. -/
def Obligations.ExactlyTheListedWordsAreLegal : Prop :=
  let listed : List Word := ((List.range 255).map fun n => BitVec.ofNat 32 (0x101 + 0x100 * n))
    ++ [0x00000002, 0x00000012, 0x00000003, 0x00000004, 0x00000005, 0x00000006, 0x00000016]
  listed.length = 262 ∧ listed.Nodup ∧ ∀ c : Word, c ∈ listed ↔ ∃ i, decode c = .ok i

/-! ### Steps, completion, reset -/

/-- A turn of the unit with a well-formed word latched runs exec of it; withFetchWord places a word so. -/
def Obligations.StepRunsDecodedCommand : Prop :=
  ∀ (s : State) (i : Instr),
    (s.BUSY = true → decode s.CMDL = .ok i →
      (s.env = [] → step s = exec i s)
        ∧ ∀ rest, s.env = .unitTurn :: rest → step s = exec i { s with env := rest })
    ∧ ∀ nbits w, decodeTableWord nbits w = some i →
        step (s.withFetchWord nbits w) = exec i (issue s (BitVec.ofNat 32 (w % 2 ^ nbits)))

/-- No run of any length ends in a fault or a refusal: every command completes, every access gets a response. -/
def Obligations.NoRunEverStops : Prop :=
  ∀ (k : Nat) (s : State), ∃ t, Sys2Proof.core.run k s = .next t

/-- A command in flight completes (R91, R92); with n events pending, n + 1 steps lead to a state with BUSY = 0 and no event left.
The list of events, and the unit's turn when none is pending, are the model's form of R92's schedule (log 7). -/
def Obligations.CommandInFlightCompletes : Prop :=
  ∀ s : State, ∃ t, Sys2Proof.core.run (s.env.length + 1) s = .next t ∧ t.BUSY = false ∧ t.env = []

/-- Reset from any state, a command in flight or not (R43, R170).
That BUF's bytes are the free value of a new draw is the model's form of R36's unspecified contents (log 5, log 19). -/
def Obligations.ResetEventSetsEveryField : Prop :=
  ∀ (s : State) (rest : List Event), s.inst.legal = true → s.env = .reset :: rest →
    ∃ t, step s = .next t
      ∧ t.IE = false ∧ t.BUSY = false ∧ t.DONE = false ∧ t.ERR = 0 ∧ t.HERR = false
      ∧ t.CMDL = 0 ∧ t.SRC = 0 ∧ t.LEN = 0 ∧ t.DST = 0 ∧ t.RLEN = 0
      ∧ t.KEY = List.replicate s.inst.KLEN 0 ∧ t.KEYM = List.replicate (ceil4 s.inst.KLEN) false
      ∧ t.IV = List.replicate s.inst.B 0 ∧ t.IVM = List.replicate (ceil4 s.inst.B) false
      ∧ keyValid t = false ∧ ivValid t = false ∧ irq t = false
      ∧ (∀ a, bufByte t a = Config.buf0 (s.draw + 1) a)
      ∧ readWord t .id = readWord s .id ∧ readWord t .info = readWord s .info ∧ readWord t .bufsz = readWord s .bufsz

/-- The state after reset of any legal instance meets the invariant, the default one's among them. -/
def Obligations.ResetMeetsInvariant : Prop :=
  Inv State.reset ∧ ∀ (p : Params) (d : Nat) (env : List Event), p.legal = true → Inv (State.afterReset p d env)

/-- Every step keeps the invariant. -/
def Obligations.StepKeepsInvariant : Prop :=
  ∀ s t : State, Inv s → step s = .next t → Inv t

/-- An idle unit stays idle until CMD is written (R172).
That the unit has a turn at BUSY = 0, which changes nothing but the list of events, is the model's choice (log 8; log 7 for none pending). -/
def Obligations.IdleUntilCmdIsWritten : Prop :=
  ∀ s t : State, s.BUSY = false → step s = .next t →
    ((∀ v, ¬ nextWrites s 0x014 v) → t.BUSY = false) ∧ (nextIsUnit s → t = { s with env := s.env.tail })

/-! ### The host port -/

/-- R151, R54: which accesses get ERR, their only effect, and how long HERR stays. -/
def Obligations.AccessErrorsExactlyWhenRefused : Prop :=
  (∀ (s : State) (a : Access),
      ((hostAccess s a).resp = some .err ↔ refused s a)
        ∧ (refused s a → hostAccess s a = { s with HERR := true, resp := some .err }))
    ∧ ∀ s t : State, step s = .next t → s.HERR = true → t.HERR = false →
        (∃ v, nextWrites s 0x010 v ∧ v.getLsbD 8 = true) ∨ nextResets s

/-- R56: an accepted read changes nothing but the host's response and reads the same again; a write is idempotent but for CMD. -/
def Obligations.ReadsHaveNoSideEffectAndWritesAreIdempotent : Prop :=
  (∀ (s : State) (w : WordAddr), ¬ refused s (.rd w) → ∃ d, hostRead s w = { s with resp := some (.okRead d) })
    ∧ (∀ (s : State) (w : WordAddr), hostRead (hostRead s w) w = hostRead s w)
    ∧ ∀ (s : State) (w : WordAddr) (v : Word), Inv s → byteOffset w ≠ 0x014 →
        hostWrite (hostWrite s w v) w v = hostWrite s w v

/-- R24, R25, R26: the constant registers, in every state; RLEN beside them is as readable and as read-only (R33, R55, R57). -/
def Obligations.ReadOnlyRegisters : Prop :=
  ∀ (s : State) (w : WordAddr) (v : Word), s.inst.legal = true →
    (byteOffset w = 0x000 → (hostRead s w).resp = some (.okRead 0x45434243))
    ∧ (byteOffset w = 0x004 → ∃ d : Word, (hostRead s w).resp = some (.okRead d)
        ∧ (d.extractLsb' 0 8).toNat = s.inst.B ∧ (d.extractLsb' 8 8).toNat = s.inst.KLEN
        ∧ d.extractLsb' 16 8 = 0 ∧ d.extractLsb' 24 8 = 1
        ∧ d.toNat = s.inst.B + 256 * s.inst.KLEN + 0x01000000
        ∧ (s.inst = Params.default → d = 0x01001010))
    ∧ (byteOffset w = 0x008 → ∃ d : Word, (hostRead s w).resp = some (.okRead d) ∧ d.toNat = s.inst.BUF_BYTES
        ∧ (s.inst = Params.default → d = 0x00001000))
    ∧ (byteOffset w = 0x024 → (hostRead s w).resp = some (.okRead s.RLEN))
    ∧ (byteOffset w ∈ [0x000, 0x004, 0x008, 0x024] → hostWrite s w v = { s with HERR := true, resp := some .err })

/-- R27: CTRL. -/
def Obligations.CtrlReadsAndWrites : Prop :=
  ∀ (s : State) (w : WordAddr) (v : Word), byteOffset w = 0x00C →
    (∃ d : Word, (hostRead s w).resp = some (.okRead d) ∧ d.getLsbD 0 = s.IE ∧ d.extractLsb' 1 31 = 0)
    ∧ (s.BUSY = false ∨ (v.getLsbD 1 = false ∧ v.getLsbD 2 = false) →
        hostWrite s w v =
          { s with
            IE := v.getLsbD 0
            KEY := if v.getLsbD 1 then List.replicate s.KEY.length 0 else s.KEY
            KEYM := if v.getLsbD 1 then List.replicate s.KEYM.length false else s.KEYM
            IV := if v.getLsbD 2 then List.replicate s.IV.length 0 else s.IV
            IVM := if v.getLsbD 2 then List.replicate s.IVM.length false else s.IVM
            resp := some .okWrite })
    ∧ (s.BUSY = true → v.getLsbD 1 = true ∨ v.getLsbD 2 = true →
        hostWrite s w v = { s with HERR := true, resp := some .err })
    ∧ ctrlWord State.reset = 0

/-- R28: what a read of STATUS shows bit by bit, and that a write, accepted at any time, clears only DONE and HERR. -/
def Obligations.StatusReadsAndWrites : Prop :=
  ∀ (s : State) (w : WordAddr) (v : Word), byteOffset w = 0x010 →
    (∃ d : Word, (hostRead s w).resp = some (.okRead d)
        ∧ d.getLsbD 0 = s.BUSY ∧ d.getLsbD 1 = s.DONE
        ∧ (d.getLsbD 2 = true ↔ ∀ j, j < s.KEYM.length → s.KEYM.getD j false = true)
        ∧ (d.getLsbD 3 = true ↔ ∀ j, j < s.IVM.length → s.IVM.getD j false = true)
        ∧ d.extractLsb' 4 4 = s.ERR ∧ d.getLsbD 8 = s.HERR ∧ d.extractLsb' 9 23 = 0)
    ∧ hostWrite s w v =
        { s with
          DONE := if v.getLsbD 1 then false else s.DONE
          HERR := if v.getLsbD 8 then false else s.HERR
          resp := some .okWrite }

/-- R29, R90: a CMD write issues when BUSY = 0 and is dropped when BUSY = 1; CMD reads 0. -/
def Obligations.CmdWriteIssuesOrIsDropped : Prop :=
  ∀ (s : State) (w : WordAddr) (v : Word), byteOffset w = 0x014 →
    (s.BUSY = false →
        hostWrite s w v =
          { s with CMDL := v, BUSY := true, DONE := false, ERR := 0, RLEN := 0, resp := some .okWrite }
        ∧ hostRead s w = { s with resp := some (.okRead 0) })
    ∧ (s.BUSY = true →
        hostWrite s w v = { s with HERR := true, resp := some .err }
        ∧ hostRead s w = { s with HERR := true, resp := some .err })
    ∧ State.reset.CMDL = 0

/-- R30, R31, R32: SRC, LEN and DST keep any 32-bit value, read back unchanged, and no command writes them. -/
def Obligations.OperandRegistersHoldWhatIsWritten : Prop :=
  (∀ (s : State) (w : WordAddr) (v : Word), s.BUSY = false →
      (byteOffset w = 0x018 → hostWrite s w v = { s with SRC := v, resp := some .okWrite })
      ∧ (byteOffset w = 0x01C → hostWrite s w v = { s with LEN := v, resp := some .okWrite })
      ∧ (byteOffset w = 0x020 → hostWrite s w v = { s with DST := v, resp := some .okWrite })
      ∧ (byteOffset w ∈ [0x018, 0x01C, 0x020] → (hostRead (hostWrite s w v) w).resp = some (.okRead v)))
    ∧ (∀ s t : State, unitStep s = .next t → t.SRC = s.SRC ∧ t.LEN = s.LEN ∧ t.DST = s.DST)
    ∧ State.reset.SRC = 0 ∧ State.reset.LEN = 0 ∧ State.reset.DST = 0

/-- R34, R52: the KEY window, written in little-endian words, discarded beyond KLEN, read as 0. -/
def Obligations.KeyWindowIsWriteOnly : Prop :=
  (∀ (s : State) (w : WordAddr) (v : Word) (k : Nat), k < 64 → byteOffset w = 0x100 + 4 * k →
      (s.BUSY = false →
        ∃ key keym, hostWrite s w v = { s with KEY := key, KEYM := keym, resp := some .okWrite }
          ∧ key.length = s.KEY.length ∧ keym.length = s.KEYM.length
          ∧ (∀ j, j < s.KEY.length →
              key.getD j 0 = if j / 4 = k then v.extractLsb' (8 * (j % 4)) 8 else s.KEY.getD j 0)
          ∧ (∀ j, j < s.KEYM.length → keym.getD j false = if j = k then true else s.KEYM.getD j false)
          ∧ hostRead s w = { s with resp := some (.okRead 0) })
      ∧ (s.BUSY = true →
          hostWrite s w v = { s with HERR := true, resp := some .err }
          ∧ hostRead s w = { s with HERR := true, resp := some .err }))
    ∧ (∀ s t : State, unitStep s = .next t → t.KEY = s.KEY ∧ t.KEYM = s.KEYM)
    ∧ ∀ (p : Params) (d : Nat) (env : List Event),
        (State.afterReset p d env).KEY = List.replicate p.KLEN 0
        ∧ (State.afterReset p d env).KEYM = List.replicate (ceil4 p.KLEN) false

/-- R35, R52: the IV window, written in little-endian words, discarded beyond B, read back with 0 beyond B. -/
def Obligations.IvWindowReadsBack : Prop :=
  (∀ (s : State) (w : WordAddr) (v : Word) (k : Nat), k < 64 → byteOffset w = 0x200 + 4 * k →
      (s.BUSY = false →
        (∃ iv ivm, hostWrite s w v = { s with IV := iv, IVM := ivm, resp := some .okWrite }
          ∧ iv.length = s.IV.length ∧ ivm.length = s.IVM.length
          ∧ (∀ j, j < s.IV.length →
              iv.getD j 0 = if j / 4 = k then v.extractLsb' (8 * (j % 4)) 8 else s.IV.getD j 0)
          ∧ (∀ j, j < s.IVM.length → ivm.getD j false = if j = k then true else s.IVM.getD j false))
        ∧ ∃ d : Word, hostRead s w = { s with resp := some (.okRead d) }
          ∧ d.toNat = ((List.range 4).map fun i =>
              if 4 * k + i < s.IV.length then (s.IV.getD (4 * k + i) 0).toNat * 2 ^ (8 * i) else 0).sum)
      ∧ (s.BUSY = true →
          hostWrite s w v = { s with HERR := true, resp := some .err }
          ∧ hostRead s w = { s with HERR := true, resp := some .err }))
    ∧ (∀ s t : State, unitStep s = .next t → t.IV = s.IV ∧ t.IVM = s.IVM)
    ∧ ∀ (p : Params) (d : Nat) (env : List Event),
        (State.afterReset p d env).IV = List.replicate p.B 0
        ∧ (State.afterReset p d env).IVM = List.replicate (ceil4 p.B) false

/-- R36, R52: the BUF window, little-endian words; after reset every byte is the free value of the draw (log 5). -/
def Obligations.BufWindowReadsAndWrites : Prop :=
  (∀ (s : State) (w : WordAddr) (v : Word) (k : Nat), 4 * k < s.inst.BUF_BYTES → byteOffset w = 0x100000 + 4 * k →
      (s.BUSY = false →
        (∃ buf, hostWrite s w v = { s with BUF := buf, resp := some .okWrite }
          ∧ ∀ a, bufByte { s with BUF := buf } a
              = if a / 4 = k then v.extractLsb' (8 * (a % 4)) 8 else bufByte s a)
        ∧ ∃ d : Word, hostRead s w = { s with resp := some (.okRead d) }
          ∧ d.toNat = (bufByte s (4 * k)).toNat + 2 ^ 8 * (bufByte s (4 * k + 1)).toNat
              + 2 ^ 16 * (bufByte s (4 * k + 2)).toNat + 2 ^ 24 * (bufByte s (4 * k + 3)).toNat)
      ∧ (s.BUSY = true →
          hostWrite s w v = { s with HERR := true, resp := some .err }
          ∧ hostRead s w = { s with HERR := true, resp := some .err }))
    ∧ ∀ (p : Params) (d : Nat) (env : List Event) (a : Nat), bufByte (State.afterReset p d env) a = Config.buf0 d a

/-- R42, R100: KEY and KEYM change only by a KEY word write, KEYCLR or reset, and IV and IVM likewise; none while BUSY but by reset. -/
def Obligations.KeyAndIvChangeOnlyByTheHost : Prop :=
  ∀ s t : State, step s = .next t →
    ((t.KEY ≠ s.KEY ∨ t.KEYM ≠ s.KEYM) →
      nextResets s ∨ (s.BUSY = false ∧ ∃ v, (∃ k, k < 64 ∧ nextWrites s (0x100 + 4 * k) v)
        ∨ (nextWrites s 0x00C v ∧ v.getLsbD 1 = true)))
    ∧ ((t.IV ≠ s.IV ∨ t.IVM ≠ s.IVM) →
      nextResets s ∨ (s.BUSY = false ∧ ∃ v, (∃ k, k < 64 ∧ nextWrites s (0x200 + 4 * k) v)
        ∨ (nextWrites s 0x00C v ∧ v.getLsbD 2 = true)))

/-- R37, R38, R178: KEYCLR and IVCLR invalidate, and a word written again to a valid key or IV leaves it valid. -/
def Obligations.ClearInvalidatesAndRewriteKeepsValid : Prop :=
  ∀ (s : State) (w : WordAddr) (v : Word), Inv s → s.BUSY = false →
    (byteOffset w = 0x00C → v.getLsbD 1 = true → keyValid (hostWrite s w v) = false)
    ∧ (byteOffset w = 0x00C → v.getLsbD 2 = true → ivValid (hostWrite s w v) = false)
    ∧ (0x100 ≤ byteOffset w → byteOffset w < 0x200 → keyValid s = true → keyValid (hostWrite s w v) = true)
    ∧ (0x200 ≤ byteOffset w → byteOffset w < 0x300 → ivValid s = true → ivValid (hostWrite s w v) = true)
    ∧ (byteOffset w = 0x100 → s.inst.KLEN ≤ 4 → keyValid (hostWrite s w v) = true)
    ∧ (byteOffset w = 0x200 → s.inst.B ≤ 4 → ivValid (hostWrite s w v) = true)

/-- R57, R60, R94, R176: whatever the host does while a command is in flight, the command's result is the same. -/
def Obligations.HostCannotDisturbCommandInFlight : Prop :=
  ∀ (s : State) (accesses : List Access), s.BUSY = true →
    (accesses.foldl hostAccess s).BUSY = true
    ∧ (accesses.foldl hostAccess s).CMDL = s.CMDL
    ∧ ∃ t t', unitStep s = .next t ∧ unitStep (accesses.foldl hostAccess s) = .next t'
      ∧ t'.BUF = t.BUF ∧ t'.ERR = t.ERR ∧ t'.RLEN = t.RLEN ∧ t'.BUSY = false ∧ t'.DONE = true
      ∧ t'.KEY = t.KEY ∧ t'.KEYM = t.KEYM ∧ t'.IV = t.IV ∧ t'.IVM = t.IVM
      ∧ t'.SRC = t.SRC ∧ t'.LEN = t.LEN ∧ t'.DST = t.DST

/-- R39: CMDL is written only by issue and reset, read by no host access, read by completion, and 0 after reset. -/
def Obligations.CmdlIsWrittenByIssueAndReadByCompletion : Prop :=
  (∀ s t : State, step s = .next t → t.CMDL ≠ s.CMDL → nextResets s ∨ (s.BUSY = false ∧ nextWrites s 0x014 t.CMDL))
    ∧ (∀ (s : State) (c : Word) (a : Access), ∃ c', hostAccess { s with CMDL := c } a = { hostAccess s a with CMDL := c' })
    ∧ (∀ s : State, s.BUSY = true → unitStep s =
        match decode s.CMDL with
        | .ok i => exec i s
        | .error _ => .next { s with ERR := 1, RLEN := 0, BUSY := false, DONE := true })
    ∧ ∀ (i : Instr) (s t : State) (c : Word), exec i s = .next t → exec i { s with CMDL := c } = .next { t with CMDL := c }

/-- R41, R153: irq is IE AND DONE; exactly what raises it, and exactly what lowers it. -/
def Obligations.InterruptLineRisesAndFalls : Prop :=
  (∀ s : State, irq s = true ↔ s.IE = true ∧ s.DONE = true)
    ∧ ∀ s t : State, step s = .next t →
      (irq s = false → (irq t = true ↔
        (nextIsUnit s ∧ s.BUSY = true ∧ s.IE = true)
        ∨ (∃ v, nextWrites s 0x00C v ∧ v.getLsbD 0 = true ∧ s.DONE = true ∧ t.resp = some .okWrite)))
      ∧ (irq s = true → (irq t = false ↔
        (∃ v, nextWrites s 0x010 v ∧ v.getLsbD 1 = true)
        ∨ (∃ v, nextWrites s 0x014 v ∧ s.BUSY = false)
        ∨ (∃ v, nextWrites s 0x00C v ∧ v.getLsbD 0 = false ∧ t.resp = some .okWrite)
        ∨ nextResets s))

/-- R34, R161: no host access can tell one key from another; two states that differ only in KEY answer alike and stay so. -/
def Obligations.KeyCannotBeReadBack : Prop :=
  ∀ (s : State) (key : List Byte) (accesses : List Access), key.length = s.KEY.length →
    ∃ key', key'.length = key.length
      ∧ accesses.foldl hostAccess { s with KEY := key } = { accesses.foldl hostAccess s with KEY := key' }

/-! ### The commands: completion, result, frame -/

/-- R100, R59: what every command leaves alone: all registers but ERR, RLEN, BUSY and DONE, and every byte of BUF outside
[DST, DST + RLEN). -/
def Obligations.CommandsWriteOnlyTheirResult : Prop :=
  ∀ (i : Instr) (s t : State), s.inst.legal = true → exec i s = .next t →
    t.KEY = s.KEY ∧ t.KEYM = s.KEYM ∧ t.IV = s.IV ∧ t.IVM = s.IVM
    ∧ t.SRC = s.SRC ∧ t.LEN = s.LEN ∧ t.DST = s.DST ∧ t.IE = s.IE ∧ t.HERR = s.HERR ∧ t.CMDL = s.CMDL
    ∧ t.inst = s.inst ∧ t.draw = s.draw ∧ t.env = s.env ∧ t.resp = s.resp
    ∧ t.BUSY = false ∧ t.DONE = true
    ∧ ∀ a, ¬ (s.DST.toNat ≤ a ∧ a < s.DST.toNat + t.RLEN.toNat) → bufByte t a = bufByte s a

/-- R110, R112: PAD. -/
def Obligations.PadAppendsItsCount : Prop :=
  ∀ (s : State) (pbs : BitVec 8), s.inst.legal = true → pbs ≠ 0 → sourceFits s →
    s.DST.toNat + s.LEN.toNat + (pbs.toNat - s.LEN.toNat % pbs.toNat) ≤ s.inst.BUF_BYTES →
    ∃ t, exec (.pad pbs) s = .next t ∧ t.ERR = 0 ∧ t.BUSY = false ∧ t.DONE = true
      ∧ t.RLEN.toNat = s.LEN.toNat + (pbs.toNat - s.LEN.toNat % pbs.toNat)
      ∧ (∀ j, j < s.LEN.toNat → bufByte t (s.DST.toNat + j) = inByte s j)
      ∧ ∀ j, s.LEN.toNat ≤ j → j < t.RLEN.toNat →
          (bufByte t (s.DST.toNat + j)).toNat = pbs.toNat - s.LEN.toNat % pbs.toNat

/-- R111, R113: UNPAD, lenient and strict. -/
def Obligations.UnpadRemovesItsCount : Prop :=
  ∀ (s : State) (chk : PadCheck), s.inst.legal = true → sourceFits s → s.LEN.toNat ≠ 0 →
    ¬ badPadding chk s.LEN.toNat (inByte s) →
    s.DST.toNat + (s.LEN.toNat - countOf s.LEN.toNat (inByte s)) ≤ s.inst.BUF_BYTES →
    ∃ t, exec (.unpad chk) s = .next t ∧ t.ERR = 0 ∧ t.BUSY = false ∧ t.DONE = true
      ∧ t.RLEN.toNat = s.LEN.toNat - countOf s.LEN.toNat (inByte s)
      ∧ ∀ j, j < t.RLEN.toNat → bufByte t (s.DST.toNat + j) = inByte s j

/-- R120: ECB_ENC, block by block. -/
def Obligations.EcbEncEncryptsEachBlock : Prop :=
  ∀ s : State, s.inst.legal = true → keyIvSized s → keyValid s = true → sourceFits s →
    s.LEN.toNat % s.inst.B = 0 → s.DST.toNat + s.LEN.toNat ≤ s.inst.BUF_BYTES →
    ∃ t, exec .ecbEnc s = .next t ∧ t.ERR = 0 ∧ t.BUSY = false ∧ t.DONE = true ∧ t.RLEN = s.LEN
      ∧ ∀ i, i < s.LEN.toNat / s.inst.B →
          memRead t (s.DST.toNat + i * s.inst.B) s.inst.B = encryptBlock s.inst s.KEY (inBlock s i)

/-- R121: ECB_DEC, block by block. -/
def Obligations.EcbDecDecryptsEachBlock : Prop :=
  ∀ s : State, s.inst.legal = true → keyIvSized s → keyValid s = true → sourceFits s →
    s.LEN.toNat % s.inst.B = 0 → s.DST.toNat + s.LEN.toNat ≤ s.inst.BUF_BYTES →
    ∃ t, exec .ecbDec s = .next t ∧ t.ERR = 0 ∧ t.BUSY = false ∧ t.DONE = true ∧ t.RLEN = s.LEN
      ∧ ∀ i, i < s.LEN.toNat / s.inst.B →
          memRead t (s.DST.toNat + i * s.inst.B) s.inst.B = decryptBlock s.inst s.KEY (inBlock s i)

/-- R130: CBC_ENC, by the recurrence on its output blocks. -/
def Obligations.CbcEncChainsItsBlocks : Prop :=
  ∀ s : State, s.inst.legal = true → keyIvSized s → keyValid s = true → ivValid s = true → sourceFits s →
    s.DST.toNat + s.LEN.toNat + (s.inst.B - s.LEN.toNat % s.inst.B) ≤ s.inst.BUF_BYTES →
    ∃ t, exec .cbcEnc s = .next t ∧ t.ERR = 0 ∧ t.BUSY = false ∧ t.DONE = true
      ∧ t.RLEN.toNat = s.LEN.toNat + (s.inst.B - s.LEN.toNat % s.inst.B)
      ∧ ∀ i, i < t.RLEN.toNat / s.inst.B →
          memRead t (s.DST.toNat + i * s.inst.B) s.inst.B
            = encryptBlock s.inst s.KEY (xorBytes (paddedBlock s i)
                (if i = 0 then s.IV else memRead t (s.DST.toNat + (i - 1) * s.inst.B) s.inst.B))

/-- R131: CBC_DEC, lenient and strict, by the recurrence on its input blocks. -/
def Obligations.CbcDecUnchainsAndUnpads : Prop :=
  ∀ (s : State) (chk : PadCheck), s.inst.legal = true → keyIvSized s → keyValid s = true → ivValid s = true →
    sourceFits s → s.LEN.toNat ≠ 0 → s.LEN.toNat % s.inst.B = 0 →
    ¬ badPadding chk s.LEN.toNat (plainByte s) →
    s.DST.toNat + (s.LEN.toNat - countOf s.LEN.toNat (plainByte s)) ≤ s.inst.BUF_BYTES →
    ∃ t, exec (.cbcDec chk) s = .next t ∧ t.ERR = 0 ∧ t.BUSY = false ∧ t.DONE = true
      ∧ t.RLEN.toNat = s.LEN.toNat - countOf s.LEN.toNat (plainByte s)
      ∧ ∀ j, j < t.RLEN.toNat → bufByte t (s.DST.toNat + j) = plainByte s j

/-! ### Command errors -/

/-- R93, R149 for PAD and UNPAD: the code is that of the first check that fails. -/
def Obligations.CodecErrorIsFirstFailingCheck : Prop :=
  (∀ (s : State) (pbs : BitVec 8), ∃ t, exec (.pad pbs) s = .next t ∧ t.ERR =
      if pbs = 0 then 1
      else if s.inst.BUF_BYTES < s.SRC.toNat + s.LEN.toNat then 4
      else if s.inst.BUF_BYTES < s.DST.toNat + s.LEN.toNat + (pbs.toNat - s.LEN.toNat % pbs.toNat) then 7
      else 0)
    ∧ ∀ (s : State) (chk : PadCheck), ∃ t, exec (.unpad chk) s = .next t
      ∧ (¬ sourceFits s → t.ERR = 4)
      ∧ (sourceFits s → s.LEN.toNat = 0 → t.ERR = 5)
      ∧ (sourceFits s → s.LEN.toNat ≠ 0 → badPadding chk s.LEN.toNat (inByte s) → t.ERR = 6)
      ∧ (sourceFits s → s.LEN.toNat ≠ 0 → ¬ badPadding chk s.LEN.toNat (inByte s) →
          t.ERR = if s.inst.BUF_BYTES < s.DST.toNat + (s.LEN.toNat - countOf s.LEN.toNat (inByte s)) then 7 else 0)

/-- R93, R149 for ECB_ENC and ECB_DEC. -/
def Obligations.EcbErrorIsFirstFailingCheck : Prop :=
  ∀ (s : State) (i : Instr), s.inst.legal = true → keyIvSized s → i = .ecbEnc ∨ i = .ecbDec →
    ∃ t, exec i s = .next t ∧ t.ERR =
      if keyValid s = false then 2
      else if s.inst.BUF_BYTES < s.SRC.toNat + s.LEN.toNat then 4
      else if s.LEN.toNat % s.inst.B ≠ 0 then 5
      else if s.inst.BUF_BYTES < s.DST.toNat + s.LEN.toNat then 7
      else 0

/-- R93, R149 for CBC_ENC and CBC_DEC. -/
def Obligations.CbcErrorIsFirstFailingCheck : Prop :=
  (∀ s : State, s.inst.legal = true → keyIvSized s → ∃ t, exec .cbcEnc s = .next t ∧ t.ERR =
      if keyValid s = false then 2
      else if ivValid s = false then 3
      else if s.inst.BUF_BYTES < s.SRC.toNat + s.LEN.toNat then 4
      else if s.inst.BUF_BYTES < s.DST.toNat + s.LEN.toNat + (s.inst.B - s.LEN.toNat % s.inst.B) then 7
      else 0)
    ∧ ∀ (s : State) (chk : PadCheck), s.inst.legal = true → keyIvSized s → ∃ t, exec (.cbcDec chk) s = .next t
      ∧ (keyValid s = false → t.ERR = 2)
      ∧ (keyValid s = true → ivValid s = false → t.ERR = 3)
      ∧ (keyValid s = true → ivValid s = true → ¬ sourceFits s → t.ERR = 4)
      ∧ (keyValid s = true → ivValid s = true → sourceFits s →
          (s.LEN.toNat = 0 ∨ s.LEN.toNat % s.inst.B ≠ 0) → t.ERR = 5)
      ∧ (keyValid s = true → ivValid s = true → sourceFits s → s.LEN.toNat ≠ 0 → s.LEN.toNat % s.inst.B = 0 →
          badPadding chk s.LEN.toNat (plainByte s) → t.ERR = 6)
      ∧ (keyValid s = true → ivValid s = true → sourceFits s → s.LEN.toNat ≠ 0 → s.LEN.toNat % s.inst.B = 0 →
          ¬ badPadding chk s.LEN.toNat (plainByte s) →
          t.ERR = if s.inst.BUF_BYTES < s.DST.toNat + (s.LEN.toNat - countOf s.LEN.toNat (plainByte s)) then 7 else 0)

/-- R150: a command error is precise: the state after it is the state before but for ERR, RLEN, BUSY and DONE. -/
def Obligations.CommandErrorIsPrecise : Prop :=
  ∀ s t : State, s.BUSY = true → unitStep s = .next t → t.ERR ≠ 0 →
    t = { s with ERR := t.ERR, RLEN := 0, BUSY := false, DONE := true }

/-- R141: the codes each command can leave, never 8..15, and how long a code stays. -/
def Obligations.ErrorCodesOfEachCommand : Prop :=
  (∀ (i : Instr) (s t : State), i.wf = true → exec i s = .next t →
      t.ERR ∈ (match i with
        | .pad _ => [0, 4, 7]
        | .unpad _ => [0, 4, 5, 6, 7]
        | .ecbEnc => [0, 2, 4, 5, 7]
        | .ecbDec => [0, 2, 4, 5, 7]
        | .cbcEnc => [0, 2, 3, 4, 7]
        | .cbcDec _ => [0, 2, 3, 4, 5, 6, 7] : List (BitVec 4)))
    ∧ (∀ s t : State, s.BUSY = true → ¬ WF s.CMDL → unitStep s = .next t → t.ERR = 1)
    ∧ ∀ s t : State, step s = .next t → t.ERR ≠ s.ERR →
        (nextIsUnit s ∧ s.BUSY = true) ∨ (∃ v, nextWrites s 0x014 v ∧ s.BUSY = false) ∨ nextResets s

/-! ### Laws of the functions, and round trips of whole commands -/

/-- R114: pad then unpad, as functions and as two commands. -/
def Obligations.UnpadUndoesPad : Prop :=
  (∀ (x : List Byte) (b : Nat) (chk : PadCheck), 1 ≤ b → b ≤ 255 →
      unpadBytes (padBytes x b) chk = .ok x ∧ (padBytes x b).length % b = 0 ∧ x.length < (padBytes x b).length)
    ∧ ∀ (s t : State) (pbs : BitVec 8) (chk : PadCheck) (d : Word), s.inst.legal = true →
      exec (.pad pbs) s = .next t → t.ERR = 0 → d.toNat + s.LEN.toNat ≤ s.inst.BUF_BYTES →
      ∃ u, exec (.unpad chk) { t with SRC := s.DST, LEN := t.RLEN, DST := d } = .next u
        ∧ u.ERR = 0 ∧ u.RLEN = s.LEN ∧ ∀ j, j < s.LEN.toNat → bufByte u (d.toNat + j) = inByte s j

/-- R115: neither mode is injective, lenient and strict differ on 41 42 02, and which sequences pad makes. -/
def Obligations.PaddedSequencesAreThoseStrictUnpadAccepts : Prop :=
  unpadBytes [0x41, 0x42, 0x02] .lenient = .ok [0x41] ∧ unpadBytes [0x41, 0x42, 0x02] .strict = .error .badPadding
    ∧ unpadBytes [0x41, 0x01] .lenient = .ok [0x41]
    ∧ unpadBytes [0x41, 0x01] .strict = .ok [0x41] ∧ unpadBytes [0x41, 0x02, 0x02] .strict = .ok [0x41]
    ∧ ∀ (x : List Byte) (b : Nat), 1 ≤ b → b ≤ 255 →
      ((∃ y, x = padBytes y b)
        ↔ (∃ y, unpadBytes x .strict = .ok y) ∧ x.length % b = 0 ∧ countOf x.length (fun j => x.getD j 0) ≤ b)

/-- R122: ECB is deterministic block by block, both ways. -/
def Obligations.EcbBlocksDependOnTheirOwnBlock : Prop :=
  ∀ (p : Params) (k x : List Byte), p.legal = true → k.length = p.KLEN → x.length % p.B = 0 →
    (∀ i, i < x.length / p.B →
        blk p.B (ecbEncrypt p k x) i = encryptBlock p k (blk p.B x i)
        ∧ blk p.B (ecbDecrypt p k x) i = decryptBlock p k (blk p.B x i))
    ∧ ∀ i j, i < x.length / p.B → j < x.length / p.B →
        (blk p.B x i = blk p.B x j ↔ blk p.B (ecbEncrypt p k x) i = blk p.B (ecbEncrypt p k x) j)
        ∧ (blk p.B x i = blk p.B x j ↔ blk p.B (ecbDecrypt p k x) i = blk p.B (ecbDecrypt p k x) j)

/-- R123: ECB round trip, as functions and as two commands. -/
def Obligations.EcbRoundTripRestoresInput : Prop :=
  (∀ (p : Params) (k x : List Byte), p.legal = true → k.length = p.KLEN → x.length % p.B = 0 →
      ecbDecrypt p k (ecbEncrypt p k x) = x ∧ ecbEncrypt p k (ecbDecrypt p k x) = x)
    ∧ ∀ (s t : State) (d : Word), s.inst.legal = true → keyIvSized s →
      exec .ecbEnc s = .next t → t.ERR = 0 → d.toNat + s.LEN.toNat ≤ s.inst.BUF_BYTES →
      ∃ u, exec .ecbDec { t with SRC := s.DST, LEN := t.RLEN, DST := d } = .next u
        ∧ u.ERR = 0 ∧ u.RLEN = s.LEN ∧ ∀ j, j < s.LEN.toNat → bufByte u (d.toNat + j) = inByte s j

/-- R134: CBC round trip, as functions and as two commands, in either padding mode. -/
def Obligations.CbcRoundTripRestoresInput : Prop :=
  (∀ (p : Params) (k iv x : List Byte) (chk : PadCheck), p.legal = true → k.length = p.KLEN → iv.length = p.B →
      cbcDecrypt p k iv (cbcEncrypt p k iv x) chk = .ok x)
    ∧ ∀ (s t : State) (chk : PadCheck) (d : Word), s.inst.legal = true → keyIvSized s →
      exec .cbcEnc s = .next t → t.ERR = 0 → d.toNat + s.LEN.toNat ≤ s.inst.BUF_BYTES →
      ∃ u, exec (.cbcDec chk) { t with SRC := s.DST, LEN := t.RLEN, DST := d } = .next u
        ∧ u.ERR = 0 ∧ u.RLEN = s.LEN ∧ ∀ j, j < s.LEN.toNat → bufByte u (d.toNat + j) = inByte s j

/-- R135: CBC of the empty input is one padding block, and decrypts to nothing. -/
def Obligations.CbcOfEmptyInputIsOneBlock : Prop :=
  ∀ (s : State) (chk : PadCheck) (d : Word), s.inst.legal = true → keyIvSized s → keyValid s = true → ivValid s = true →
    s.LEN = 0 → sourceFits s → s.DST.toNat + s.inst.B ≤ s.inst.BUF_BYTES → d.toNat ≤ s.inst.BUF_BYTES →
    ∃ t, exec .cbcEnc s = .next t ∧ t.ERR = 0 ∧ t.RLEN.toNat = s.inst.B
      ∧ memRead t s.DST.toNat s.inst.B
          = encryptBlock s.inst s.KEY (xorBytes (List.replicate s.inst.B (BitVec.ofNat 8 s.inst.B)) s.IV)
      ∧ ∃ u, exec (.cbcDec chk) { t with SRC := s.DST, LEN := t.RLEN, DST := d } = .next u ∧ u.ERR = 0 ∧ u.RLEN = 0

/-- R133: block i of CBC encryption needs C_(i-1); block i of decryption needs only C_i and C_(i-1); the two ways a host recovers it. -/
def Obligations.CbcBlockNeedsTwoCiphertextBlocks : Prop :=
  (∀ (p : Params) (k iv x : List Byte) (i : Nat), p.legal = true → k.length = p.KLEN → iv.length = p.B →
    i < (padBytes x p.B).length / p.B →
    blk p.B (cbcEncrypt p k iv x) i
      = encryptBlock p k (xorBytes (blk p.B (padBytes x p.B) i) (if i = 0 then iv else blk p.B (cbcEncrypt p k iv x) (i - 1))))
  ∧ ∀ (p : Params) (k iv y : List Byte) (i : Nat), p.legal = true → k.length = p.KLEN → iv.length = p.B →
    y.length % p.B = 0 → i < y.length / p.B →
    let before := if i = 0 then iv else blk p.B y (i - 1)
    let plain := xorBytes (decryptBlock p k (blk p.B y i)) before
    blk p.B (cbcPlain p k iv y) i = plain
    ∧ xorBytes (ecbDecrypt p k (blk p.B y i)) before = plain
    ∧ cbcDecrypt p k before (blk p.B y i) .lenient
        = if countOf p.B (fun j => plain.getD j 0) ≤ p.B then .ok (plain.take (p.B - countOf p.B (fun j => plain.getD j 0)))
          else .error .badPadding

/-- R136: diffusion, with its hypotheses (a) and (b), and why (b) is needed. -/
def Obligations.CbcDiffusion : Prop :=
  (∀ (p : Params) (k iv x x' : List Byte) (i : Nat), p.legal = true → k.length = p.KLEN → iv.length = p.B →
      x.length = x'.length → i < (padBytes x p.B).length / p.B →
      blk p.B (padBytes x p.B) i ≠ blk p.B (padBytes x' p.B) i →
      ((∀ j, j < i → blk p.B (padBytes x p.B) j = blk p.B (padBytes x' p.B) j) →
        (∀ j, j < i → blk p.B (cbcEncrypt p k iv x) j = blk p.B (cbcEncrypt p k iv x') j)
        ∧ blk p.B (cbcEncrypt p k iv x) i ≠ blk p.B (cbcEncrypt p k iv x') i)
      ∧ ((∀ j, j < (padBytes x p.B).length / p.B → j ≠ i →
            blk p.B (padBytes x p.B) j = blk p.B (padBytes x' p.B) j) →
        ∀ j, i ≤ j → j < (padBytes x p.B).length / p.B →
          blk p.B (cbcEncrypt p k iv x) j ≠ blk p.B (cbcEncrypt p k iv x') j))
    ∧ ∃ (p : Params) (k iv x x' : List Byte), p.legal = true ∧ k.length = p.KLEN ∧ iv.length = p.B ∧ x.length = x'.length
      ∧ blk p.B (padBytes x p.B) 0 ≠ blk p.B (padBytes x' p.B) 0
      ∧ 1 < (padBytes x p.B).length / p.B
      ∧ blk p.B (cbcEncrypt p k iv x) 1 = blk p.B (cbcEncrypt p k iv x') 1

/-- R98: the output length of each command that succeeds, and its bounds. -/
def Obligations.OutputLengths : Prop :=
  ∀ (i : Instr) (s t : State), s.inst.legal = true → keyIvSized s → exec i s = .next t → t.ERR = 0 →
    (match i with
      | .pad pbs => t.RLEN.toNat = s.LEN.toNat + (pbs.toNat - s.LEN.toNat % pbs.toNat)
      | .unpad _ => t.RLEN.toNat + countOf s.LEN.toNat (inByte s) = s.LEN.toNat
      | .ecbEnc => t.RLEN = s.LEN
      | .ecbDec => t.RLEN = s.LEN
      | .cbcEnc => t.RLEN.toNat = s.LEN.toNat + (s.inst.B - s.LEN.toNat % s.inst.B)
      | .cbcDec _ => t.RLEN.toNat + countOf s.LEN.toNat (plainByte s) = s.LEN.toNat)
    ∧ t.RLEN.toNat ≤ s.LEN.toNat + 255 ∧ s.DST.toNat + t.RLEN.toNat ≤ s.inst.BUF_BYTES

/-- R101: the result of a command is a function of its operands alone; no state carries over from earlier commands. -/
def Obligations.ResultDependsOnOperandsOnly : Prop :=
  ∀ (i : Instr) (s s' t t' : State), s.inst.legal = true → s'.inst = s.inst →
    s'.SRC = s.SRC → s'.LEN = s.LEN → s'.DST = s.DST →
    s'.KEY = s.KEY → s'.KEYM = s.KEYM → s'.IV = s.IV → s'.IVM = s.IVM →
    (∀ j, j < s.LEN.toNat → inByte s' j = inByte s j) →
    exec i s = .next t → exec i s' = .next t' →
    t'.ERR = t.ERR ∧ t'.RLEN = t.RLEN
    ∧ ∀ j, j < t.RLEN.toNat → bufByte t' (s.DST.toNat + j) = bufByte t (s.DST.toNat + j)

/-- R60: overlap does no harm: the output is the same wherever it is put. -/
def Obligations.OutputDoesNotDependOnOverlap : Prop :=
  ∀ (i : Instr) (s t t' : State) (d : Word), s.inst.legal = true →
    exec i s = .next t → exec i { s with DST := d } = .next t' → t.ERR = 0 → t'.ERR = 0 →
    t'.RLEN = t.RLEN ∧ ∀ j, j < t.RLEN.toNat → bufByte t' (d.toNat + j) = bufByte t (s.DST.toNat + j)

/-! ### The host language -/

/-- R78: `rd` loads the data or stops the program with "bus error"; `rdx` never stops it; each of `rd`, `rdx`, `wr` makes its one access.
The host language stands outside State, in a state of its own (log 16). -/
def Obligations.HostReadStopsOnlyOnError : Prop :=
  ∀ (h : HostState) (s : State) (w : WordAddr) (r : Fin 8) (v : Word), h.stopped = none → h.regs.length = 8 →
    (refused s (.rd w) →
      (hostInstrStep (.rd w r) h s).1.stopped = some .busError ∧ (hostInstrStep (.rd w r) h s).1.regs = h.regs)
    ∧ (∀ d, ¬ refused s (.rd w) → (hostRead s w).resp = some (.okRead d) →
        (hostInstrStep (.rd w r) h s).1.stopped = none ∧ (hostInstrStep (.rd w r) h s).1.regs.getD r.val 0 = d)
    ∧ (hostInstrStep (.rdx w) h s).1.stopped = none ∧ (hostInstrStep (.rdx w) h s).1.regs = h.regs
    ∧ (hostInstrStep (.rd w r) h s).2 = hostAccess s (.rd w)
    ∧ (hostInstrStep (.rdx w) h s).2 = hostAccess s (.rd w) ∧ (hostInstrStep (.wr w v) h s).2 = hostAccess s (.wr w v)
end

