-- ==== Sys2Proof/Laws/Bytes.lean ====
section
/-! SUPPORT. Byte sequences, blocks, padding and the chaining loops: one spec lemma for each function. -/

namespace Sys2Proof.Machine

open Sys2Proof

/-! ### XOR -/

@[simp] theorem length_xorBytes (a b : List Byte) : (xorBytes a b).length = min a.length b.length := by simp [xorBytes]

/-- XOR with the same bytes twice gives the first operand back. -/
theorem xorBytes_xorBytes_cancel (a b : List Byte) (h : a.length = b.length) : xorBytes (xorBytes a b) b = a := by
  apply List.ext_getElem
  · simp [h]
  · intro i h1 h2
    simp [xorBytes]

theorem xorBytes_comm (a b : List Byte) : xorBytes a b = xorBytes b a := by
  simp only [xorBytes]
  rw [List.zipWith_comm]
  congr 1
  funext x y
  exact BitVec.xor_comm y x

theorem getD_xorBytes (a b : List Byte) (i : Nat) (ha : i < a.length) (hb : i < b.length) :
    (xorBytes a b).getD i 0 = a.getD i 0 ^^^ b.getD i 0 := by
  rw [List.getD_eq_getElem _ _ (by simp; omega), List.getD_eq_getElem _ _ ha, List.getD_eq_getElem _ _ hb]
  simp [xorBytes]

/-! ### Blocks -/

theorem length_blk {B : Nat} {y : List Byte} {i : Nat} (h : (i + 1) * B ≤ y.length) : (blk B y i).length = B := by
  simp only [blk, List.length_take, List.length_drop]
  have : (i + 1) * B = i * B + B := by ring
  omega

/-- A block that lies inside the sequence. -/
theorem succ_mul_le_of_lt_div {B n i : Nat} (h : i < n / B) : (i + 1) * B ≤ n :=
  le_trans (Nat.mul_le_mul_right B h) (Nat.div_mul_le_self n B)

theorem getD_blk {B : Nat} {y : List Byte} {i j : Nat} (hj : j < B) (h : (i + 1) * B ≤ y.length) :
    (blk B y i).getD j 0 = y.getD (i * B + j) 0 := by
  have e : (i + 1) * B = i * B + B := by ring
  rw [List.getD_eq_getElem _ _ (by rw [length_blk h]; exact hj), List.getD_eq_getElem _ _ (by omega)]
  simp [blk]

@[simp] theorem length_blocksOf (B : Nat) (y : List Byte) : (blocksOf B y).length = y.length / B := by simp [blocksOf]

theorem getElem_blocksOf (B : Nat) (y : List Byte) (i : Nat) (h : i < (blocksOf B y).length) :
    (blocksOf B y)[i] = blk B y i := by simp [blocksOf]

/-- Every block is exactly B bytes (40_command_execution.md R96). -/
theorem length_of_mem_blocksOf {B : Nat} {y b : List Byte} (h : b ∈ blocksOf B y) : b.length = B := by
  simp only [blocksOf, List.mem_map, List.mem_range] at h
  obtain ⟨i, hi, rfl⟩ := h
  exact length_blk (succ_mul_le_of_lt_div hi)

@[simp] theorem blocksOf_nil (B : Nat) : blocksOf B [] = [] := by simp [blocksOf]

theorem blocksOf_append {B : Nat} (hB : 0 < B) {p : List Byte} (hp : p.length = B) (y : List Byte) :
    blocksOf B (p ++ y) = p :: blocksOf B y := by
  have hd : (p ++ y).length / B = y.length / B + 1 := by
    rw [List.length_append, hp, Nat.add_div_left _ hB]
  apply List.ext_getElem
  · simp [-List.length_append, hd]
  · intro i h1 h2
    rw [getElem_blocksOf]
    cases i with
    | zero => simp [blk, hp]
    | succ i =>
      rw [List.getElem_cons_succ, getElem_blocksOf]
      simp only [blk]
      have : (i + 1) * B = p.length + i * B := by rw [hp]; ring
      rw [this, List.drop_append, List.drop_eq_nil_of_le (by omega)]
      simp

/-- Splitting a concatenation of blocks gives the blocks. -/
theorem blocksOf_flatten {B : Nat} (hB : 0 < B) (bs : List (List Byte)) (h : ∀ b ∈ bs, b.length = B) :
    blocksOf B bs.flatten = bs := by
  induction bs with
  | nil => simp
  | cons b rest ih =>
    rw [List.flatten_cons, blocksOf_append hB (h b List.mem_cons_self),
      ih fun c hc => h c (List.mem_cons_of_mem _ hc)]

theorem length_flatten_blocks {B : Nat} (bs : List (List Byte)) (h : ∀ b ∈ bs, b.length = B) :
    bs.flatten.length = bs.length * B := by
  induction bs with
  | nil => simp
  | cons b rest ih =>
    rw [List.flatten_cons, List.length_append, h b List.mem_cons_self,
      ih fun c hc => h c (List.mem_cons_of_mem _ hc), List.length_cons]
    ring

/-- Concatenating the blocks of an aligned sequence gives the sequence. -/
theorem flatten_blocksOf {B : Nat} (hB : 0 < B) (y : List Byte) (h : y.length % B = 0) : (blocksOf B y).flatten = y := by
  obtain ⟨n, hn⟩ : ∃ n, y.length = n * B := ⟨y.length / B, (Nat.div_mul_cancel (Nat.dvd_of_mod_eq_zero h)).symm⟩
  clear h
  induction n generalizing y with
  | zero =>
    have : y = [] := List.length_eq_zero_iff.1 (by simpa using hn)
    simp [this]
  | succ n ih =>
    have e : (n + 1) * B = B + n * B := by ring
    have h1 : (y.take B).length = B := by simp; omega
    have h2 : (y.drop B).length = n * B := by simp; omega
    conv_lhs => rw [← List.take_append_drop B y]
    rw [blocksOf_append hB h1, List.flatten_cons, ih _ h2, List.take_append_drop]

/-- Block i of a concatenation of blocks. -/
theorem blk_flatten {B : Nat} (hB : 0 < B) (bs : List (List Byte)) (h : ∀ b ∈ bs, b.length = B) (i : Nat)
    (hi : i < bs.length) : blk B bs.flatten i = bs[i] := by
  have e := blocksOf_flatten hB bs h
  have : i < (blocksOf B bs.flatten).length := by rw [e]; exact hi
  rw [← getElem_blocksOf _ _ _ this]
  simp [e]

/-- A sequence is decided by its bytes. -/
theorem ext_getD {a b : List Byte} (hl : a.length = b.length) (h : ∀ i, i < a.length → a.getD i 0 = b.getD i 0) : a = b := by
  apply List.ext_getElem hl
  intro i h1 h2
  have := h i h1
  rwa [List.getD_eq_getElem _ _ h1, List.getD_eq_getElem _ _ h2] at this

/-! ### ECB -/

theorem length_mapBlocks {B : Nat} {f : List Byte → List Byte} (hf : ∀ b : List Byte, b.length = B → (f b).length = B)
    (x : List Byte) : (mapBlocks B f x).length = x.length / B * B := by
  rw [mapBlocks, length_flatten_blocks (B := B)]
  · simp
  · intro b hb
    obtain ⟨c, hc, rfl⟩ := List.mem_map.1 hb
    exact hf c (length_of_mem_blocksOf hc)

/-- Block i of the output is f of block i of the input. -/
theorem blk_mapBlocks {B : Nat} (hB : 0 < B) {f : List Byte → List Byte}
    (hf : ∀ b : List Byte, b.length = B → (f b).length = B) (x : List Byte) (i : Nat) (hi : i < x.length / B) :
    blk B (mapBlocks B f x) i = f (blk B x i) := by
  rw [mapBlocks, blk_flatten hB]
  · simp [blocksOf]
  · intro b hb
    obtain ⟨c, hc, rfl⟩ := List.mem_map.1 hb
    exact hf c (length_of_mem_blocksOf hc)
  · simpa using hi

/-- Mapping g after f over blocks, when g undoes f on blocks, restores an aligned sequence. -/
theorem mapBlocks_mapBlocks {B : Nat} (hB : 0 < B) {f g : List Byte → List Byte}
    (hf : ∀ b : List Byte, b.length = B → (f b).length = B) (hgf : ∀ b : List Byte, b.length = B → g (f b) = b)
    (x : List Byte) (hx : x.length % B = 0) : mapBlocks B g (mapBlocks B f x) = x := by
  have hb : blocksOf B (mapBlocks B f x) = (blocksOf B x).map f := by
    rw [mapBlocks, blocksOf_flatten hB]
    intro b hb
    obtain ⟨c, hc, rfl⟩ := List.mem_map.1 hb
    exact hf c (length_of_mem_blocksOf hc)
  have hm : ((blocksOf B x).map f).map g = blocksOf B x := by
    rw [List.map_map]
    conv_rhs => rw [← List.map_id (blocksOf B x)]
    exact List.map_congr_left fun c hc => hgf c (length_of_mem_blocksOf hc)
  conv_lhs => rw [mapBlocks, hb, hm]
  exact flatten_blocksOf hB x hx

/-! ### Padding -/

@[simp] theorem length_padBytes (x : List Byte) (b : Nat) : (padBytes x b).length = x.length + (b - x.length % b) := by
  simp [padBytes, repBytes]

/-- The padded length is a multiple of the block size (41_padding.md R110). -/
theorem length_padBytes_mod {b : Nat} (hb : 0 < b) (x : List Byte) : (padBytes x b).length % b = 0 := by
  rw [length_padBytes]
  have h := Nat.mod_lt x.length hb
  have e : x.length + (b - x.length % b) = x.length - x.length % b + b := by
    have := Nat.mod_le x.length b
    omega
  rw [e, Nat.add_mod_right]
  exact Nat.mod_eq_zero_of_dvd (Nat.dvd_sub_mod x.length)

theorem getD_padBytes_left (x : List Byte) (b i : Nat) (h : i < x.length) : (padBytes x b).getD i 0 = x.getD i 0 := by
  rw [padBytes, List.getD_append _ _ _ _ h]

theorem getD_padBytes_right (x : List Byte) (b i : Nat) (h1 : x.length ≤ i) (h2 : i < x.length + (b - x.length % b)) :
    (padBytes x b).getD i 0 = BitVec.ofNat 8 (b - x.length % b) := by
  rw [padBytes, List.getD_append_right _ _ _ _ h1, repBytes, List.getD_eq_getElem _ _ (by simp; omega)]
  simp

/-- The last byte as a position. -/
theorem paddingCount_eq (x : List Byte) : paddingCount x = (x.getD (x.length - 1) 0).toNat := by
  rw [paddingCount, List.getLastD_eq_getLast?, List.getLast?_eq_getElem?]
  rw [List.getD_eq_getElem?_getD]

/-- Strict unpad succeeds exactly when 1 ≤ V ≤ L and the last V bytes are V; lenient unpad exactly when V ≤ L (R111). -/
theorem unpadBytes_ok_iff (x : List Byte) (chk : PadCheck) (out : List Byte) :
    unpadBytes x chk = .ok out ↔
      (paddingCount x ≤ x.length ∧ out = x.take (x.length - paddingCount x) ∧
        (chk = .strict → paddingCount x ≠ 0 ∧
          ∀ j, x.length - paddingCount x ≤ j → j < x.length → (x.getD j 0).toNat = paddingCount x)) := by
  have hall : ((x.drop (x.length - paddingCount x)).all fun v => v.toNat == paddingCount x) = true ↔
      ∀ j, x.length - paddingCount x ≤ j → j < x.length → (x.getD j 0).toNat = paddingCount x := by
    rw [List.all_eq_true]
    constructor
    · intro h j h1 h2
      rw [List.getD_eq_getElem _ _ h2]
      have hm : x[j] ∈ x.drop (x.length - paddingCount x) := by
        rw [List.mem_drop_iff_getElem]
        exact ⟨j - (x.length - paddingCount x), by omega, by congr 1; omega⟩
      simpa using h _ hm
    · intro h v hv
      rw [List.mem_drop_iff_getElem] at hv
      obtain ⟨i, hi, rfl⟩ := hv
      have := h (x.length - paddingCount x + i) (by omega) (by omega)
      rw [List.getD_eq_getElem _ _ (by omega)] at this
      simpa using this
  unfold unpadBytes
  by_cases hl : x.length < paddingCount x
  · simp [hl, Nat.not_le.2 hl]
  · rw [if_neg hl]
    cases chk with
    | lenient => simp [Nat.not_lt.1 hl, eq_comm]
    | strict =>
      by_cases hz : paddingCount x = 0
      · simp [hz]
      · by_cases ha : ((x.drop (x.length - paddingCount x)).all fun v => v.toNat == paddingCount x) = true
        · simp only [if_neg hz, if_pos ha, Except.ok.injEq]
          constructor
          · rintro rfl
            exact ⟨Nat.not_lt.1 hl, rfl, fun _ => ⟨hz, hall.1 ha⟩⟩
          · rintro ⟨_, rfl, _⟩
            rfl
        · simp only [if_neg hz, if_neg ha, reduceCtorEq, false_iff, forall_const]
          rintro ⟨_, _, h⟩
          exact ha (hall.2 h.2)

/-- unpad fails only with BAD_PADDING (60_exceptions.md R147). -/
theorem unpadBytes_error (x : List Byte) (chk : PadCheck) (e : CmdError) (h : unpadBytes x chk = .error e) :
    e = .badPadding := by
  unfold unpadBytes at h
  split at h
  · cases h; rfl
  · cases chk with
    | lenient => cases h
    | strict =>
      simp only at h
      split at h
      · cases h; rfl
      · split at h
        · cases h
        · cases h; rfl

/-! ### CBC -/

@[simp] theorem length_cbcChain (f : List Byte → List Byte) (iv : List Byte) (ps : List (List Byte)) :
    (cbcChain f iv ps).length = ps.length := by
  induction ps generalizing iv with
  | nil => rfl
  | cons p rest ih => simp [cbcChain, ih]

@[simp] theorem length_cbcUnchain (f : List Byte → List Byte) (iv : List Byte) (cs : List (List Byte)) :
    (cbcUnchain f iv cs).length = cs.length := by
  induction cs generalizing iv with
  | nil => rfl
  | cons p rest ih => simp [cbcUnchain, ih]

/-- The recurrence C_i = E(P_i xor C_(i-1)), with C_(-1) = IV (43_cbc.md R130). -/
theorem getElem_cbcChain (f : List Byte → List Byte) (iv : List Byte) (ps : List (List Byte)) (i : Nat)
    (h : i < (cbcChain f iv ps).length) :
    (cbcChain f iv ps)[i] =
      f (xorBytes (ps[i]'(by simpa using h)) (if i = 0 then iv else (cbcChain f iv ps)[i - 1]'(by omega))) := by
  induction ps generalizing iv i with
  | nil => simp at h
  | cons p rest ih =>
    cases i with
    | zero => simp [cbcChain]
    | succ i =>
      simp only [cbcChain, List.getElem_cons_succ, Nat.add_one_ne_zero, if_false, Nat.add_sub_cancel]
      rw [ih]
      cases i with
      | zero => simp
      | succ i => simp

/-- P_i = D(C_i) xor C_(i-1), with C_(-1) = IV (R131, R133). -/
theorem getElem_cbcUnchain (f : List Byte → List Byte) (iv : List Byte) (cs : List (List Byte)) (i : Nat)
    (h : i < (cbcUnchain f iv cs).length) :
    (cbcUnchain f iv cs)[i] =
      xorBytes (f (cs[i]'(by simpa using h))) (if i = 0 then iv else cs[i - 1]'(by simp at h; omega)) := by
  induction cs generalizing iv i with
  | nil => simp at h
  | cons c rest ih =>
    cases i with
    | zero => simp [cbcUnchain]
    | succ i =>
      simp only [cbcUnchain, List.getElem_cons_succ, Nat.add_one_ne_zero, if_false, Nat.add_sub_cancel]
      rw [ih]
      cases i with
      | zero => simp
      | succ i => simp

theorem length_of_mem_cbcChain {B : Nat} {f : List Byte → List Byte}
    (hf : ∀ b : List Byte, b.length = B → (f b).length = B) {iv : List Byte} (hiv : iv.length = B)
    {ps : List (List Byte)} (hps : ∀ p ∈ ps, p.length = B) : ∀ c ∈ cbcChain f iv ps, c.length = B := by
  induction ps generalizing iv with
  | nil => simp [cbcChain]
  | cons p rest ih =>
    have h1 : (f (xorBytes p iv)).length = B := hf _ (by simp [hps p List.mem_cons_self, hiv])
    intro c hc
    rcases List.mem_cons.1 hc with rfl | hc
    · exact h1
    · exact ih h1 (fun q hq => hps q (List.mem_cons_of_mem _ hq)) c hc

theorem length_of_mem_cbcUnchain {B : Nat} {f : List Byte → List Byte}
    (hf : ∀ b : List Byte, b.length = B → (f b).length = B) {iv : List Byte} (hiv : iv.length = B)
    {cs : List (List Byte)} (hcs : ∀ c ∈ cs, c.length = B) : ∀ p ∈ cbcUnchain f iv cs, p.length = B := by
  induction cs generalizing iv with
  | nil => simp [cbcUnchain]
  | cons c rest ih =>
    intro p hp
    have hc := hcs c List.mem_cons_self
    rcases List.mem_cons.1 hp with rfl | hp
    · simp [hf c hc, hiv]
    · exact ih hc (fun q hq => hcs q (List.mem_cons_of_mem _ hq)) p hp

/-- Unchaining a chain gives the plaintext blocks back, when g undoes f on blocks. -/
theorem cbcUnchain_cbcChain {B : Nat} {f g : List Byte → List Byte}
    (hf : ∀ b : List Byte, b.length = B → (f b).length = B) (hgf : ∀ b : List Byte, b.length = B → g (f b) = b)
    {iv : List Byte} (hiv : iv.length = B) {ps : List (List Byte)} (hps : ∀ p ∈ ps, p.length = B) :
    cbcUnchain g iv (cbcChain f iv ps) = ps := by
  induction ps generalizing iv with
  | nil => rfl
  | cons p rest ih =>
    have hp := hps p List.mem_cons_self
    have hx : (xorBytes p iv).length = B := by simp [hp, hiv]
    simp only [cbcChain, cbcUnchain]
    rw [hgf _ hx, xorBytes_xorBytes_cancel _ _ (by rw [hp, hiv]), ih (hf _ hx) fun q hq => hps q (List.mem_cons_of_mem _ hq)]

end Sys2Proof.Machine
end

