-- ==== Sys2Proof/Laws/Cipher.lean ====
section
/-! SUPPORT. The raw ciphers: E and D keep the block length and undo each other on every legal instance (00_scope.md R8). -/

namespace Sys2Proof.Machine

open Sys2Proof

/-! ### AES-128: each layer and its inverse -/

theorem invSubByte_subByte : ∀ b : Byte, invSubByte (subByte b) = b := by decide +kernel

/-- A sequence of sixteen bytes, written out. -/
theorem exists_sixteen {x : List Byte} (h : x.length = 16) :
    ∃ a0 a1 a2 a3 a4 a5 a6 a7 a8 a9 b0 b1 b2 b3 b4 b5,
      x = [a0, a1, a2, a3, a4, a5, a6, a7, a8, a9, b0, b1, b2, b3, b4, b5] := by
  match x, h with
  | [a0, a1, a2, a3, a4, a5, a6, a7, a8, a9, b0, b1, b2, b3, b4, b5], _ =>
    exact ⟨a0, a1, a2, a3, a4, a5, a6, a7, a8, a9, b0, b1, b2, b3, b4, b5, rfl⟩

@[simp] theorem length_shiftRows (x : List Byte) : (shiftRows x).length = 16 := by simp [shiftRows]

@[simp] theorem length_invShiftRows (x : List Byte) : (invShiftRows x).length = 16 := by simp [invShiftRows]

theorem invShiftRows_shiftRows {x : List Byte} (h : x.length = 16) : invShiftRows (shiftRows x) = x := by
  obtain ⟨a0, a1, a2, a3, a4, a5, a6, a7, a8, a9, b0, b1, b2, b3, b4, b5, rfl⟩ := exists_sixteen h
  rfl

theorem xtime_xor (a b : Byte) : xtime (a ^^^ b) = xtime a ^^^ xtime b := by
  have h1 : (a ^^^ b) <<< 1 = (a <<< 1) ^^^ (b <<< 1) := BitVec.shiftLeft_xor_distrib a b 1
  simp only [xtime, h1, BitVec.getLsbD_xor]
  cases a.getLsbD 7 <;> cases b.getLsbD 7 <;> (simp [BitVec.xor_assoc]; try ac_rfl)

theorem ite_xor (p : Prop) [Decidable p] (a b : Byte) :
    (if p then a ^^^ b else 0) = (if p then a else 0) ^^^ (if p then b else 0) := by
  split <;> simp

theorem gmul_xor (c : Nat) (a b : Byte) : gmul c (a ^^^ b) = gmul c a ^^^ gmul c b := by
  simp only [gmul, xtime_xor, ite_xor]
  ac_rfl

/-- A row of the inverse matrix times a column of MixColumns, on one byte: the 4 by 4 products over GF(2^8). -/
def mixTerm (r c : Nat × Nat × Nat × Nat) (b : Byte) : Byte :=
  gmul r.1 (gmul c.1 b) ^^^ gmul r.2.1 (gmul c.2.1 b) ^^^ gmul r.2.2.1 (gmul c.2.2.1 b) ^^^ gmul r.2.2.2 (gmul c.2.2.2 b)

/-- A row applied to the four entries of a mixed column, gathered by the byte of the column. -/
theorem mixEntry_mixEntry (r0 r1 r2 r3 : Nat) (m : Nat × Nat × Nat × Nat) (n o q : Nat × Nat × Nat × Nat) (a b c d : Byte) :
    mixEntry r0 r1 r2 r3 (mixEntry m.1 m.2.1 m.2.2.1 m.2.2.2 a b c d) (mixEntry n.1 n.2.1 n.2.2.1 n.2.2.2 a b c d)
        (mixEntry o.1 o.2.1 o.2.2.1 o.2.2.2 a b c d) (mixEntry q.1 q.2.1 q.2.2.1 q.2.2.2 a b c d)
      = mixTerm (r0, r1, r2, r3) (m.1, n.1, o.1, q.1) a ^^^ mixTerm (r0, r1, r2, r3) (m.2.1, n.2.1, o.2.1, q.2.1) b
        ^^^ mixTerm (r0, r1, r2, r3) (m.2.2.1, n.2.2.1, o.2.2.1, q.2.2.1) c
        ^^^ mixTerm (r0, r1, r2, r3) (m.2.2.2, n.2.2.2, o.2.2.2, q.2.2.2) d := by
  simp only [mixEntry, mixTerm, gmul_xor]
  ac_rfl

/-- The columns of MixColumns' matrix and the rows of InvMixColumns'. -/
def mixCols : List (Nat × Nat × Nat × Nat) := [(2, 1, 1, 3), (3, 2, 1, 1), (1, 3, 2, 1), (1, 1, 3, 2)]
def invMixRows : List (Nat × Nat × Nat × Nat) := [(14, 11, 13, 9), (9, 14, 11, 13), (13, 9, 14, 11), (11, 13, 9, 14)]

/-- The inverse matrix times the matrix is the identity, checked on every byte. -/
theorem invMix_mix_identity : ∀ i < 4, ∀ j < 4, ∀ b : Byte,
    mixTerm (invMixRows.getD i default) (mixCols.getD j default) b = if i = j then b else 0 := by decide +kernel

/-- One row of InvMixColumns gives one byte of the column back. -/
theorem invMixRow_mixColumn (i : Nat) (hi : i < 4) (a b c d : Byte) :
    let r := invMixRows.getD i default
    mixEntry r.1 r.2.1 r.2.2.1 r.2.2.2 (mixEntry 2 3 1 1 a b c d) (mixEntry 1 2 3 1 a b c d) (mixEntry 1 1 2 3 a b c d)
        (mixEntry 3 1 1 2 a b c d)
      = [a, b, c, d].getD i 0 := by
  intro r
  refine (mixEntry_mixEntry r.1 r.2.1 r.2.2.1 r.2.2.2 (2, 3, 1, 1) (1, 2, 3, 1) (1, 1, 2, 3) (3, 1, 1, 2) a b c d).trans ?_
  have h0 : mixTerm r (2, 1, 1, 3) a = if i = 0 then a else 0 := invMix_mix_identity i hi 0 (by decide) a
  have h1 : mixTerm r (3, 2, 1, 1) b = if i = 1 then b else 0 := invMix_mix_identity i hi 1 (by decide) b
  have h2 : mixTerm r (1, 3, 2, 1) c = if i = 2 then c else 0 := invMix_mix_identity i hi 2 (by decide) c
  have h3 : mixTerm r (1, 1, 3, 2) d = if i = 3 then d else 0 := invMix_mix_identity i hi 3 (by decide) d
  rw [h0, h1, h2, h3]
  rcases (by omega : i = 0 ∨ i = 1 ∨ i = 2 ∨ i = 3) with rfl | rfl | rfl | rfl <;> simp

theorem invMixColumns_mixColumns (x : List Byte) : invMixColumns (mixColumns x) = x := by
  induction x using mixColumns.induct with
  | case1 a b c d rest ih =>
    simp only [mixColumns, invMixColumns, ih, List.cons.injEq, and_true]
    exact ⟨invMixRow_mixColumn 0 (by decide) a b c d, invMixRow_mixColumn 1 (by decide) a b c d,
      invMixRow_mixColumn 2 (by decide) a b c d, invMixRow_mixColumn 3 (by decide) a b c d⟩
  | case2 x hx =>
    rw [mixColumns]
    · rw [invMixColumns]
      · exact hx
    · exact hx

@[simp] theorem length_mixColumns (x : List Byte) : (mixColumns x).length = x.length := by
  induction x using mixColumns.induct with
  | case1 a b c d rest ih => simp [mixColumns, ih]
  | case2 x hx => rw [mixColumns]; exact hx

@[simp] theorem length_invMixColumns (x : List Byte) : (invMixColumns x).length = x.length := by
  induction x using invMixColumns.induct with
  | case1 a b c d rest ih => simp [invMixColumns, ih]
  | case2 x hx => rw [invMixColumns]; exact hx

/-! ### AES-128: round keys, rounds, blocks -/

theorem length_nextRoundKey (rcon : Byte) {k : List Byte} (h : k.length = 16) : (nextRoundKey rcon k).length = 16 := by
  simp [nextRoundKey, h]

theorem length_of_mem_roundKeys (rcons : List Byte) {k : List Byte} (h : k.length = 16) :
    ∀ r ∈ roundKeys rcons k, r.length = 16 := by
  induction rcons generalizing k with
  | nil => simp [roundKeys]
  | cons rcon rest ih =>
    intro r hr
    rcases List.mem_cons.1 hr with rfl | hr
    · exact length_nextRoundKey rcon h
    · exact ih (length_nextRoundKey rcon h) r hr

/-- The inverse of the three layers before a round key is added. -/
theorem invLayers_layers {x k : List Byte} (hx : x.length = 16) (hk : k.length = 16) :
    (invShiftRows (invMixColumns (xorBytes (xorBytes (mixColumns (shiftRows (x.map subByte))) k) k))).map invSubByte = x := by
  rw [xorBytes_xorBytes_cancel _ _ (by simp [hk]), invMixColumns_mixColumns, invShiftRows_shiftRows (by simpa using hx),
    List.map_map]
  exact (List.map_congr_left fun b _ => invSubByte_subByte b).trans (List.map_id x)

theorem invLastLayers_lastLayers {x k : List Byte} (hx : x.length = 16) (hk : k.length = 16) :
    (invShiftRows (xorBytes (xorBytes (shiftRows (x.map subByte)) k) k)).map invSubByte = x := by
  rw [xorBytes_xorBytes_cancel _ _ (by simp [hk]), invShiftRows_shiftRows (by simpa using hx), List.map_map]
  exact (List.map_congr_left fun b _ => invSubByte_subByte b).trans (List.map_id x)

theorem length_aesRounds (keys : List (List Byte)) (hk : ∀ r ∈ keys, r.length = 16) {x : List Byte} (hx : x.length = 16) :
    (aesRounds keys x).length = 16 := by
  match keys with
  | [] => exact hx
  | [k] => simp [aesRounds, hk k (by simp)]
  | k :: k' :: rest =>
    exact length_aesRounds (k' :: rest) (fun r hr => hk r (by simp [List.mem_cons.1 hr])) (by simp [hk k (by simp)])

theorem length_aesInvRounds (keys : List (List Byte)) {y : List Byte} (hy : y.length = 16) :
    (aesInvRounds keys y).length = 16 := by
  match keys with
  | [] => exact hy
  | [k] => simp [aesInvRounds]
  | k :: k' :: rest => simp [aesInvRounds]

theorem aesInvRounds_aesRounds (keys : List (List Byte)) (hk : ∀ r ∈ keys, r.length = 16) {x : List Byte}
    (hx : x.length = 16) : aesInvRounds keys (aesRounds keys x) = x := by
  match keys with
  | [] => rfl
  | [k] => exact invLastLayers_lastLayers hx (hk k (by simp))
  | k :: k' :: rest =>
    have hk' := hk k (by simp)
    have ih := aesInvRounds_aesRounds (k' :: rest) (fun r hr => hk r (by simp [List.mem_cons.1 hr]))
      (x := xorBytes (mixColumns (shiftRows (x.map subByte))) k) (by simp [hk'])
    rw [aesRounds, aesInvRounds, ih]
    · exact invLayers_layers hx hk'
    · simp
    · simp

theorem length_aesEncrypt {k x : List Byte} (hk : k.length = 16) (hx : x.length = 16) : (aesEncrypt k x).length = 16 :=
  length_aesRounds _ (length_of_mem_roundKeys _ hk) (by simp [hk, hx])

theorem length_aesDecrypt {k y : List Byte} (hk : k.length = 16) (hy : y.length = 16) : (aesDecrypt k y).length = 16 := by
  simp [aesDecrypt, length_aesInvRounds _ hy, hk]

theorem aesDecrypt_aesEncrypt {k x : List Byte} (hk : k.length = 16) (hx : x.length = 16) :
    aesDecrypt k (aesEncrypt k x) = x := by
  rw [aesDecrypt, aesEncrypt, aesInvRounds_aesRounds _ (length_of_mem_roundKeys _ hk) (by simp [hk, hx]),
    xorBytes_xorBytes_cancel _ _ (by rw [hk, hx])]

/-! ### TOY, and the external cipher -/

theorem exists_four {x : List Byte} (h : x.length = 4) : ∃ a b c d, x = [a, b, c, d] := by
  match x, h with
  | [a, b, c, d], _ => exact ⟨a, b, c, d, rfl⟩

theorem toyDecrypt_toyEncrypt {k x : List Byte} (hk : k.length = 4) (hx : x.length = 4) :
    toyDecrypt k (toyEncrypt k x) = x := by
  obtain ⟨a, b, c, d, rfl⟩ := exists_four hx
  obtain ⟨e, f, g, h, rfl⟩ := exists_four hk
  simp [toyDecrypt, toyEncrypt, List.range_succ]

theorem bytesFn_ofFn {n : Nat} (f : Fin n → Byte) : bytesFn n (List.ofFn f) = f := by
  funext i
  simp [bytesFn]

theorem ofFn_bytesFn {n : Nat} {x : List Byte} (h : x.length = n) : List.ofFn (bytesFn n x) = x := by
  apply List.ext_getElem
  · simp [h]
  · intro i h1 h2
    simp [bytesFn, h2]

theorem externalDecrypt_externalEncrypt (n : Nat) {B KLEN : Nat} (k : List Byte) {x : List Byte} (hx : x.length = B) :
    externalDecrypt n B KLEN k (externalEncrypt n B KLEN k x) = x := by
  rw [externalDecrypt, externalEncrypt, bytesFn_ofFn, Equiv.symm_apply_apply, ofFn_bytesFn hx]

/-! ### Every legal instance -/

/-- What a legal instance's ranges say. -/
theorem legal_bounds {p : Params} (h : p.legal = true) :
    1 ≤ p.B ∧ p.B ≤ 255 ∧ 1 ≤ p.KLEN ∧ p.KLEN ≤ 255 ∧ 4 ≤ p.BUF_BYTES ∧ p.BUF_BYTES ≤ 2 ^ 20 ∧ p.BUF_BYTES % 4 = 0
      ∧ p.cipher.fits p.B p.KLEN = true := by
  simpa [Params.legal, and_assoc] using h

theorem length_encryptBlock {p : Params} (h : p.legal = true) {k x : List Byte} (hk : k.length = p.KLEN)
    (hx : x.length = p.B) : (encryptBlock p k x).length = p.B := by
  obtain ⟨-, -, -, -, -, -, -, hf⟩ := legal_bounds h
  cases hc : p.cipher <;> simp only [hc, RawCipher.fits, Bool.and_eq_true, beq_iff_eq] at hf <;> simp only [encryptBlock, hc]
  · rw [hf.1]; exact length_aesEncrypt (hk.trans hf.2) (hx.trans hf.1)
  · simp [toyEncrypt, hf.1]
  · exact hx
  · simp [externalEncrypt]

theorem length_decryptBlock {p : Params} (h : p.legal = true) {k y : List Byte} (hk : k.length = p.KLEN)
    (hy : y.length = p.B) : (decryptBlock p k y).length = p.B := by
  obtain ⟨-, -, -, -, -, -, -, hf⟩ := legal_bounds h
  cases hc : p.cipher <;> simp only [hc, RawCipher.fits, Bool.and_eq_true, beq_iff_eq] at hf <;> simp only [decryptBlock, hc]
  · rw [hf.1]; exact length_aesDecrypt (hk.trans hf.2) (hy.trans hf.1)
  · simp [toyDecrypt, hf.1]
  · exact hy
  · simp [externalDecrypt]

/-- CipherInverse (00_scope.md R8): D k (E k x) = x. -/
theorem decryptBlock_encryptBlock {p : Params} (h : p.legal = true) {k x : List Byte} (hk : k.length = p.KLEN)
    (hx : x.length = p.B) : decryptBlock p k (encryptBlock p k x) = x := by
  obtain ⟨-, -, -, -, -, -, -, hf⟩ := legal_bounds h
  cases hc : p.cipher <;> simp only [hc, RawCipher.fits, Bool.and_eq_true, beq_iff_eq] at hf <;>
    simp only [encryptBlock, decryptBlock, hc]
  · exact aesDecrypt_aesEncrypt (hk.trans hf.2) (hx.trans hf.1)
  · exact toyDecrypt_toyEncrypt (hk.trans hf.2) (hx.trans hf.1)
  · exact externalDecrypt_externalEncrypt _ _ hx

/-- E k is injective on blocks (R8). -/
theorem encryptBlock_injective {p : Params} (h : p.legal = true) {k x y : List Byte} (hk : k.length = p.KLEN)
    (hx : x.length = p.B) (hy : y.length = p.B) (he : encryptBlock p k x = encryptBlock p k y) : x = y := by
  rw [← decryptBlock_encryptBlock h hk hx, he, decryptBlock_encryptBlock h hk hy]

/-- E k (D k y) = y, since E k is injective on the finite set of blocks (R8). -/
theorem encryptBlock_decryptBlock {p : Params} (h : p.legal = true) {k y : List Byte} (hk : k.length = p.KLEN)
    (hy : y.length = p.B) : encryptBlock p k (decryptBlock p k y) = y := by
  let e : List.Vector Byte p.B → List.Vector Byte p.B := fun v => ⟨encryptBlock p k v.1, length_encryptBlock h hk v.2⟩
  have hinj : Function.Injective e := fun v w hvw =>
    Subtype.ext (encryptBlock_injective h hk v.2 w.2 (congrArg Subtype.val hvw))
  obtain ⟨v, hv⟩ := (Finite.injective_iff_surjective.1 hinj) ⟨y, hy⟩
  have hv' : encryptBlock p k v.1 = y := congrArg Subtype.val hv
  rw [← hv', decryptBlock_encryptBlock h hk v.2]

/-- D k is injective on blocks. -/
theorem decryptBlock_injective {p : Params} (h : p.legal = true) {k x y : List Byte} (hk : k.length = p.KLEN)
    (hx : x.length = p.B) (hy : y.length = p.B) (he : decryptBlock p k x = decryptBlock p k y) : x = y := by
  rw [← encryptBlock_decryptBlock h hk hx, he, encryptBlock_decryptBlock h hk hy]

end Sys2Proof.Machine
end

