-- ==== Sys2Proof/Laws/State.lean ====
section
/-! SUPPORT. One lemma per field of State per update: what each named operation leaves in each field. -/

namespace Sys2Proof.Machine

open Sys2Proof

variable (s : State)

/-! ### storeKey -/

@[simp] theorem storeKey_IE (w : Nat) (v : Word) : (storeKey s w v).IE = s.IE := rfl
@[simp] theorem storeKey_BUSY (w : Nat) (v : Word) : (storeKey s w v).BUSY = s.BUSY := rfl
@[simp] theorem storeKey_DONE (w : Nat) (v : Word) : (storeKey s w v).DONE = s.DONE := rfl
@[simp] theorem storeKey_ERR (w : Nat) (v : Word) : (storeKey s w v).ERR = s.ERR := rfl
@[simp] theorem storeKey_HERR (w : Nat) (v : Word) : (storeKey s w v).HERR = s.HERR := rfl
@[simp] theorem storeKey_CMDL (w : Nat) (v : Word) : (storeKey s w v).CMDL = s.CMDL := rfl
@[simp] theorem storeKey_SRC (w : Nat) (v : Word) : (storeKey s w v).SRC = s.SRC := rfl
@[simp] theorem storeKey_LEN (w : Nat) (v : Word) : (storeKey s w v).LEN = s.LEN := rfl
@[simp] theorem storeKey_DST (w : Nat) (v : Word) : (storeKey s w v).DST = s.DST := rfl
@[simp] theorem storeKey_RLEN (w : Nat) (v : Word) : (storeKey s w v).RLEN = s.RLEN := rfl
@[simp] theorem storeKey_KEY (w : Nat) (v : Word) : (storeKey s w v).KEY = setWindowWord s.KEY w v := rfl
@[simp] theorem storeKey_KEYM (w : Nat) (v : Word) : (storeKey s w v).KEYM = s.KEYM.set w true := rfl
@[simp] theorem storeKey_IV (w : Nat) (v : Word) : (storeKey s w v).IV = s.IV := rfl
@[simp] theorem storeKey_IVM (w : Nat) (v : Word) : (storeKey s w v).IVM = s.IVM := rfl
@[simp] theorem storeKey_BUF (w : Nat) (v : Word) : (storeKey s w v).BUF = s.BUF := rfl
@[simp] theorem storeKey_inst (w : Nat) (v : Word) : (storeKey s w v).inst = s.inst := rfl
@[simp] theorem storeKey_draw (w : Nat) (v : Word) : (storeKey s w v).draw = s.draw := rfl
@[simp] theorem storeKey_env (w : Nat) (v : Word) : (storeKey s w v).env = s.env := rfl
@[simp] theorem storeKey_resp (w : Nat) (v : Word) : (storeKey s w v).resp = s.resp := rfl

/-! ### storeIv -/

@[simp] theorem storeIv_IE (w : Nat) (v : Word) : (storeIv s w v).IE = s.IE := rfl
@[simp] theorem storeIv_BUSY (w : Nat) (v : Word) : (storeIv s w v).BUSY = s.BUSY := rfl
@[simp] theorem storeIv_DONE (w : Nat) (v : Word) : (storeIv s w v).DONE = s.DONE := rfl
@[simp] theorem storeIv_ERR (w : Nat) (v : Word) : (storeIv s w v).ERR = s.ERR := rfl
@[simp] theorem storeIv_HERR (w : Nat) (v : Word) : (storeIv s w v).HERR = s.HERR := rfl
@[simp] theorem storeIv_CMDL (w : Nat) (v : Word) : (storeIv s w v).CMDL = s.CMDL := rfl
@[simp] theorem storeIv_SRC (w : Nat) (v : Word) : (storeIv s w v).SRC = s.SRC := rfl
@[simp] theorem storeIv_LEN (w : Nat) (v : Word) : (storeIv s w v).LEN = s.LEN := rfl
@[simp] theorem storeIv_DST (w : Nat) (v : Word) : (storeIv s w v).DST = s.DST := rfl
@[simp] theorem storeIv_RLEN (w : Nat) (v : Word) : (storeIv s w v).RLEN = s.RLEN := rfl
@[simp] theorem storeIv_KEY (w : Nat) (v : Word) : (storeIv s w v).KEY = s.KEY := rfl
@[simp] theorem storeIv_KEYM (w : Nat) (v : Word) : (storeIv s w v).KEYM = s.KEYM := rfl
@[simp] theorem storeIv_IV (w : Nat) (v : Word) : (storeIv s w v).IV = setWindowWord s.IV w v := rfl
@[simp] theorem storeIv_IVM (w : Nat) (v : Word) : (storeIv s w v).IVM = s.IVM.set w true := rfl
@[simp] theorem storeIv_BUF (w : Nat) (v : Word) : (storeIv s w v).BUF = s.BUF := rfl
@[simp] theorem storeIv_inst (w : Nat) (v : Word) : (storeIv s w v).inst = s.inst := rfl
@[simp] theorem storeIv_draw (w : Nat) (v : Word) : (storeIv s w v).draw = s.draw := rfl
@[simp] theorem storeIv_env (w : Nat) (v : Word) : (storeIv s w v).env = s.env := rfl
@[simp] theorem storeIv_resp (w : Nat) (v : Word) : (storeIv s w v).resp = s.resp := rfl

/-! ### storeBuf -/

@[simp] theorem storeBuf_IE (w : Nat) (v : Word) : (storeBuf s w v).IE = s.IE := rfl
@[simp] theorem storeBuf_BUSY (w : Nat) (v : Word) : (storeBuf s w v).BUSY = s.BUSY := rfl
@[simp] theorem storeBuf_DONE (w : Nat) (v : Word) : (storeBuf s w v).DONE = s.DONE := rfl
@[simp] theorem storeBuf_ERR (w : Nat) (v : Word) : (storeBuf s w v).ERR = s.ERR := rfl
@[simp] theorem storeBuf_HERR (w : Nat) (v : Word) : (storeBuf s w v).HERR = s.HERR := rfl
@[simp] theorem storeBuf_CMDL (w : Nat) (v : Word) : (storeBuf s w v).CMDL = s.CMDL := rfl
@[simp] theorem storeBuf_SRC (w : Nat) (v : Word) : (storeBuf s w v).SRC = s.SRC := rfl
@[simp] theorem storeBuf_LEN (w : Nat) (v : Word) : (storeBuf s w v).LEN = s.LEN := rfl
@[simp] theorem storeBuf_DST (w : Nat) (v : Word) : (storeBuf s w v).DST = s.DST := rfl
@[simp] theorem storeBuf_RLEN (w : Nat) (v : Word) : (storeBuf s w v).RLEN = s.RLEN := rfl
@[simp] theorem storeBuf_KEY (w : Nat) (v : Word) : (storeBuf s w v).KEY = s.KEY := rfl
@[simp] theorem storeBuf_KEYM (w : Nat) (v : Word) : (storeBuf s w v).KEYM = s.KEYM := rfl
@[simp] theorem storeBuf_IV (w : Nat) (v : Word) : (storeBuf s w v).IV = s.IV := rfl
@[simp] theorem storeBuf_IVM (w : Nat) (v : Word) : (storeBuf s w v).IVM = s.IVM := rfl
@[simp] theorem storeBuf_BUF (w : Nat) (v : Word) : (storeBuf s w v).BUF = Memory.writeBytes s.BUF (4 * w) [wordByte v 0, wordByte v 1, wordByte v 2, wordByte v 3] := rfl
@[simp] theorem storeBuf_inst (w : Nat) (v : Word) : (storeBuf s w v).inst = s.inst := rfl
@[simp] theorem storeBuf_draw (w : Nat) (v : Word) : (storeBuf s w v).draw = s.draw := rfl
@[simp] theorem storeBuf_env (w : Nat) (v : Word) : (storeBuf s w v).env = s.env := rfl
@[simp] theorem storeBuf_resp (w : Nat) (v : Word) : (storeBuf s w v).resp = s.resp := rfl

/-! ### clearKey -/

@[simp] theorem clearKey_IE : (clearKey s).IE = s.IE := rfl
@[simp] theorem clearKey_BUSY : (clearKey s).BUSY = s.BUSY := rfl
@[simp] theorem clearKey_DONE : (clearKey s).DONE = s.DONE := rfl
@[simp] theorem clearKey_ERR : (clearKey s).ERR = s.ERR := rfl
@[simp] theorem clearKey_HERR : (clearKey s).HERR = s.HERR := rfl
@[simp] theorem clearKey_CMDL : (clearKey s).CMDL = s.CMDL := rfl
@[simp] theorem clearKey_SRC : (clearKey s).SRC = s.SRC := rfl
@[simp] theorem clearKey_LEN : (clearKey s).LEN = s.LEN := rfl
@[simp] theorem clearKey_DST : (clearKey s).DST = s.DST := rfl
@[simp] theorem clearKey_RLEN : (clearKey s).RLEN = s.RLEN := rfl
@[simp] theorem clearKey_KEY : (clearKey s).KEY = s.KEY.map fun _ => 0 := rfl
@[simp] theorem clearKey_KEYM : (clearKey s).KEYM = s.KEYM.map fun _ => false := rfl
@[simp] theorem clearKey_IV : (clearKey s).IV = s.IV := rfl
@[simp] theorem clearKey_IVM : (clearKey s).IVM = s.IVM := rfl
@[simp] theorem clearKey_BUF : (clearKey s).BUF = s.BUF := rfl
@[simp] theorem clearKey_inst : (clearKey s).inst = s.inst := rfl
@[simp] theorem clearKey_draw : (clearKey s).draw = s.draw := rfl
@[simp] theorem clearKey_env : (clearKey s).env = s.env := rfl
@[simp] theorem clearKey_resp : (clearKey s).resp = s.resp := rfl

/-! ### clearIv -/

@[simp] theorem clearIv_IE : (clearIv s).IE = s.IE := rfl
@[simp] theorem clearIv_BUSY : (clearIv s).BUSY = s.BUSY := rfl
@[simp] theorem clearIv_DONE : (clearIv s).DONE = s.DONE := rfl
@[simp] theorem clearIv_ERR : (clearIv s).ERR = s.ERR := rfl
@[simp] theorem clearIv_HERR : (clearIv s).HERR = s.HERR := rfl
@[simp] theorem clearIv_CMDL : (clearIv s).CMDL = s.CMDL := rfl
@[simp] theorem clearIv_SRC : (clearIv s).SRC = s.SRC := rfl
@[simp] theorem clearIv_LEN : (clearIv s).LEN = s.LEN := rfl
@[simp] theorem clearIv_DST : (clearIv s).DST = s.DST := rfl
@[simp] theorem clearIv_RLEN : (clearIv s).RLEN = s.RLEN := rfl
@[simp] theorem clearIv_KEY : (clearIv s).KEY = s.KEY := rfl
@[simp] theorem clearIv_KEYM : (clearIv s).KEYM = s.KEYM := rfl
@[simp] theorem clearIv_IV : (clearIv s).IV = s.IV.map fun _ => 0 := rfl
@[simp] theorem clearIv_IVM : (clearIv s).IVM = s.IVM.map fun _ => false := rfl
@[simp] theorem clearIv_BUF : (clearIv s).BUF = s.BUF := rfl
@[simp] theorem clearIv_inst : (clearIv s).inst = s.inst := rfl
@[simp] theorem clearIv_draw : (clearIv s).draw = s.draw := rfl
@[simp] theorem clearIv_env : (clearIv s).env = s.env := rfl
@[simp] theorem clearIv_resp : (clearIv s).resp = s.resp := rfl

/-! ### acknowledge -/

@[simp] theorem acknowledge_IE (v : Word) : (acknowledge s v).IE = s.IE := rfl
@[simp] theorem acknowledge_BUSY (v : Word) : (acknowledge s v).BUSY = s.BUSY := rfl
@[simp] theorem acknowledge_DONE (v : Word) : (acknowledge s v).DONE = (s.DONE && !v.getLsbD 1) := rfl
@[simp] theorem acknowledge_ERR (v : Word) : (acknowledge s v).ERR = s.ERR := rfl
@[simp] theorem acknowledge_HERR (v : Word) : (acknowledge s v).HERR = (s.HERR && !v.getLsbD 8) := rfl
@[simp] theorem acknowledge_CMDL (v : Word) : (acknowledge s v).CMDL = s.CMDL := rfl
@[simp] theorem acknowledge_SRC (v : Word) : (acknowledge s v).SRC = s.SRC := rfl
@[simp] theorem acknowledge_LEN (v : Word) : (acknowledge s v).LEN = s.LEN := rfl
@[simp] theorem acknowledge_DST (v : Word) : (acknowledge s v).DST = s.DST := rfl
@[simp] theorem acknowledge_RLEN (v : Word) : (acknowledge s v).RLEN = s.RLEN := rfl
@[simp] theorem acknowledge_KEY (v : Word) : (acknowledge s v).KEY = s.KEY := rfl
@[simp] theorem acknowledge_KEYM (v : Word) : (acknowledge s v).KEYM = s.KEYM := rfl
@[simp] theorem acknowledge_IV (v : Word) : (acknowledge s v).IV = s.IV := rfl
@[simp] theorem acknowledge_IVM (v : Word) : (acknowledge s v).IVM = s.IVM := rfl
@[simp] theorem acknowledge_BUF (v : Word) : (acknowledge s v).BUF = s.BUF := rfl
@[simp] theorem acknowledge_inst (v : Word) : (acknowledge s v).inst = s.inst := rfl
@[simp] theorem acknowledge_draw (v : Word) : (acknowledge s v).draw = s.draw := rfl
@[simp] theorem acknowledge_env (v : Word) : (acknowledge s v).env = s.env := rfl
@[simp] theorem acknowledge_resp (v : Word) : (acknowledge s v).resp = s.resp := rfl

/-! ### issue -/

@[simp] theorem issue_IE (v : Word) : (issue s v).IE = s.IE := rfl
@[simp] theorem issue_BUSY (v : Word) : (issue s v).BUSY = true := rfl
@[simp] theorem issue_DONE (v : Word) : (issue s v).DONE = false := rfl
@[simp] theorem issue_ERR (v : Word) : (issue s v).ERR = 0 := rfl
@[simp] theorem issue_HERR (v : Word) : (issue s v).HERR = s.HERR := rfl
@[simp] theorem issue_CMDL (v : Word) : (issue s v).CMDL = v := rfl
@[simp] theorem issue_SRC (v : Word) : (issue s v).SRC = s.SRC := rfl
@[simp] theorem issue_LEN (v : Word) : (issue s v).LEN = s.LEN := rfl
@[simp] theorem issue_DST (v : Word) : (issue s v).DST = s.DST := rfl
@[simp] theorem issue_RLEN (v : Word) : (issue s v).RLEN = 0 := rfl
@[simp] theorem issue_KEY (v : Word) : (issue s v).KEY = s.KEY := rfl
@[simp] theorem issue_KEYM (v : Word) : (issue s v).KEYM = s.KEYM := rfl
@[simp] theorem issue_IV (v : Word) : (issue s v).IV = s.IV := rfl
@[simp] theorem issue_IVM (v : Word) : (issue s v).IVM = s.IVM := rfl
@[simp] theorem issue_BUF (v : Word) : (issue s v).BUF = s.BUF := rfl
@[simp] theorem issue_inst (v : Word) : (issue s v).inst = s.inst := rfl
@[simp] theorem issue_draw (v : Word) : (issue s v).draw = s.draw := rfl
@[simp] theorem issue_env (v : Word) : (issue s v).env = s.env := rfl
@[simp] theorem issue_resp (v : Word) : (issue s v).resp = s.resp := rfl

/-! ### completeOk -/

@[simp] theorem completeOk_IE (out : List Byte) : (completeOk s out).IE = s.IE := rfl
@[simp] theorem completeOk_BUSY (out : List Byte) : (completeOk s out).BUSY = false := rfl
@[simp] theorem completeOk_DONE (out : List Byte) : (completeOk s out).DONE = true := rfl
@[simp] theorem completeOk_ERR (out : List Byte) : (completeOk s out).ERR = 0 := rfl
@[simp] theorem completeOk_HERR (out : List Byte) : (completeOk s out).HERR = s.HERR := rfl
@[simp] theorem completeOk_CMDL (out : List Byte) : (completeOk s out).CMDL = s.CMDL := rfl
@[simp] theorem completeOk_SRC (out : List Byte) : (completeOk s out).SRC = s.SRC := rfl
@[simp] theorem completeOk_LEN (out : List Byte) : (completeOk s out).LEN = s.LEN := rfl
@[simp] theorem completeOk_DST (out : List Byte) : (completeOk s out).DST = s.DST := rfl
@[simp] theorem completeOk_RLEN (out : List Byte) : (completeOk s out).RLEN = BitVec.ofNat 32 out.length := rfl
@[simp] theorem completeOk_KEY (out : List Byte) : (completeOk s out).KEY = s.KEY := rfl
@[simp] theorem completeOk_KEYM (out : List Byte) : (completeOk s out).KEYM = s.KEYM := rfl
@[simp] theorem completeOk_IV (out : List Byte) : (completeOk s out).IV = s.IV := rfl
@[simp] theorem completeOk_IVM (out : List Byte) : (completeOk s out).IVM = s.IVM := rfl
@[simp] theorem completeOk_BUF (out : List Byte) : (completeOk s out).BUF = Memory.writeBytes s.BUF s.DST.toNat out := rfl
@[simp] theorem completeOk_inst (out : List Byte) : (completeOk s out).inst = s.inst := rfl
@[simp] theorem completeOk_draw (out : List Byte) : (completeOk s out).draw = s.draw := rfl
@[simp] theorem completeOk_env (out : List Byte) : (completeOk s out).env = s.env := rfl
@[simp] theorem completeOk_resp (out : List Byte) : (completeOk s out).resp = s.resp := rfl

/-! ### raiseError -/

@[simp] theorem raiseError_IE (e : CmdError) : (raiseError s e).IE = s.IE := rfl
@[simp] theorem raiseError_BUSY (e : CmdError) : (raiseError s e).BUSY = false := rfl
@[simp] theorem raiseError_DONE (e : CmdError) : (raiseError s e).DONE = true := rfl
@[simp] theorem raiseError_ERR (e : CmdError) : (raiseError s e).ERR = errCode e := rfl
@[simp] theorem raiseError_HERR (e : CmdError) : (raiseError s e).HERR = s.HERR := rfl
@[simp] theorem raiseError_CMDL (e : CmdError) : (raiseError s e).CMDL = s.CMDL := rfl
@[simp] theorem raiseError_SRC (e : CmdError) : (raiseError s e).SRC = s.SRC := rfl
@[simp] theorem raiseError_LEN (e : CmdError) : (raiseError s e).LEN = s.LEN := rfl
@[simp] theorem raiseError_DST (e : CmdError) : (raiseError s e).DST = s.DST := rfl
@[simp] theorem raiseError_RLEN (e : CmdError) : (raiseError s e).RLEN = 0 := rfl
@[simp] theorem raiseError_KEY (e : CmdError) : (raiseError s e).KEY = s.KEY := rfl
@[simp] theorem raiseError_KEYM (e : CmdError) : (raiseError s e).KEYM = s.KEYM := rfl
@[simp] theorem raiseError_IV (e : CmdError) : (raiseError s e).IV = s.IV := rfl
@[simp] theorem raiseError_IVM (e : CmdError) : (raiseError s e).IVM = s.IVM := rfl
@[simp] theorem raiseError_BUF (e : CmdError) : (raiseError s e).BUF = s.BUF := rfl
@[simp] theorem raiseError_inst (e : CmdError) : (raiseError s e).inst = s.inst := rfl
@[simp] theorem raiseError_draw (e : CmdError) : (raiseError s e).draw = s.draw := rfl
@[simp] theorem raiseError_env (e : CmdError) : (raiseError s e).env = s.env := rfl
@[simp] theorem raiseError_resp (e : CmdError) : (raiseError s e).resp = s.resp := rfl

/-! ### respond -/

@[simp] theorem respond_IE (r : Response) : (respond s r).IE = s.IE := rfl
@[simp] theorem respond_BUSY (r : Response) : (respond s r).BUSY = s.BUSY := rfl
@[simp] theorem respond_DONE (r : Response) : (respond s r).DONE = s.DONE := rfl
@[simp] theorem respond_ERR (r : Response) : (respond s r).ERR = s.ERR := rfl
@[simp] theorem respond_HERR (r : Response) : (respond s r).HERR = s.HERR := rfl
@[simp] theorem respond_CMDL (r : Response) : (respond s r).CMDL = s.CMDL := rfl
@[simp] theorem respond_SRC (r : Response) : (respond s r).SRC = s.SRC := rfl
@[simp] theorem respond_LEN (r : Response) : (respond s r).LEN = s.LEN := rfl
@[simp] theorem respond_DST (r : Response) : (respond s r).DST = s.DST := rfl
@[simp] theorem respond_RLEN (r : Response) : (respond s r).RLEN = s.RLEN := rfl
@[simp] theorem respond_KEY (r : Response) : (respond s r).KEY = s.KEY := rfl
@[simp] theorem respond_KEYM (r : Response) : (respond s r).KEYM = s.KEYM := rfl
@[simp] theorem respond_IV (r : Response) : (respond s r).IV = s.IV := rfl
@[simp] theorem respond_IVM (r : Response) : (respond s r).IVM = s.IVM := rfl
@[simp] theorem respond_BUF (r : Response) : (respond s r).BUF = s.BUF := rfl
@[simp] theorem respond_inst (r : Response) : (respond s r).inst = s.inst := rfl
@[simp] theorem respond_draw (r : Response) : (respond s r).draw = s.draw := rfl
@[simp] theorem respond_env (r : Response) : (respond s r).env = s.env := rfl
@[simp] theorem respond_resp (r : Response) : (respond s r).resp = some r := rfl

/-! ### refuseAccess -/

@[simp] theorem refuseAccess_IE : (refuseAccess s).IE = s.IE := rfl
@[simp] theorem refuseAccess_BUSY : (refuseAccess s).BUSY = s.BUSY := rfl
@[simp] theorem refuseAccess_DONE : (refuseAccess s).DONE = s.DONE := rfl
@[simp] theorem refuseAccess_ERR : (refuseAccess s).ERR = s.ERR := rfl
@[simp] theorem refuseAccess_HERR : (refuseAccess s).HERR = true := rfl
@[simp] theorem refuseAccess_CMDL : (refuseAccess s).CMDL = s.CMDL := rfl
@[simp] theorem refuseAccess_SRC : (refuseAccess s).SRC = s.SRC := rfl
@[simp] theorem refuseAccess_LEN : (refuseAccess s).LEN = s.LEN := rfl
@[simp] theorem refuseAccess_DST : (refuseAccess s).DST = s.DST := rfl
@[simp] theorem refuseAccess_RLEN : (refuseAccess s).RLEN = s.RLEN := rfl
@[simp] theorem refuseAccess_KEY : (refuseAccess s).KEY = s.KEY := rfl
@[simp] theorem refuseAccess_KEYM : (refuseAccess s).KEYM = s.KEYM := rfl
@[simp] theorem refuseAccess_IV : (refuseAccess s).IV = s.IV := rfl
@[simp] theorem refuseAccess_IVM : (refuseAccess s).IVM = s.IVM := rfl
@[simp] theorem refuseAccess_BUF : (refuseAccess s).BUF = s.BUF := rfl
@[simp] theorem refuseAccess_inst : (refuseAccess s).inst = s.inst := rfl
@[simp] theorem refuseAccess_draw : (refuseAccess s).draw = s.draw := rfl
@[simp] theorem refuseAccess_env : (refuseAccess s).env = s.env := rfl
@[simp] theorem refuseAccess_resp : (refuseAccess s).resp = some .err := rfl

/-! ### applyReset -/

@[simp] theorem applyReset_IE : (applyReset s).IE = false := rfl
@[simp] theorem applyReset_BUSY : (applyReset s).BUSY = false := rfl
@[simp] theorem applyReset_DONE : (applyReset s).DONE = false := rfl
@[simp] theorem applyReset_ERR : (applyReset s).ERR = 0 := rfl
@[simp] theorem applyReset_HERR : (applyReset s).HERR = false := rfl
@[simp] theorem applyReset_CMDL : (applyReset s).CMDL = 0 := rfl
@[simp] theorem applyReset_SRC : (applyReset s).SRC = 0 := rfl
@[simp] theorem applyReset_LEN : (applyReset s).LEN = 0 := rfl
@[simp] theorem applyReset_DST : (applyReset s).DST = 0 := rfl
@[simp] theorem applyReset_RLEN : (applyReset s).RLEN = 0 := rfl
@[simp] theorem applyReset_KEY : (applyReset s).KEY = List.replicate s.inst.KLEN 0 := rfl
@[simp] theorem applyReset_KEYM : (applyReset s).KEYM = List.replicate (ceil4 s.inst.KLEN) false := rfl
@[simp] theorem applyReset_IV : (applyReset s).IV = List.replicate s.inst.B 0 := rfl
@[simp] theorem applyReset_IVM : (applyReset s).IVM = List.replicate (ceil4 s.inst.B) false := rfl
@[simp] theorem applyReset_BUF : (applyReset s).BUF = [] := rfl
@[simp] theorem applyReset_inst : (applyReset s).inst = s.inst := rfl
@[simp] theorem applyReset_draw : (applyReset s).draw = s.draw + 1 := rfl
@[simp] theorem applyReset_env : (applyReset s).env = s.env := rfl
@[simp] theorem applyReset_resp : (applyReset s).resp = none := rfl

/-! ### placeWord -/

@[simp] theorem placeWord_IE (v : Word) : (placeWord s v).IE = s.IE := rfl
@[simp] theorem placeWord_BUSY (v : Word) : (placeWord s v).BUSY = true := rfl
@[simp] theorem placeWord_DONE (v : Word) : (placeWord s v).DONE = false := rfl
@[simp] theorem placeWord_ERR (v : Word) : (placeWord s v).ERR = 0 := rfl
@[simp] theorem placeWord_HERR (v : Word) : (placeWord s v).HERR = s.HERR := rfl
@[simp] theorem placeWord_CMDL (v : Word) : (placeWord s v).CMDL = v := rfl
@[simp] theorem placeWord_SRC (v : Word) : (placeWord s v).SRC = s.SRC := rfl
@[simp] theorem placeWord_LEN (v : Word) : (placeWord s v).LEN = s.LEN := rfl
@[simp] theorem placeWord_DST (v : Word) : (placeWord s v).DST = s.DST := rfl
@[simp] theorem placeWord_RLEN (v : Word) : (placeWord s v).RLEN = 0 := rfl
@[simp] theorem placeWord_KEY (v : Word) : (placeWord s v).KEY = s.KEY := rfl
@[simp] theorem placeWord_KEYM (v : Word) : (placeWord s v).KEYM = s.KEYM := rfl
@[simp] theorem placeWord_IV (v : Word) : (placeWord s v).IV = s.IV := rfl
@[simp] theorem placeWord_IVM (v : Word) : (placeWord s v).IVM = s.IVM := rfl
@[simp] theorem placeWord_BUF (v : Word) : (placeWord s v).BUF = s.BUF := rfl
@[simp] theorem placeWord_inst (v : Word) : (placeWord s v).inst = s.inst := rfl
@[simp] theorem placeWord_draw (v : Word) : (placeWord s v).draw = s.draw := rfl
@[simp] theorem placeWord_env (v : Word) : (placeWord s v).env = .unitTurn :: s.env := rfl
@[simp] theorem placeWord_resp (v : Word) : (placeWord s v).resp = s.resp := rfl

/-! ### storeCtrl: IE, then the clear actions its bits 1 and 2 select -/

@[simp] theorem storeCtrl_IE (v : Word) : (storeCtrl s v).IE = v.getLsbD 0 := by
  unfold storeCtrl clearIvIf clearKeyIf; cases v.getLsbD 1 <;> cases v.getLsbD 2 <;> rfl
@[simp] theorem storeCtrl_BUSY (v : Word) : (storeCtrl s v).BUSY = s.BUSY := by
  unfold storeCtrl clearIvIf clearKeyIf; cases v.getLsbD 1 <;> cases v.getLsbD 2 <;> rfl
@[simp] theorem storeCtrl_DONE (v : Word) : (storeCtrl s v).DONE = s.DONE := by
  unfold storeCtrl clearIvIf clearKeyIf; cases v.getLsbD 1 <;> cases v.getLsbD 2 <;> rfl
@[simp] theorem storeCtrl_ERR (v : Word) : (storeCtrl s v).ERR = s.ERR := by
  unfold storeCtrl clearIvIf clearKeyIf; cases v.getLsbD 1 <;> cases v.getLsbD 2 <;> rfl
@[simp] theorem storeCtrl_HERR (v : Word) : (storeCtrl s v).HERR = s.HERR := by
  unfold storeCtrl clearIvIf clearKeyIf; cases v.getLsbD 1 <;> cases v.getLsbD 2 <;> rfl
@[simp] theorem storeCtrl_CMDL (v : Word) : (storeCtrl s v).CMDL = s.CMDL := by
  unfold storeCtrl clearIvIf clearKeyIf; cases v.getLsbD 1 <;> cases v.getLsbD 2 <;> rfl
@[simp] theorem storeCtrl_SRC (v : Word) : (storeCtrl s v).SRC = s.SRC := by
  unfold storeCtrl clearIvIf clearKeyIf; cases v.getLsbD 1 <;> cases v.getLsbD 2 <;> rfl
@[simp] theorem storeCtrl_LEN (v : Word) : (storeCtrl s v).LEN = s.LEN := by
  unfold storeCtrl clearIvIf clearKeyIf; cases v.getLsbD 1 <;> cases v.getLsbD 2 <;> rfl
@[simp] theorem storeCtrl_DST (v : Word) : (storeCtrl s v).DST = s.DST := by
  unfold storeCtrl clearIvIf clearKeyIf; cases v.getLsbD 1 <;> cases v.getLsbD 2 <;> rfl
@[simp] theorem storeCtrl_RLEN (v : Word) : (storeCtrl s v).RLEN = s.RLEN := by
  unfold storeCtrl clearIvIf clearKeyIf; cases v.getLsbD 1 <;> cases v.getLsbD 2 <;> rfl
@[simp] theorem storeCtrl_KEY (v : Word) : (storeCtrl s v).KEY = if v.getLsbD 1 then s.KEY.map fun _ => 0 else s.KEY := by
  unfold storeCtrl clearIvIf clearKeyIf; cases v.getLsbD 1 <;> cases v.getLsbD 2 <;> rfl
@[simp] theorem storeCtrl_KEYM (v : Word) : (storeCtrl s v).KEYM = if v.getLsbD 1 then s.KEYM.map fun _ => false else s.KEYM := by
  unfold storeCtrl clearIvIf clearKeyIf; cases v.getLsbD 1 <;> cases v.getLsbD 2 <;> rfl
@[simp] theorem storeCtrl_IV (v : Word) : (storeCtrl s v).IV = if v.getLsbD 2 then s.IV.map fun _ => 0 else s.IV := by
  unfold storeCtrl clearIvIf clearKeyIf; cases v.getLsbD 1 <;> cases v.getLsbD 2 <;> rfl
@[simp] theorem storeCtrl_IVM (v : Word) : (storeCtrl s v).IVM = if v.getLsbD 2 then s.IVM.map fun _ => false else s.IVM := by
  unfold storeCtrl clearIvIf clearKeyIf; cases v.getLsbD 1 <;> cases v.getLsbD 2 <;> rfl
@[simp] theorem storeCtrl_BUF (v : Word) : (storeCtrl s v).BUF = s.BUF := by
  unfold storeCtrl clearIvIf clearKeyIf; cases v.getLsbD 1 <;> cases v.getLsbD 2 <;> rfl
@[simp] theorem storeCtrl_inst (v : Word) : (storeCtrl s v).inst = s.inst := by
  unfold storeCtrl clearIvIf clearKeyIf; cases v.getLsbD 1 <;> cases v.getLsbD 2 <;> rfl
@[simp] theorem storeCtrl_draw (v : Word) : (storeCtrl s v).draw = s.draw := by
  unfold storeCtrl clearIvIf clearKeyIf; cases v.getLsbD 1 <;> cases v.getLsbD 2 <;> rfl
@[simp] theorem storeCtrl_env (v : Word) : (storeCtrl s v).env = s.env := by
  unfold storeCtrl clearIvIf clearKeyIf; cases v.getLsbD 1 <;> cases v.getLsbD 2 <;> rfl
@[simp] theorem storeCtrl_resp (v : Word) : (storeCtrl s v).resp = s.resp := by
  unfold storeCtrl clearIvIf clearKeyIf; cases v.getLsbD 1 <;> cases v.getLsbD 2 <;> rfl

/-! ### finish: what every completion leaves alone, and what it sets whatever the result -/

@[simp] theorem finish_IE (r : Except CmdError (List Byte)) : (finish s r).IE = s.IE := by cases r <;> rfl
@[simp] theorem finish_BUSY (r : Except CmdError (List Byte)) : (finish s r).BUSY = false := by cases r <;> rfl
@[simp] theorem finish_DONE (r : Except CmdError (List Byte)) : (finish s r).DONE = true := by cases r <;> rfl
@[simp] theorem finish_HERR (r : Except CmdError (List Byte)) : (finish s r).HERR = s.HERR := by cases r <;> rfl
@[simp] theorem finish_CMDL (r : Except CmdError (List Byte)) : (finish s r).CMDL = s.CMDL := by cases r <;> rfl
@[simp] theorem finish_SRC (r : Except CmdError (List Byte)) : (finish s r).SRC = s.SRC := by cases r <;> rfl
@[simp] theorem finish_LEN (r : Except CmdError (List Byte)) : (finish s r).LEN = s.LEN := by cases r <;> rfl
@[simp] theorem finish_DST (r : Except CmdError (List Byte)) : (finish s r).DST = s.DST := by cases r <;> rfl
@[simp] theorem finish_KEY (r : Except CmdError (List Byte)) : (finish s r).KEY = s.KEY := by cases r <;> rfl
@[simp] theorem finish_KEYM (r : Except CmdError (List Byte)) : (finish s r).KEYM = s.KEYM := by cases r <;> rfl
@[simp] theorem finish_IV (r : Except CmdError (List Byte)) : (finish s r).IV = s.IV := by cases r <;> rfl
@[simp] theorem finish_IVM (r : Except CmdError (List Byte)) : (finish s r).IVM = s.IVM := by cases r <;> rfl
@[simp] theorem finish_inst (r : Except CmdError (List Byte)) : (finish s r).inst = s.inst := by cases r <;> rfl
@[simp] theorem finish_draw (r : Except CmdError (List Byte)) : (finish s r).draw = s.draw := by cases r <;> rfl
@[simp] theorem finish_env (r : Except CmdError (List Byte)) : (finish s r).env = s.env := by cases r <;> rfl
@[simp] theorem finish_resp (r : Except CmdError (List Byte)) : (finish s r).resp = s.resp := by cases r <;> rfl

@[simp] theorem finish_ok (out : List Byte) : finish s (.ok out) = completeOk s out := rfl
@[simp] theorem finish_error (e : CmdError) : finish s (.error e) = raiseError s e := rfl

/-! ### writeEffect: no accepted write touches the model's own fields -/

@[simp] theorem writeEffect_inst (t : Target) (v : Word) : (writeEffect s t v).inst = s.inst := by cases t <;> simp [writeEffect]
@[simp] theorem writeEffect_draw (t : Target) (v : Word) : (writeEffect s t v).draw = s.draw := by cases t <;> simp [writeEffect]
@[simp] theorem writeEffect_env (t : Target) (v : Word) : (writeEffect s t v).env = s.env := by cases t <;> simp [writeEffect]
@[simp] theorem writeEffect_resp (t : Target) (v : Word) : (writeEffect s t v).resp = s.resp := by cases t <;> simp [writeEffect]

end Sys2Proof.Machine
end

