-- ==== Sys2Proof/Laws/Memory.lean ====
section
/-! SUPPORT. BUF: read after write, and the canonical form that every memory operation keeps. -/

namespace Sys2Proof.Machine

open Sys2Proof

/-! ### One byte -/

@[simp] theorem Memory.read_nil (a : Nat) : Memory.read [] a = none := rfl

theorem Memory.read_write (m : List Host.Cell) (a b : Nat) (v : Byte) :
    Memory.read (Memory.write m a v) b = if b = a then some v else Memory.read m b := by
  induction m with
  | nil => simp [Memory.write, Memory.read, Memory.unlisted]
  | cons c rest ih =>
    obtain ⟨k, u⟩ := c
    by_cases h1 : a < k
    · simp [Memory.write, h1, Memory.read]
    · by_cases h2 : a = k
      · subst h2
        by_cases h3 : b = a <;> simp [Memory.write, Memory.read, h3]
      · simp only [Memory.write, if_neg h1, if_neg h2, Memory.read, ih]
        by_cases h3 : b = k
        · subst h3; simp [Ne.symm h2]
        · simp [h3]

@[simp] theorem Memory.read_write_same (m : List Host.Cell) (a : Nat) (v : Byte) :
    Memory.read (Memory.write m a v) a = some v := by simp [Memory.read_write]

theorem Memory.read_write_other (m : List Host.Cell) {a b : Nat} (v : Byte) (h : b ≠ a) :
    Memory.read (Memory.write m a v) b = Memory.read m b := by simp [Memory.read_write, h]

theorem Memory.mem_write {m : List Host.Cell} {a : Nat} {v : Byte} {c : Host.Cell}
    (h : c ∈ Memory.write m a v) : c = (a, v) ∨ c ∈ m := by
  induction m with
  | nil => simpa [Memory.write] using h
  | cons d rest ih =>
    simp only [Memory.write] at h
    split at h
    · simpa using h
    · split at h
      · rcases List.mem_cons.1 h with h | h
        · exact .inl h
        · exact .inr (List.mem_cons_of_mem _ h)
      · rcases List.mem_cons.1 h with h | h
        · exact .inr (h ▸ List.mem_cons_self)
        · exact (ih h).imp_right (List.mem_cons_of_mem _)

/-- A write keeps the addresses strictly rising. -/
theorem Memory.wf_write {m : List Host.Cell} (a : Nat) (v : Byte) (h : Memory.wf m = true) :
    Memory.wf (Memory.write m a v) = true := by
  simp only [Memory.wf, decide_eq_true_eq] at *
  induction m with
  | nil => simp [Memory.write]
  | cons d rest ih =>
    obtain ⟨k, u⟩ := d
    obtain ⟨hk, hrest⟩ := List.pairwise_cons.1 h
    simp only [Memory.write]
    split
    · next hlt =>
      refine List.pairwise_cons.2 ⟨fun c hc => ?_, h⟩
      rcases List.mem_cons.1 hc with rfl | hc
      · exact hlt
      · exact lt_trans hlt (hk c hc)
    · split
      · next heq => exact List.pairwise_cons.2 ⟨fun c hc => heq ▸ hk c hc, hrest⟩
      · refine List.pairwise_cons.2 ⟨fun c hc => ?_, ih hrest⟩
        rcases Memory.mem_write hc with rfl | hc
        · show k < a; omega
        · exact hk c hc

/-! ### A byte sequence -/

@[simp] theorem Memory.writeBytes_nil (m : List Host.Cell) (a : Nat) : Memory.writeBytes m a [] = m := rfl

/-- MemWrite stores exactly its bytes: address b reads the byte at b - a inside the range, and as before outside it. -/
theorem Memory.read_writeBytes (m : List Host.Cell) (a b : Nat) (vs : List Byte) :
    Memory.read (Memory.writeBytes m a vs) b
      = if a ≤ b ∧ b < a + vs.length then some (vs.getD (b - a) 0) else Memory.read m b := by
  induction vs generalizing m a with
  | nil =>
    have : ¬ (a ≤ b ∧ b < a + ([] : List Byte).length) := by simp
    simp only [Memory.writeBytes, if_neg this]
  | cons v rest ih =>
    simp only [Memory.writeBytes, ih, List.length_cons, Memory.read_write]
    by_cases h : b = a
    · subst h
      have h1 : ¬ (b + 1 ≤ b ∧ b < b + 1 + rest.length) := by omega
      have h2 : b ≤ b ∧ b < b + (rest.length + 1) := by omega
      rw [if_neg h1, if_pos rfl, if_pos h2]
      simp
    · by_cases h2 : a ≤ b ∧ b < a + (rest.length + 1)
      · have h1 : a + 1 ≤ b ∧ b < a + 1 + rest.length := by omega
        rw [if_pos h1, if_pos h2]
        have : b - a = (b - (a + 1)) + 1 := by omega
        simp [this]
      · have h1 : ¬ (a + 1 ≤ b ∧ b < a + 1 + rest.length) := by omega
        rw [if_neg h1, if_neg h2, if_neg h]

/-- MemWrite keeps the canonical form. -/
theorem Memory.wf_writeBytes {m : List Host.Cell} (a : Nat) (vs : List Byte) (h : Memory.wf m = true) :
    Memory.wf (Memory.writeBytes m a vs) = true := by
  induction vs generalizing m a with
  | nil => exact h
  | cons v rest ih => exact ih _ (Memory.wf_write a v h)

/-- MemWrite lists no address outside its range that was not listed before. -/
theorem Memory.mem_writeBytes {m : List Host.Cell} {a : Nat} {vs : List Byte} {c : Host.Cell}
    (h : c ∈ Memory.writeBytes m a vs) : (a ≤ c.1 ∧ c.1 < a + vs.length) ∨ c ∈ m := by
  induction vs generalizing m a with
  | nil => exact .inr h
  | cons v rest ih =>
    rcases ih h with h | h
    · left; simp only [List.length_cons]; omega
    · rcases Memory.mem_write h with rfl | h
      · left; simp
      · exact .inr h

theorem Memory.range_writeBytes {m : List Host.Cell} {a n : Nat} {vs : List Byte}
    (h : ∀ c ∈ m, c.1 < n) (ha : a + vs.length ≤ n) : ∀ c ∈ Memory.writeBytes m a vs, c.1 < n := by
  intro c hc
  rcases Memory.mem_writeBytes hc with h' | h'
  · omega
  · exact h c h'

/-- What a listed address reads as, in a memory of canonical form. -/
theorem Memory.read_eq_none_of_lt {m : List Host.Cell} {a : Nat} (h : ∀ c ∈ m, a < c.1) : Memory.read m a = none := by
  induction m with
  | nil => rfl
  | cons d rest ih =>
    obtain ⟨k, u⟩ := d
    have hk : a < k := h (k, u) List.mem_cons_self
    rw [Memory.read, if_neg (by omega)]
    exact ih fun c hc => h c (List.mem_cons_of_mem _ hc)

/-- Equal memories are equal data: two canonical lists that read alike everywhere are the same list. -/
theorem Memory.ext_read {m n : List Host.Cell} (hm : Memory.wf m = true) (hn : Memory.wf n = true)
    (h : ∀ a, Memory.read m a = Memory.read n a) : m = n := by
  simp only [Memory.wf, decide_eq_true_eq] at hm hn
  induction m generalizing n with
  | nil =>
    cases n with
    | nil => rfl
    | cons d rest => obtain ⟨k, u⟩ := d; simpa [Memory.read, Memory.unlisted] using h k
  | cons c mrest ih =>
    obtain ⟨k, u⟩ := c
    cases n with
    | nil => simpa [Memory.read, Memory.unlisted] using h k
    | cons d nrest =>
      obtain ⟨l, v⟩ := d
      obtain ⟨hmk, hmr⟩ := List.pairwise_cons.1 hm
      obtain ⟨hnl, hnr⟩ := List.pairwise_cons.1 hn
      have hk := h k
      have hl := h l
      have hkl : k = l := by
        rcases lt_trichotomy k l with hlt | heq | hlt
        · have : Memory.read ((l, v) :: nrest) k = none := by
            apply Memory.read_eq_none_of_lt
            intro c hc
            rcases List.mem_cons.1 hc with rfl | hc
            · exact hlt
            · exact lt_trans hlt (hnl c hc)
          rw [this] at hk
          simp [Memory.read] at hk
        · exact heq
        · have : Memory.read ((k, u) :: mrest) l = none := by
            apply Memory.read_eq_none_of_lt
            intro c hc
            rcases List.mem_cons.1 hc with rfl | hc
            · exact hlt
            · exact lt_trans hlt (hmk c hc)
          rw [this] at hl
          simp [Memory.read] at hl
      subst hkl
      have huv : u = v := by simpa [Memory.read] using hk
      subst huv
      congr 1
      refine ih (fun a => ?_) hmr hnr
      by_cases ha : a = k
      · subst ha
        rw [Memory.read_eq_none_of_lt hmk, Memory.read_eq_none_of_lt hnl]
      · simpa [Memory.read, ha] using h a

/-- Storing the same bytes again changes nothing. -/
theorem Memory.writeBytes_writeBytes {m : List Host.Cell} (a : Nat) (vs : List Byte) (h : Memory.wf m = true) :
    Memory.writeBytes (Memory.writeBytes m a vs) a vs = Memory.writeBytes m a vs := by
  refine Memory.ext_read (Memory.wf_writeBytes a vs (Memory.wf_writeBytes a vs h)) (Memory.wf_writeBytes a vs h) fun b => ?_
  simp only [Memory.read_writeBytes]
  split <;> rfl

/-- The reset memory has the canonical form. -/
@[simp] theorem Memory.wf_nil : Memory.wf [] = true := by decide

/-! ### Bytes of BUF as commands and the host see them -/

theorem bufByte_writeBytes (s t : State) (a b : Nat) (vs : List Byte)
    (hb : t.BUF = Memory.writeBytes s.BUF a vs) (hd : t.draw = s.draw) :
    bufByte t b = if a ≤ b ∧ b < a + vs.length then vs.getD (b - a) 0 else bufByte s b := by
  simp only [bufByte, hb, hd, Memory.read_writeBytes]
  split <;> simp

/-- BUF after a successful completion: the output at DST, every other byte as before. -/
theorem bufByte_completeOk (s : State) (out : List Byte) (b : Nat) :
    bufByte (completeOk s out) b
      = if s.DST.toNat ≤ b ∧ b < s.DST.toNat + out.length then out.getD (b - s.DST.toNat) 0 else bufByte s b :=
  bufByte_writeBytes s _ _ b out rfl rfl

/-- BUF after a command error: unchanged. -/
@[simp] theorem bufByte_raiseError (s : State) (e : CmdError) (b : Nat) : bufByte (raiseError s e) b = bufByte s b := rfl

/-- Only BUF and the draw decide a byte of BUF. -/
theorem bufByte_congr {s t : State} (hb : t.BUF = s.BUF) (hd : t.draw = s.draw) (a : Nat) : bufByte t a = bufByte s a := by
  simp [bufByte, hb, hd]

@[simp] theorem length_memRead (s : State) (a n : Nat) : (memRead s a n).length = n := by simp [memRead]

theorem getElem_memRead (s : State) (a n i : Nat) (h : i < (memRead s a n).length) :
    (memRead s a n)[i] = bufByte s (a + i) := by simp [memRead]

theorem getD_memRead (s : State) (a n i : Nat) (h : i < n) : (memRead s a n).getD i 0 = bufByte s (a + i) := by
  rw [List.getD_eq_getElem _ _ (by simpa using h), getElem_memRead]

/-- MemRead of part of a longer range. -/
theorem take_drop_memRead (s : State) (a n i m : Nat) (h : i + m ≤ n) :
    ((memRead s a n).drop i).take m = memRead s (a + i) m := by
  apply List.ext_getElem
  · simp; omega
  · intro j h1 h2
    simp [memRead, Nat.add_assoc]

/-- Reading back the whole output of a successful completion. -/
theorem memRead_completeOk (s : State) (out : List Byte) : memRead (completeOk s out) s.DST.toNat out.length = out := by
  apply List.ext_getElem
  · simp
  · intro i h1 h2
    rw [getElem_memRead, bufByte_completeOk]
    have : s.DST.toNat ≤ s.DST.toNat + i ∧ s.DST.toNat + i < s.DST.toNat + out.length := by omega
    rw [if_pos this, Nat.add_sub_cancel_left, List.getD_eq_getElem _ _ h2]

end Sys2Proof.Machine
end

