-- ==== Sys2Proof/Laws/Commands.lean ====
section
/-! SUPPORT. What each command's Exec returns, said once: the cascade of its checks, and when it succeeds with which output. -/

namespace Sys2Proof.Machine

open Sys2Proof

/-! ### The shared checks -/

@[simp] theorem require_true (e : CmdError) : require true e = .ok () := rfl
@[simp] theorem require_false (e : CmdError) : require false e = .error e := rfl

theorem require_bind {α : Type} (ok : Bool) (e : CmdError) (k : Except CmdError α) :
    (do require ok e; k) = if ok = true then k else .error e := by cases ok <;> rfl

theorem placeOutput_ok_iff (s : State) (out out' : List Byte) :
    placeOutput s out = .ok out' ↔ s.DST.toNat + out.length ≤ s.inst.BUF_BYTES ∧ out' = out := by
  unfold placeOutput
  split <;> simp_all [eq_comm]

theorem placeOutput_error (s : State) (out : List Byte) (e : CmdError) (h : placeOutput s out = .error e) : e = .dstRange := by
  unfold placeOutput at h
  split at h <;> cases h
  rfl

@[simp] theorem length_inputBytes (s : State) : (inputBytes s).length = s.LEN.toNat := by simp [inputBytes]

theorem getD_inputBytes (s : State) (i : Nat) (h : i < s.LEN.toNat) : (inputBytes s).getD i 0 = bufByte s (s.SRC.toNat + i) :=
  getD_memRead s _ _ _ h

theorem blk_inputBytes (s : State) (B i : Nat) (h : (i + 1) * B ≤ s.LEN.toNat) :
    blk B (inputBytes s) i = memRead s (s.SRC.toNat + i * B) B :=
  take_drop_memRead s _ _ _ _ (by have : (i + 1) * B = i * B + B := by ring
                                  omega)

/-! ### The cascade of each command (40_command_execution.md R93) -/

theorem padResult_eq (pbs : BitVec 8) (s : State) : padResult pbs s =
    if pbs = 0 then .error .illegalCmd
    else if s.inst.BUF_BYTES < s.SRC.toNat + s.LEN.toNat then .error .srcRange
    else placeOutput s (padBytes (inputBytes s) pbs.toNat) := by
  simp only [padResult, requireSource, require_bind, decide_eq_true_eq, bne_iff_ne, ne_eq, ite_not, ← Nat.not_lt]

theorem unpadResult_eq (chk : PadCheck) (s : State) : unpadResult chk s =
    if s.inst.BUF_BYTES < s.SRC.toNat + s.LEN.toNat then .error .srcRange
    else if s.LEN.toNat = 0 then .error .length
    else (unpadBytes (inputBytes s) chk).bind (placeOutput s) := by
  simp only [unpadResult, requireSource, requireNonempty, require_bind, decide_eq_true_eq, ne_eq, ite_not, ← Nat.not_lt]
  rfl

theorem ecbEncResult_eq (s : State) : ecbEncResult s =
    if keyValid s = false then .error .noKey
    else if s.inst.BUF_BYTES < s.SRC.toNat + s.LEN.toNat then .error .srcRange
    else if s.LEN.toNat % s.inst.B ≠ 0 then .error .length
    else placeOutput s (ecbEncrypt s.inst s.KEY (inputBytes s)) := by
  simp only [ecbEncResult, requireKey, requireSource, requireBlocks, require_bind, decide_eq_true_eq, ne_eq, ite_not,
    ← Nat.not_lt, ← Bool.not_eq_true]

theorem ecbDecResult_eq (s : State) : ecbDecResult s =
    if keyValid s = false then .error .noKey
    else if s.inst.BUF_BYTES < s.SRC.toNat + s.LEN.toNat then .error .srcRange
    else if s.LEN.toNat % s.inst.B ≠ 0 then .error .length
    else placeOutput s (ecbDecrypt s.inst s.KEY (inputBytes s)) := by
  simp only [ecbDecResult, requireKey, requireSource, requireBlocks, require_bind, decide_eq_true_eq, ne_eq, ite_not,
    ← Nat.not_lt, ← Bool.not_eq_true]

theorem cbcEncResult_eq (s : State) : cbcEncResult s =
    if keyValid s = false then .error .noKey
    else if ivValid s = false then .error .noIv
    else if s.inst.BUF_BYTES < s.SRC.toNat + s.LEN.toNat then .error .srcRange
    else placeOutput s (cbcEncrypt s.inst s.KEY s.IV (inputBytes s)) := by
  simp only [cbcEncResult, requireKey, requireIv, requireSource, require_bind, decide_eq_true_eq, ite_not,
    ← Nat.not_lt, ← Bool.not_eq_true]

theorem cbcDecResult_eq (chk : PadCheck) (s : State) : cbcDecResult chk s =
    if keyValid s = false then .error .noKey
    else if ivValid s = false then .error .noIv
    else if s.inst.BUF_BYTES < s.SRC.toNat + s.LEN.toNat then .error .srcRange
    else if s.LEN.toNat = 0 ∨ s.LEN.toNat % s.inst.B ≠ 0 then .error .length
    else (cbcDecrypt s.inst s.KEY s.IV (inputBytes s) chk).bind (placeOutput s) := by
  simp only [cbcDecResult, requireKey, requireIv, requireSource, requireNonempty, requireBlocks, require_bind,
    decide_eq_true_eq, ne_eq, ite_not, ← Nat.not_lt, ← Bool.not_eq_true]
  by_cases h : s.LEN.toNat = 0
  · simp [h]
  · simp [h]; rfl

/-! ### All six at once -/

/-- What Exec returns for a command. -/
def resultOf (i : Instr) (s : State) : Except CmdError (List Byte) :=
  match i with
  | .pad pbs => padResult pbs s
  | .unpad chk => unpadResult chk s
  | .ecbEnc => ecbEncResult s
  | .ecbDec => ecbDecResult s
  | .cbcEnc => cbcEncResult s
  | .cbcDec chk => cbcDecResult chk s

/-- Every command completes: exec is the Complete step for what Exec returns (R91). -/
theorem exec_eq (i : Instr) (s : State) : exec i s = .next (finish s (resultOf i s)) := by cases i <;> rfl

theorem exec_next_iff (i : Instr) (s t : State) : exec i s = .next t ↔ t = finish s (resultOf i s) := by
  rw [exec_eq]
  constructor
  · intro h; cases h; rfl
  · rintro rfl; rfl

/-- Exec reads only the operands, the key and IV with their masks, the instance and BUF. -/
theorem placeOutput_of_bind {s : State} {r : Except CmdError (List Byte)} {out : List Byte}
    (h : r.bind (placeOutput s) = .ok out) : r = .ok out ∧ s.DST.toNat + out.length ≤ s.inst.BUF_BYTES := by
  cases r with
  | error e => cases h
  | ok o =>
    obtain ⟨h1, rfl⟩ := (placeOutput_ok_iff _ _ _).1 h
    exact ⟨rfl, h1⟩

/-- An output that Exec returns fits in BUF at DST (R99, 20_memory.md R59). -/
theorem resultOf_fits {i : Instr} {s : State} {out : List Byte} (h : resultOf i s = .ok out) :
    s.DST.toNat + out.length ≤ s.inst.BUF_BYTES := by
  have hp {o : List Byte} (h : placeOutput s o = .ok out) : s.DST.toNat + out.length ≤ s.inst.BUF_BYTES := by
    obtain ⟨h1, rfl⟩ := (placeOutput_ok_iff _ _ _).1 h
    exact h1
  cases i with
  | pad pbs => rw [resultOf, padResult_eq] at h; split_ifs at h; exact hp h
  | unpad chk => rw [resultOf, unpadResult_eq] at h; split_ifs at h; exact (placeOutput_of_bind h).2
  | ecbEnc => rw [resultOf, ecbEncResult_eq] at h; split_ifs at h; exact hp h
  | ecbDec => rw [resultOf, ecbDecResult_eq] at h; split_ifs at h; exact hp h
  | cbcEnc => rw [resultOf, cbcEncResult_eq] at h; split_ifs at h; exact hp h
  | cbcDec chk => rw [resultOf, cbcDecResult_eq] at h; split_ifs at h; exact (placeOutput_of_bind h).2

/-- No output is longer than RLEN can say (10_state.md R33). -/
theorem length_lt_of_fits {p : Params} (hp : p.legal = true) {d n : Nat} (h : d + n ≤ p.BUF_BYTES) : n < 2 ^ 32 := by
  have := (legal_bounds hp).2.2.2.2.2.1
  omega

/-- The Complete step writes an output or raises an error. -/
theorem finish_cases (s : State) (r : Except CmdError (List Byte)) :
    (∃ out, r = .ok out ∧ finish s r = completeOk s out) ∨ ∃ e, r = .error e ∧ finish s r = raiseError s e := by
  cases r with
  | ok out => exact .inl ⟨out, rfl, rfl⟩
  | error e => exact .inr ⟨e, rfl, rfl⟩

/-- A command whose Exec returns an output: its registers, and the output at DST byte by byte. -/
theorem exec_of_ok {s : State} (hl : s.inst.legal = true) {i : Instr} {out : List Byte} (h : resultOf i s = .ok out) :
    exec i s = .next (completeOk s out) ∧ (completeOk s out).RLEN.toNat = out.length
      ∧ ∀ j, j < out.length → bufByte (completeOk s out) (s.DST.toNat + j) = out.getD j 0 := by
  have hf := length_lt_of_fits hl (resultOf_fits h)
  refine ⟨by rw [exec_eq, h]; rfl, by simp; omega, fun j hj => ?_⟩
  rw [bufByte_completeOk, if_pos ⟨by omega, by omega⟩, Nat.add_sub_cancel_left]

/-! ### Output lengths (R98) -/

theorem length_ecbEncrypt {p : Params} (hp : p.legal = true) {k : List Byte} (hk : k.length = p.KLEN) (x : List Byte)
    (hx : x.length % p.B = 0) : (ecbEncrypt p k x).length = x.length := by
  rw [ecbEncrypt, length_mapBlocks fun b hb => length_encryptBlock hp hk hb]
  exact Nat.div_mul_cancel (Nat.dvd_of_mod_eq_zero hx)

theorem length_ecbDecrypt {p : Params} (hp : p.legal = true) {k : List Byte} (hk : k.length = p.KLEN) (x : List Byte)
    (hx : x.length % p.B = 0) : (ecbDecrypt p k x).length = x.length := by
  rw [ecbDecrypt, length_mapBlocks fun b hb => length_decryptBlock hp hk hb]
  exact Nat.div_mul_cancel (Nat.dvd_of_mod_eq_zero hx)

theorem length_cbcEncrypt {p : Params} (hp : p.legal = true) {k iv : List Byte} (hk : k.length = p.KLEN)
    (hiv : iv.length = p.B) (x : List Byte) : (cbcEncrypt p k iv x).length = x.length + (p.B - x.length % p.B) := by
  have hB : 0 < p.B := (legal_bounds hp).1
  rw [cbcEncrypt, length_flatten_blocks (B := p.B), length_cbcChain, length_blocksOf,
    Nat.div_mul_cancel (Nat.dvd_of_mod_eq_zero (length_padBytes_mod hB x)), length_padBytes]
  exact length_of_mem_cbcChain (fun b hb => length_encryptBlock hp hk hb) hiv fun q hq => length_of_mem_blocksOf hq

theorem length_cbcPlain {p : Params} (hp : p.legal = true) {k iv : List Byte} (hk : k.length = p.KLEN)
    (hiv : iv.length = p.B) (y : List Byte) (hy : y.length % p.B = 0) : (cbcPlain p k iv y).length = y.length := by
  rw [cbcPlain, length_flatten_blocks (B := p.B), length_cbcUnchain, length_blocksOf,
    Nat.div_mul_cancel (Nat.dvd_of_mod_eq_zero hy)]
  exact length_of_mem_cbcUnchain (fun b hb => length_decryptBlock hp hk hb) hiv fun q hq => length_of_mem_blocksOf hq

end Sys2Proof.Machine
end

