-- ==== Sys2Proof/Laws/PerInstr.lean ====
section
/-! SUPPORT. Statements made per constructor of Instr. -/

namespace Sys2Proof.Laws

open Sys2Proof

/-- Family EncodeWellFormed: the word of a well-formed command satisfies WF of 30_encoding.md R74. -/
def EncodeWellFormed.Statement (i : Instr) : Prop := i.wf = true → wordWF (encode i) = true

theorem EncodeWellFormed.pad (pbs : BitVec 8) : EncodeWellFormed.Statement (.pad pbs) := by
  have h : ∀ b : BitVec 8, (Instr.pad b).wf = true → wordWF (encode (.pad b)) = true := by decide +kernel
  exact h pbs

theorem EncodeWellFormed.unpad (chk : PadCheck) : EncodeWellFormed.Statement (.unpad chk) := by
  cases chk <;> (intro _; decide)

theorem EncodeWellFormed.ecbEnc : EncodeWellFormed.Statement .ecbEnc := by intro _; decide

theorem EncodeWellFormed.ecbDec : EncodeWellFormed.Statement .ecbDec := by intro _; decide

theorem EncodeWellFormed.cbcEnc : EncodeWellFormed.Statement .cbcEnc := by intro _; decide

theorem EncodeWellFormed.cbcDec (chk : PadCheck) : EncodeWellFormed.Statement (.cbcDec chk) := by
  cases chk <;> (intro _; decide)

end Sys2Proof.Laws
end

