-- ==== Sys2Proof/Laws/Port.lean ====
section
/-! SUPPORT. The host port: the target of each offset, the bytes of a window word, and what an accepted access does. -/

namespace Sys2Proof.Machine

open Sys2Proof

/-! ### The register map, offset by offset (10_state.md R23) -/

theorem targetAt_id {s : State} {w : WordAddr} (h : byteOffset w = 0x000) : targetAt s w = .id := by simp [targetAt, targetOf, h]
theorem targetAt_info {s : State} {w : WordAddr} (h : byteOffset w = 0x004) : targetAt s w = .info := by simp [targetAt, targetOf, h]
theorem targetAt_bufsz {s : State} {w : WordAddr} (h : byteOffset w = 0x008) : targetAt s w = .bufsz := by simp [targetAt, targetOf, h]
theorem targetAt_ctrl {s : State} {w : WordAddr} (h : byteOffset w = 0x00C) : targetAt s w = .ctrl := by simp [targetAt, targetOf, h]
theorem targetAt_status {s : State} {w : WordAddr} (h : byteOffset w = 0x010) : targetAt s w = .status := by simp [targetAt, targetOf, h]
theorem targetAt_cmd {s : State} {w : WordAddr} (h : byteOffset w = 0x014) : targetAt s w = .cmd := by simp [targetAt, targetOf, h]
theorem targetAt_src {s : State} {w : WordAddr} (h : byteOffset w = 0x018) : targetAt s w = .src := by simp [targetAt, targetOf, h]
theorem targetAt_len {s : State} {w : WordAddr} (h : byteOffset w = 0x01C) : targetAt s w = .len := by simp [targetAt, targetOf, h]
theorem targetAt_dst {s : State} {w : WordAddr} (h : byteOffset w = 0x020) : targetAt s w = .dst := by simp [targetAt, targetOf, h]
theorem targetAt_rlen {s : State} {w : WordAddr} (h : byteOffset w = 0x024) : targetAt s w = .rlen := by simp [targetAt, targetOf, h]

theorem targetAt_key {s : State} {w : WordAddr} {k : Nat} (hk : k < 64) (h : byteOffset w = 0x100 + 4 * k) :
    targetAt s w = .key k := by
  unfold targetAt targetOf
  rw [h]
  iterate 11 rw [if_neg (by omega)]
  rw [if_pos (by omega)]
  congr 1
  omega

theorem targetAt_iv {s : State} {w : WordAddr} {k : Nat} (hk : k < 64) (h : byteOffset w = 0x200 + 4 * k) :
    targetAt s w = .iv k := by
  unfold targetAt targetOf
  rw [h]
  iterate 12 rw [if_neg (by omega)]
  rw [if_pos (by omega)]
  congr 1
  omega

theorem targetAt_buf {s : State} {w : WordAddr} {k : Nat} (hk : 4 * k < s.inst.BUF_BYTES) (h : byteOffset w = 0x100000 + 4 * k) :
    targetAt s w = .buf k := by
  unfold targetAt targetOf
  rw [h]
  iterate 14 rw [if_neg (by omega)]
  rw [if_pos (by omega)]
  congr 1
  omega

/-- The map read backwards: what the target says of the offset. -/
theorem offset_of_target (s : State) (w : WordAddr) :
    match targetAt s w with
    | .id => byteOffset w = 0x000
    | .info => byteOffset w = 0x004
    | .bufsz => byteOffset w = 0x008
    | .ctrl => byteOffset w = 0x00C
    | .status => byteOffset w = 0x010
    | .cmd => byteOffset w = 0x014
    | .src => byteOffset w = 0x018
    | .len => byteOffset w = 0x01C
    | .dst => byteOffset w = 0x020
    | .rlen => byteOffset w = 0x024
    | .key k => byteOffset w = 0x100 + 4 * k ∧ k < 64
    | .iv k => byteOffset w = 0x200 + 4 * k ∧ k < 64
    | .buf k => byteOffset w = 0x100000 + 4 * k ∧ byteOffset w < 0x100000 + s.inst.BUF_BYTES
    | .reserved => (0x028 ≤ byteOffset w ∧ byteOffset w < 0x100) ∨ (0x300 ≤ byteOffset w ∧ byteOffset w < 0x100000)
        ∨ 0x100000 + s.inst.BUF_BYTES ≤ byteOffset w := by
  have h4 : byteOffset w % 4 = 0 := by unfold byteOffset; omega
  unfold targetAt targetOf
  generalize byteOffset w = o at h4 ⊢
  by_cases h0 : o = 0x000
  · rw [if_pos h0]; exact h0
  rw [if_neg h0]
  by_cases h1 : o = 0x004
  · rw [if_pos h1]; exact h1
  rw [if_neg h1]
  by_cases h2 : o = 0x008
  · rw [if_pos h2]; exact h2
  rw [if_neg h2]
  by_cases h3 : o = 0x00C
  · rw [if_pos h3]; exact h3
  rw [if_neg h3]
  by_cases h5 : o = 0x010
  · rw [if_pos h5]; exact h5
  rw [if_neg h5]
  by_cases h6 : o = 0x014
  · rw [if_pos h6]; exact h6
  rw [if_neg h6]
  by_cases h7 : o = 0x018
  · rw [if_pos h7]; exact h7
  rw [if_neg h7]
  by_cases h8 : o = 0x01C
  · rw [if_pos h8]; exact h8
  rw [if_neg h8]
  by_cases h9 : o = 0x020
  · rw [if_pos h9]; exact h9
  rw [if_neg h9]
  by_cases h10 : o = 0x024
  · rw [if_pos h10]; exact h10
  rw [if_neg h10]
  by_cases h11 : o < 0x100
  · rw [if_pos h11]; exact .inl ⟨by omega, h11⟩
  rw [if_neg h11]
  by_cases h12 : o < 0x200
  · rw [if_pos h12]; exact ⟨by omega, by omega⟩
  rw [if_neg h12]
  by_cases h13 : o < 0x300
  · rw [if_pos h13]; exact ⟨by omega, by omega⟩
  rw [if_neg h13]
  by_cases h14 : o < 0x100000
  · rw [if_pos h14]; exact .inr (.inl ⟨by omega, h14⟩)
  rw [if_neg h14]
  by_cases h15 : o < 0x100000 + s.inst.BUF_BYTES
  · rw [if_pos h15]; exact ⟨by omega, h15⟩
  rw [if_neg h15]
  exact .inr (.inr (by omega))

/-! ### Little-endian words (20_memory.md R52) -/

theorem toNat_wordOfBytes (b0 b1 b2 b3 : Byte) :
    (wordOfBytes b0 b1 b2 b3).toNat = b0.toNat + 2 ^ 8 * b1.toNat + 2 ^ 16 * b2.toNat + 2 ^ 24 * b3.toNat := by
  have h0 := b0.isLt
  have h1 := b1.isLt
  have h2 := b2.isLt
  unfold wordOfBytes
  rw [BitVec.toNat_append, BitVec.toNat_append, BitVec.toNat_append,
    ← Nat.shiftLeft_add_eq_or_of_lt h0, ← Nat.shiftLeft_add_eq_or_of_lt h1, ← Nat.shiftLeft_add_eq_or_of_lt h2]
  simp only [Nat.shiftLeft_eq]
  ring

@[simp] theorem length_setWindowWord (bytes : List Byte) (w : Nat) (v : Word) : (setWindowWord bytes w v).length = bytes.length := by
  simp [setWindowWord]

/-- A window write sets the bytes of its word that exist, and no other. -/
theorem getD_setWindowWord (bytes : List Byte) (w : Nat) (v : Word) (j : Nat) (hj : j < bytes.length) :
    (setWindowWord bytes w v).getD j 0 = if j / 4 = w then wordByte v (j % 4) else bytes.getD j 0 := by
  have e (l : List Byte) (hl : j < l.length) : l.getD j 0 = l[j] := List.getD_eq_getElem _ _ hl
  rw [e _ (by simpa using hj), e _ hj]
  simp only [setWindowWord, List.getElem_set]
  by_cases h : j / 4 = w
  · rw [if_pos h]
    rcases (by omega : j = 4 * w ∨ j = 4 * w + 1 ∨ j = 4 * w + 2 ∨ j = 4 * w + 3) with rfl | rfl | rfl | rfl
    · have : 4 * w % 4 = 0 := by omega
      simp [this]
    · have : (4 * w + 1) % 4 = 1 := by omega
      simp [this]
    · have : (4 * w + 2) % 4 = 2 := by omega
      simp [this]
    · have : (4 * w + 3) % 4 = 3 := by omega
      simp [this]
  · rw [if_neg h, if_neg (by omega), if_neg (by omega), if_neg (by omega), if_neg (by omega)]

theorem setWindowWord_setWindowWord (bytes : List Byte) (w : Nat) (v : Word) :
    setWindowWord (setWindowWord bytes w v) w v = setWindowWord bytes w v := by
  apply List.ext_getElem
  · simp
  · intro j h1 h2
    have hb : j < bytes.length := by simpa using h2
    have e1 := getD_setWindowWord (setWindowWord bytes w v) w v j (by simpa using hb)
    have e2 := getD_setWindowWord bytes w v j hb
    rw [List.getD_eq_getElem _ _ h1] at e1
    rw [List.getD_eq_getElem _ _ h2] at e2
    rw [e1, e2, List.getD_eq_getElem _ _ h2, e2]
    split <;> rfl

/-- The bytes of BUF after a window write. -/
theorem bufByte_storeBuf (s : State) (w : Nat) (v : Word) (a : Nat) :
    bufByte (storeBuf s w v) a = if a / 4 = w then wordByte v (a % 4) else bufByte s a := by
  rw [bufByte_writeBytes s (storeBuf s w v) (4 * w) a _ rfl rfl]
  by_cases h : a / 4 = w
  · rw [if_pos h, if_pos ⟨by omega, by simp only [List.length_cons, List.length_nil]; omega⟩]
    rcases (by omega : a = 4 * w ∨ a = 4 * w + 1 ∨ a = 4 * w + 2 ∨ a = 4 * w + 3) with rfl | rfl | rfl | rfl
    · have : 4 * w % 4 = 0 := by omega
      simp [this]
    · have : (4 * w + 1) % 4 = 1 := by omega
      simp [this]
    · have : (4 * w + 2) % 4 = 2 := by omega
      simp [this]
    · have : (4 * w + 3) % 4 = 3 := by omega
      simp [this]
  · rw [if_neg h, if_neg]
    simp only [List.length_cons, List.length_nil]
    omega

/-! ### Accesses whose target is known -/

theorem hostRead_accepted {s : State} {w : WordAddr} {t : Target} (ht : targetAt s w = t) (h : readAccepted s.BUSY t = true) :
    hostRead s w = respond s (.okRead (readWord s t)) := by simp [hostRead, ht, h]

theorem hostRead_refused {s : State} {w : WordAddr} {t : Target} (ht : targetAt s w = t) (h : readAccepted s.BUSY t = false) :
    hostRead s w = refuseAccess s := by simp [hostRead, ht, h]

theorem hostWrite_accepted {s : State} {w : WordAddr} {v : Word} {t : Target} (ht : targetAt s w = t)
    (h : writeAccepted s.BUSY t v = true) : hostWrite s w v = respond (writeEffect s t v) .okWrite := by
  simp [hostWrite, ht, h]

theorem hostWrite_refused {s : State} {w : WordAddr} {v : Word} {t : Target} (ht : targetAt s w = t)
    (h : writeAccepted s.BUSY t v = false) : hostWrite s w v = refuseAccess s := by simp [hostWrite, ht, h]

end Sys2Proof.Machine
end

