-- ==== Sys2Proof/Laws/Step.lean ====
section
/-! SUPPORT. What one step can do, said once: the cases of an event, a turn of the unit and a host access. -/

namespace Sys2Proof.Machine

open Sys2Proof

/-- A host access is refused with HERR, or answered OK with the effect of its target (20_memory.md R51, R54). -/
theorem hostAccess_cases (s : State) (a : Access) :
    hostAccess s a = refuseAccess s
    ∨ (∃ w, a = .rd w ∧ readAccepted s.BUSY (targetAt s w) = true
        ∧ hostAccess s a = respond s (.okRead (readWord s (targetAt s w))))
    ∨ (∃ w v, a = .wr w v ∧ writeAccepted s.BUSY (targetAt s w) v = true
        ∧ hostAccess s a = respond (writeEffect s (targetAt s w) v) .okWrite) := by
  cases a with
  | rd w =>
    by_cases h : readAccepted s.BUSY (targetAt s w) = true
    · exact .inr (.inl ⟨w, rfl, h, by simp [hostAccess, hostRead, h]⟩)
    · exact .inl (by simp [hostAccess, hostRead, h])
  | wr w v =>
    by_cases h : writeAccepted s.BUSY (targetAt s w) v = true
    · exact .inr (.inr ⟨w, v, rfl, h, by simp [hostAccess, hostWrite, h]⟩)
    · exact .inl (by simp [hostAccess, hostWrite, h])

/-- A turn of the unit passes, or is the Complete step of the latched word (40_command_execution.md R91). -/
theorem unitStep_cases {s t : State} (h : unitStep s = .next t) :
    (s.BUSY = false ∧ t = s)
    ∨ (s.BUSY = true ∧ ((∃ i, decode s.CMDL = .ok i ∧ t = finish s (resultOf i s))
        ∨ ∃ e, decode s.CMDL = .error e ∧ t = raiseError s .illegalCmd)) := by
  unfold unitStep completeStep at h
  cases hb : s.BUSY with
  | false => simp only [hb, Bool.false_eq_true, if_false] at h; cases h; exact .inl ⟨rfl, rfl⟩
  | true =>
    simp only [hb, if_true] at h
    cases hd : decode s.CMDL with
    | ok i =>
      simp only [hd] at h
      exact .inr ⟨rfl, .inl ⟨i, rfl, (exec_next_iff i s t).1 h⟩⟩
    | error e =>
      simp only [hd] at h
      cases h
      exact .inr ⟨rfl, .inr ⟨e, rfl, rfl⟩⟩

/-- A turn of the unit always gives a next state. -/
theorem unitStep_total (s : State) : ∃ t, unitStep s = .next t := by
  unfold unitStep completeStep
  split
  · split
    · next i _ => exact ⟨_, exec_eq i s⟩
    · exact ⟨_, rfl⟩
  · exact ⟨_, rfl⟩

/-- One step: a host access, a reset, or a turn of the unit (20_memory.md R63). -/
theorem step_cases {s t : State} (h : step s = .next t) :
    (∃ a rest, s.env = .host a :: rest ∧ t = hostAccess { s with env := rest } a)
    ∨ (∃ rest, s.env = .reset :: rest ∧ t = applyReset { s with env := rest })
    ∨ (∃ rest, (s.env = .unitTurn :: rest ∨ (s.env = [] ∧ rest = [])) ∧ unitStep { s with env := rest } = .next t) := by
  unfold step at h
  cases he : s.env with
  | nil =>
    refine .inr (.inr ⟨[], .inr ⟨rfl, rfl⟩, ?_⟩)
    have : { s with env := [] } = s := by cases s; simp_all
    rw [this]
    simpa [he] using h
  | cons e rest =>
    simp only [he] at h
    cases e with
    | host a => simp only [eventStep] at h; cases h; exact .inl ⟨a, rest, rfl, rfl⟩
    | unitTurn => exact .inr (.inr ⟨rest, .inl rfl, h⟩)
    | reset => simp only [eventStep] at h; cases h; exact .inr (.inl ⟨rest, rfl, rfl⟩)

/-- Every step gives a next state: the machine never stops itself (93_implementation_defined.md). -/
theorem step_total (s : State) : ∃ t, step s = .next t := by
  unfold step
  split
  · exact unitStep_total s
  · next e rest _ =>
    cases e with
    | host a => exact ⟨_, rfl⟩
    | unitTurn => exact unitStep_total _
    | reset => exact ⟨_, rfl⟩

/-- A run of k + 1 steps is a step and then a run of k. -/
theorem run_succ_of_step (k : Nat) {s t : State} (h : step s = .next t) :
    Sys2Proof.core.run (k + 1) s = Sys2Proof.core.run k t := by
  have h' : Sys2Proof.core.step s = .next t := h
  simp only [Host.Core.run, h']

/-- After a turn of the unit BUSY = 0, and no event has been taken or added. -/
theorem unitStep_idle {s t : State} (h : unitStep s = .next t) : t.BUSY = false ∧ t.env = s.env := by
  rcases unitStep_cases h with ⟨hb, rfl⟩ | ⟨-, ⟨i, -, rfl⟩ | ⟨e, -, rfl⟩⟩
  · exact ⟨hb, rfl⟩
  · exact ⟨finish_BUSY s _, finish_env s _⟩
  · exact ⟨rfl, rfl⟩

/-- A host access takes no event and adds none. -/
@[simp] theorem hostAccess_env (s : State) (a : Access) : (hostAccess s a).env = s.env := by
  rcases hostAccess_cases s a with h | ⟨w, -, -, h⟩ | ⟨w, v, -, -, h⟩ <;> simp [h]

/-- A host access leaves the instance alone. -/
@[simp] theorem hostAccess_inst (s : State) (a : Access) : (hostAccess s a).inst = s.inst := by
  rcases hostAccess_cases s a with h | ⟨w, -, -, h⟩ | ⟨w, v, -, -, h⟩ <;> simp [h]

end Sys2Proof.Machine
end

