-- ==== Sys2Proof/Tests/Slice0.lean ====
section
/-! SUPPORT. The model's own tests: words and vectors of spec/95_test_vectors.md, and a witness for the hypotheses of every statement. -/

namespace Sys2Proof.Tests

open Sys2Proof Sys2Proof.Machine Sys2Proof.Rules

/-! ### Small states -/

/-- The TOY instance with the key and IV of 95_test_vectors.md section 1, the input at src, and its operands. -/
def toyReady (src len dst : Nat) (input : List Byte) : State :=
  { State.afterReset Params.toy 0 [] with
    KEY := [0x01, 0x02, 0x03, 0x04], KEYM := [true], IV := [0x10, 0x20, 0x30, 0x40], IVM := [true]
    SRC := BitVec.ofNat 32 src, LEN := BitVec.ofNat 32 len, DST := BitVec.ofNat 32 dst
    BUF := Memory.writeBytes [] src input }

/-- The default instance with the key "YELLOW SUBMARINE" and a zero IV. -/
def aesReady (len dst : Nat) (input : List Byte) : State :=
  { State.reset with
    KEY := [0x59, 0x45, 0x4C, 0x4C, 0x4F, 0x57, 0x20, 0x53, 0x55, 0x42, 0x4D, 0x41, 0x52, 0x49, 0x4E, 0x45]
    KEYM := [true, true, true, true], IVM := [true, true, true, true]
    LEN := BitVec.ofNat 32 len, DST := BitVec.ofNat 32 dst, BUF := Memory.writeBytes [] 0 input }

/-- The WIN instance after reset, with one event pending. -/
def winWith (e : Event) : State := State.afterReset Params.win 0 [e]

/-- The state an outcome holds. -/
def after (o : Host.Outcome State Fault Refusal) : State :=
  match o with
  | .next t => t
  | .fault _ => State.reset
  | .refused _ => State.reset

/-- What the vector tables list of a completion: ERR, RLEN, the output, STATUS. -/
def seen (t : State) : BitVec 4 × Nat × List Byte × Word :=
  (t.ERR, t.RLEN.toNat, memRead t t.DST.toNat t.RLEN.toNat, statusWord t)

/-- The completion of a command word, run by the very next step. -/
def complete (s : State) (word : Nat) : BitVec 4 × Nat × List Byte × Word := seen (after (step (s.withFetchWord 32 word)))

def hello : List Byte := [0x48, 0x45, 0x4C, 0x4C, 0x4F]
def helloPadded : List Byte := [0x48, 0x45, 0x4C, 0x4C, 0x4F, 0x03, 0x03, 0x03]
def helloCbc : List Byte := [0x64, 0x7E, 0x0F, 0x5C, 0x7C, 0x0E, 0x5C, 0x2F]
def twice : List Byte := [0x41, 0x42, 0x43, 0x44, 0x41, 0x42, 0x43, 0x44]
def twiceEcb : List Byte := [0x43, 0x41, 0x47, 0x45, 0x43, 0x41, 0x47, 0x45]
def yellow : List Byte := [0x59, 0x45, 0x4C, 0x4C, 0x4F, 0x57, 0x20, 0x53, 0x55, 0x42, 0x4D, 0x41, 0x52, 0x49, 0x4E, 0x45]

/-! ### WellFormed and Decode -/

/-- The one ill-formed term: PAD with PBS = 0 (30_encoding.md R74). -/
theorem test_wf_refuses_pad_zero : (Instr.pad 0).wf = false ∧ (Instr.pad 1).wf = true ∧ (Instr.pad 255).wf = true := by decide

/-- Words written from the fields of R71: PBS in [15:8], CHK in [4], OP in [3:0]. -/
theorem test_decode_pad : decode 0b0000000000000000_00000100_000_0_0001#32 = .ok (.pad 4) := by decide
theorem test_decode_unpad : decode 0b0000000000000000_00000000_000_1_0010#32 = .ok (.unpad .strict) := by decide
theorem test_decode_ecb_enc : decode 0b0000000000000000_00000000_000_0_0011#32 = .ok .ecbEnc := by decide
theorem test_decode_ecb_dec : decode 0b0000000000000000_00000000_000_0_0100#32 = .ok .ecbDec := by decide
theorem test_decode_cbc_enc : decode 0b0000000000000000_00000000_000_0_0101#32 = .ok .cbcEnc := by decide
theorem test_decode_cbc_dec : decode 0b0000000000000000_00000000_000_0_0110#32 = .ok (.cbcDec .lenient) := by decide
theorem test_decode_cbc_dec_chk : decode 0b0000000000000000_00000000_000_1_0110#32 = .ok (.cbcDec .strict) := by decide
/-- The illegal rows of 3.3 and 3.2: OP 7, reserved bit 16, CHK on PAD, PBS on UNPAD. -/
theorem test_decode_refuses : decode 0x00000007 = .error .reservedOp ∧ decode 0x00010003 = .error .reservedBits
    ∧ decode 0x00000411 = .error .chkNotAllowed ∧ decode 0x00000102 = .error .pbsNotAllowed := by decide

/-! ### The commands, against the vectors of 95_test_vectors.md 3.2 and 4 -/

/-- PAD-11: the output fits exactly. -/
theorem test_pad_fits_exactly : complete (toyReady 0 5 56 hello) 0x00000401 = (0, 8, helloPadded, 0x0000000E) := by decide +kernel
/-- PAD-10: one word further it does not. -/
theorem test_pad_output_past_end : complete (toyReady 0 5 60 hello) 0x00000401 = (7, 0, [], 0x0000007E) := by decide +kernel
/-- UNP-3. -/
theorem test_unpad_strict_mismatch : complete (toyReady 0 3 16 [0x41, 0x42, 0x02]) 0x00000012 = (6, 0, [], 0x0000006E) := by
  decide +kernel
/-- UNP-4. -/
theorem test_unpad_lenient_same_input : complete (toyReady 0 3 16 [0x41, 0x42, 0x02]) 0x00000002 = (0, 1, [0x41], 0x0000000E) := by
  decide +kernel
/-- ECB-2, in place. -/
theorem test_ecb_enc_in_place : complete (toyReady 0 8 0 twice) 0x00000003 = (0, 8, twiceEcb, 0x0000000E) := by decide +kernel
/-- AES1, its first block. -/
theorem test_ecb_enc_aes : complete (aesReady 16 16 yellow) 0x00000003
    = (0, 16, [0xD1, 0xAA, 0x4F, 0x65, 0x78, 0x92, 0x65, 0x42, 0xFB, 0xB6, 0xDD, 0x87, 0x6C, 0xD2, 0x05, 0x08], 0x0000000E) := by
  decide +kernel
/-- ECB-7. -/
theorem test_ecb_dec_one_block : complete (toyReady 0 4 16 [0x43, 0x41, 0x47, 0x45]) 0x00000004
    = (0, 4, [0x41, 0x42, 0x43, 0x44], 0x0000000E) := by decide +kernel
/-- AES2. -/
theorem test_ecb_dec_aes : complete (aesReady 16 16 (List.replicate 16 0)) 0x00000004
    = (0, 16, [0x6D, 0xF0, 0x67, 0xA4, 0x81, 0x74, 0x79, 0xAC, 0xAF, 0xB3, 0x2A, 0x51, 0xE1, 0x0E, 0xC4, 0x42], 0x0000000E) := by
  decide +kernel
/-- CBC-6, in place with an output longer than the input. -/
theorem test_cbc_enc_in_place : complete (toyReady 0 5 0 hello) 0x00000005 = (0, 8, helloCbc, 0x0000000E) := by decide +kernel
/-- CBC-5: NOKEY comes before NOIV. -/
theorem test_cbc_enc_no_key : complete { toyReady 0 5 16 hello with KEYM := [false], IVM := [false] } 0x00000005
    = (2, 0, [], 0x00000022) := by decide +kernel
/-- CBC-8. -/
theorem test_cbc_dec_strict : complete (toyReady 0 8 16 helloCbc) 0x00000016 = (0, 5, hello, 0x0000000E) := by decide +kernel
/-- CBC-17: lenient with V = 0 keeps all. -/
theorem test_cbc_dec_lenient_zero_count : complete (toyReady 0 4 16 [0x63, 0x71, 0x43, 0x55]) 0x00000006
    = (0, 4, [0x41, 0x42, 0x43, 0x00], 0x0000000E) := by decide +kernel

/-! ### The host port, against 95_test_vectors.md 3.4 -/

/-- A word written to a window and STATUS after it. -/
def written (s : State) (off : Nat) (v : Word) : State := hostWrite s (wordAddr off) v

/-- WIN steps 1 to 3: the constants. -/
theorem test_win_constants : let s := State.afterReset Params.win 0 []
    (hostRead s (wordAddr 0x000)).resp = some (.okRead 0x45434243) ∧ (hostRead s (wordAddr 0x004)).resp = some (.okRead 0x01000503)
      ∧ (hostRead s (wordAddr 0x008)).resp = some (.okRead 0x00000010) := by decide
/-- WIN steps 5 and 6: byte DD of the IV word is discarded. -/
theorem test_win_iv : let s := written (State.afterReset Params.win 0 []) 0x200 0xDDCCBBAA
    s.IV = [0xAA, 0xBB, 0xCC] ∧ statusWord s = 0x00000008 ∧ (hostRead s (wordAddr 0x200)).resp = some (.okRead 0x00CCBBAA) := by decide
/-- WIN steps 9 to 13: KEYV needs both words, KEY reads 0, KEYCLR clears. -/
theorem test_win_key : let s := written (State.afterReset Params.win 0 []) 0x100 0x44332211
    let t := written s 0x104 0x99887766
    keyValid s = false ∧ keyValid t = true ∧ t.KEY = [0x11, 0x22, 0x33, 0x44, 0x66]
      ∧ (hostRead s (wordAddr 0x100)).resp = some (.okRead 0) ∧ keyValid (written t 0x00C 0x00000002) = false := by decide
/-- WIN steps 16 to 20: the accesses that get ERR. -/
theorem test_win_errors : let s := State.afterReset Params.win 0 []
    statusWord (written s 0x000 1) = 0x00000100 ∧ (written s 0x024 1).resp = some .err
      ∧ (hostRead s (wordAddr 0x028)).resp = some .err ∧ (hostRead s (wordAddr 0x300)).resp = some .err
      ∧ (hostRead s (wordAddr 0x100010)).resp = some .err := by decide
/-- The busy window, steps 1 to 8. -/
theorem test_busy_window : let s := written (written (State.afterReset Params.toy 0 []) 0x100 0x04030201) 0x014 0x00000003
    statusWord s = 0x00000005 ∧ (hostRead s (wordAddr 0x014)).resp = some .err ∧ statusWord (hostRead s (wordAddr 0x014)) = 0x00000105
      ∧ (written s 0x00C 0x00000001).IE = true ∧ (written s 0x00C 0x00000003).resp = some .err
      ∧ irq (after (step (written s 0x00C 0x00000001))) = true := by decide +kernel

/-! ### Witnesses: states and operands that meet the hypotheses of each statement together -/

/-- What makes padding good, in a form that evaluates. -/
theorem not_badPadding {chk : PadCheck} {L : Nat} {byte : Nat → Byte} (h1 : countOf L byte ≤ L) (h2 : countOf L byte ≠ 0)
    (h3 : ∀ j, j < L → L - countOf L byte ≤ j → (byte j).toNat = countOf L byte) : ¬ badPadding chk L byte := by
  rintro (h | ⟨-, h | ⟨j, a, b, c⟩⟩)
  · omega
  · exact h2 h
  · exact c (h3 j b a)

/-- The TOY instance with a command in flight. -/
def toyBusy (word : Word) : State := issue (toyReady 0 5 16 hello) word

/-- A state of the TOY instance with a command in flight meets the invariant. -/
theorem test_witness_inv : Inv (toyBusy 0x00000401) ∧ Inv (toyReady 0 5 16 hello) := by
  constructor <;> constructor <;> (try unfold unwrittenZero) <;> decide +kernel

theorem test_witness_AssemblerFollowsSyntaxTable : assemble ['P', 'A', 'D'] [['0', 'X', 'f', 'F']] = some 0x0000FF01
    ∧ assemble ['c', 'b', 'c', '.', 'd', 'e', 'c', '.', 'c', 'h', 'k'] [] = some 0x00000016
    ∧ assemble ['p', 'a', 'd'] [['2', '5', '6']] = none ∧ assemble ['p', 'a', 'd'] [['0', 'x']] = none
    ∧ assemble ['p', 'a', 'd'] [['0']] = none := by decide

/-- Literals of both bases, at the ends of 1 to 255. -/
theorem test_witness_literals : literalOf ['1'] 1 ∧ literalOf ['2', '5', '5'] 255 ∧ literalOf ['0', 'x', 'f', 'f'] 255 :=
  ⟨⟨[1], by decide⟩, ⟨[2, 5, 5], by decide⟩, ⟨[15, 15], by decide⟩⟩

theorem test_witness_IllegalWordsIssueAndCompleteIllegalCmd :
    (State.reset.BUSY = false ∧ byteOffset (wordAddr 0x014) = 0x014) ∧ (toyBusy 0).BUSY = true ∧ ¬ WF (toyBusy 0).CMDL := by
  refine ⟨by decide, by decide, ?_⟩
  unfold WF
  decide

theorem test_witness_DecodeInvertsEncode : ∀ i ∈ [Instr.pad 1, .pad 255, .unpad .strict, .ecbEnc, .ecbDec, .cbcEnc, .cbcDec .strict],
    i.wf = true := by decide

theorem test_witness_EncodeInvertsDecode : decode 0x0000FF01 = .ok (.pad 255) := by decide

theorem test_witness_StepRunsDecodedCommand :
    ((toyBusy 0x00000401).BUSY = true ∧ decode (toyBusy 0x00000401).CMDL = .ok (.pad 4) ∧ (toyBusy 0x00000401).env = [])
    ∧ ({ toyBusy 0x00000401 with env := [.unitTurn, .reset] } : State).env = .unitTurn :: [.reset]
    ∧ decodeTableWord 16 0x401 = some (.pad 4) := by decide

theorem test_witness_ResetEventSetsEveryField :
    ({ toyBusy 0x00000401 with env := [.reset] } : State).inst.legal = true
    ∧ ({ toyBusy 0x00000401 with env := [.reset] } : State).env = .reset :: [] := by decide

theorem test_witness_ResetMeetsInvariant : Params.default.legal = true ∧ Params.toy.legal = true ∧ Params.win.legal = true
    ∧ (Params.mk 255 255 (2 ^ 20) (.external 0)).legal = true ∧ (Params.mk 1 1 4 .identity).legal = true := by decide

theorem test_witness_StepKeepsInvariant : Inv (toyBusy 0x00000401) ∧ ∃ t, step (toyBusy 0x00000401) = .next t :=
  ⟨test_witness_inv.1, step_total _⟩

theorem test_witness_IdleUntilCmdIsWritten : State.reset.BUSY = false ∧ (∃ t, step State.reset = .next t)
    ∧ (∀ v, ¬ nextWrites State.reset 0x014 v) ∧ nextIsUnit State.reset := by
  refine ⟨rfl, step_total _, ?_, .inl rfl⟩
  rintro v ⟨w, rest, h, -⟩
  cases h

theorem test_witness_AccessErrorsExactlyWhenRefused :
    refused State.reset (.rd (wordAddr 0x028)) ∧ refused State.reset (.rd (wordAddr 0x0FC)) ∧ refused State.reset (.rd (wordAddr 0x300))
    ∧ refused State.reset (.rd (wordAddr 0x101000)) ∧ refused State.reset (.wr (wordAddr 0x024) 0)
    ∧ refused (toyBusy 0) (.rd (wordAddr 0x100000)) ∧ refused (toyBusy 0) (.wr (wordAddr 0x00C) 2)
    ∧ ¬ refused (toyBusy 0) (.wr (wordAddr 0x00C) 1) ∧ ¬ refused State.reset (.rd (wordAddr 0x100FFC)) := by
  refine ⟨?_, ?_, ?_, ?_, ?_, ?_, ?_, ?_, ?_⟩ <;> simp only [refused, reservedOffset] <;> decide +kernel

theorem test_witness_AccessErrors_cleared : ∃ s t : State, step s = .next t ∧ s.HERR = true ∧ t.HERR = false :=
  ⟨{ winWith (.host (.wr (wordAddr 0x010) 0x00000100)) with HERR := true }, _, rfl, by decide⟩

theorem test_witness_ReadsHaveNoSideEffectAndWritesAreIdempotent :
    ¬ refused (toyReady 0 5 16 hello) (.rd (wordAddr 0x100000)) ∧ Inv (toyReady 0 5 16 hello)
    ∧ byteOffset (wordAddr 0x100000) ≠ 0x014 := by
  refine ⟨?_, test_witness_inv.2, by decide⟩
  simp only [refused, reservedOffset]
  decide +kernel

theorem test_witness_ReadOnlyRegisters : Params.win.legal = true ∧ byteOffset (wordAddr 0x000) = 0x000
    ∧ byteOffset (wordAddr 0x004) = 0x004 ∧ byteOffset (wordAddr 0x008) = 0x008 ∧ byteOffset (wordAddr 0x024) = 0x024
    ∧ State.reset.inst = Params.default := by decide

theorem test_witness_CtrlReadsAndWrites : byteOffset (wordAddr 0x00C) = 0x00C ∧ State.reset.BUSY = false
    ∧ (toyBusy 0).BUSY = true ∧ ((1 : Word).getLsbD 1 = false ∧ (1 : Word).getLsbD 2 = false) ∧ (2 : Word).getLsbD 1 = true
    ∧ (4 : Word).getLsbD 2 = true := by decide

theorem test_witness_StatusReadsAndWrites : byteOffset (wordAddr 0x010) = 0x010 := by decide

theorem test_witness_CmdWriteIssuesOrIsDropped : byteOffset (wordAddr 0x014) = 0x014 ∧ State.reset.BUSY = false
    ∧ (toyBusy 0).BUSY = true := by decide

theorem test_witness_OperandRegistersHoldWhatIsWritten : State.reset.BUSY = false ∧ byteOffset (wordAddr 0x018) = 0x018
    ∧ byteOffset (wordAddr 0x01C) = 0x01C ∧ byteOffset (wordAddr 0x020) = 0x020 ∧ ∃ t, unitStep (toyBusy 0) = .next t :=
  ⟨by decide, by decide, by decide, by decide, unitStep_total _⟩

theorem test_witness_KeyWindowIsWriteOnly : State.reset.BUSY = false ∧ (toyBusy 0).BUSY = true
    ∧ byteOffset (wordAddr 0x100) = 0x100 + 4 * 0 ∧ byteOffset (wordAddr 0x1FC) = 0x100 + 4 * 63 ∧ ∃ t, unitStep (toyBusy 0) = .next t :=
  ⟨by decide, by decide, by decide, by decide, unitStep_total _⟩

theorem test_witness_IvWindowReadsBack : State.reset.BUSY = false ∧ (toyBusy 0).BUSY = true
    ∧ byteOffset (wordAddr 0x200) = 0x200 + 4 * 0 ∧ byteOffset (wordAddr 0x2FC) = 0x200 + 4 * 63 ∧ ∃ t, unitStep (toyBusy 0) = .next t :=
  ⟨by decide, by decide, by decide, by decide, unitStep_total _⟩

theorem test_witness_BufWindowReadsAndWrites : State.reset.BUSY = false ∧ (toyBusy 0).BUSY = true
    ∧ byteOffset (wordAddr 0x100000) = 0x100000 + 4 * 0 ∧ byteOffset (wordAddr 0x100FFC) = 0x100000 + 4 * 1023
    ∧ 4 * 1023 < State.reset.inst.BUF_BYTES ∧ 4 * 15 < (toyBusy 0).inst.BUF_BYTES := by decide

theorem test_witness_KeyAndIvChangeOnlyByTheHost :
    (∃ t, step (winWith (.host (.wr (wordAddr 0x100) 1))) = .next t ∧ t.KEY ≠ (winWith .reset).KEY)
    ∧ (∃ t, step { winWith (.host (.wr (wordAddr 0x00C) 2)) with KEYM := [true, true] } = .next t ∧ t.KEYM ≠ [true, true])
    ∧ (∃ t, step (winWith (.host (.wr (wordAddr 0x200) 1))) = .next t ∧ t.IV ≠ (winWith .reset).IV)
    ∧ (∃ t, step { winWith (.host (.wr (wordAddr 0x00C) 4)) with IVM := [true] } = .next t ∧ t.IVM ≠ [true])
    ∧ ∃ t, step { winWith .reset with IVM := [true] } = .next t ∧ t.IVM ≠ [true] :=
  ⟨⟨_, rfl, by decide⟩, ⟨_, rfl, by decide⟩, ⟨_, rfl, by decide⟩, ⟨_, rfl, by decide⟩, ⟨_, rfl, by decide⟩⟩

theorem test_witness_ClearInvalidatesAndRewriteKeepsValid : Inv (toyReady 0 5 16 hello) ∧ (toyReady 0 5 16 hello).BUSY = false
    ∧ byteOffset (wordAddr 0x00C) = 0x00C ∧ (6 : Word).getLsbD 1 = true ∧ (6 : Word).getLsbD 2 = true
    ∧ byteOffset (wordAddr 0x100) = 0x100 ∧ byteOffset (wordAddr 0x200) = 0x200 ∧ byteOffset (wordAddr 0x1FC) < 0x200
    ∧ byteOffset (wordAddr 0x2FC) < 0x300 ∧ keyValid (toyReady 0 5 16 hello) = true ∧ ivValid (toyReady 0 5 16 hello) = true
    ∧ (toyReady 0 5 16 hello).inst.KLEN ≤ 4 ∧ (toyReady 0 5 16 hello).inst.B ≤ 4 :=
  ⟨test_witness_inv.2, by decide⟩

theorem test_witness_HostCannotDisturbCommandInFlight : (toyBusy 0x00000401).BUSY = true := rfl

theorem test_witness_CmdlIsWrittenByIssueAndReadByCompletion :
    (∃ t, step (winWith (.host (.wr (wordAddr 0x014) 2))) = .next t ∧ t.CMDL ≠ 0)
    ∧ (∃ t, step { winWith .reset with CMDL := 2 } = .next t ∧ t.CMDL ≠ 2)
    ∧ (toyBusy 0x00000401).BUSY = true ∧ ∃ t, exec (.pad 4) (toyBusy 0x00000401) = .next t :=
  ⟨⟨_, rfl, by decide⟩, ⟨_, rfl, by decide⟩, rfl, _, exec_eq _ _⟩

theorem test_witness_InterruptLineRisesAndFalls :
    (∃ t, step { toyBusy 0x00000401 with IE := true } = .next t ∧ irq { toyBusy 0x00000401 with IE := true } = false ∧ irq t = true)
    ∧ (∃ t, step { winWith (.host (.wr (wordAddr 0x00C) 1)) with DONE := true } = .next t ∧ irq t = true)
    ∧ (∃ t, step { winWith (.host (.wr (wordAddr 0x010) 2)) with IE := true, DONE := true } = .next t ∧ irq t = false)
    ∧ (∃ t, step { winWith (.host (.wr (wordAddr 0x014) 2)) with IE := true, DONE := true } = .next t ∧ irq t = false)
    ∧ (∃ t, step { winWith (.host (.wr (wordAddr 0x00C) 0)) with IE := true, DONE := true } = .next t ∧ irq t = false)
    ∧ ∃ t, step { winWith .reset with IE := true, DONE := true } = .next t ∧ irq t = false :=
  ⟨⟨_, rfl, by decide +kernel⟩, ⟨_, rfl, by decide⟩, ⟨_, rfl, by decide⟩, ⟨_, rfl, by decide⟩, ⟨_, rfl, by decide⟩, ⟨_, rfl, by decide⟩⟩

theorem test_witness_KeyCannotBeReadBack : ([0x05, 0x06, 0x07, 0x08] : List Byte).length = (toyReady 0 5 16 hello).KEY.length := by decide

theorem test_witness_CommandsWriteOnlyTheirResult : (toyReady 0 5 16 hello).inst.legal = true
    ∧ ∃ t, exec .cbcEnc (toyReady 0 5 16 hello) = .next t ∧ ¬ ((toyReady 0 5 16 hello).DST.toNat ≤ 15 ∧ 15 < 16 + t.RLEN.toNat)
      ∧ ¬ ((toyReady 0 5 16 hello).DST.toNat ≤ 24 ∧ 24 < 16 + t.RLEN.toNat) :=
  ⟨by decide, _, rfl, by decide +kernel⟩

theorem test_witness_PadAppendsItsCount : let s := toyReady 0 5 56 hello
    s.inst.legal = true ∧ (4 : BitVec 8) ≠ 0 ∧ sourceFits s ∧ s.DST.toNat + s.LEN.toNat + (4 - s.LEN.toNat % 4) ≤ s.inst.BUF_BYTES := by
  unfold sourceFits
  decide

theorem test_witness_UnpadRemovesItsCount : let s := toyReady 0 8 16 helloPadded
    s.inst.legal = true ∧ sourceFits s ∧ s.LEN.toNat ≠ 0 ∧ (∀ chk, ¬ badPadding chk s.LEN.toNat (inByte s))
    ∧ s.DST.toNat + (s.LEN.toNat - countOf s.LEN.toNat (inByte s)) ≤ s.inst.BUF_BYTES := by
  refine ⟨by decide, by unfold sourceFits; decide, by decide, fun chk => not_badPadding ?_ ?_ ?_, ?_⟩ <;> decide +kernel

/-- A sequence that lenient unpad alone accepts (UNP-4), and one with V = 0 (UNP-8). -/
theorem test_witness_UnpadRemovesItsCount_lenient :
    (¬ badPadding .lenient 3 (inByte (toyReady 0 3 16 [0x41, 0x42, 0x02])) ∧ badPadding .strict 3 (inByte (toyReady 0 3 16 [0x41, 0x42, 0x02])))
    ∧ ¬ badPadding .lenient 2 (inByte (toyReady 0 2 16 [0x41, 0x00])) ∧ badPadding .strict 2 (inByte (toyReady 0 2 16 [0x41, 0x00])) := by
  refine ⟨⟨?_, .inr ⟨rfl, .inr ⟨1, by decide +kernel⟩⟩⟩, ?_, .inr ⟨rfl, .inl (by decide +kernel)⟩⟩
  · rintro (h | ⟨h, -⟩)
    · exact absurd h (by decide +kernel)
    · cases h
  · rintro (h | ⟨h, -⟩)
    · exact absurd h (by decide +kernel)
    · cases h

theorem test_witness_Ecb : let s := toyReady 0 8 56 twice
    s.inst.legal = true ∧ keyIvSized s ∧ keyValid s = true ∧ ivValid s = true ∧ sourceFits s ∧ s.LEN.toNat % s.inst.B = 0
    ∧ s.DST.toNat + s.LEN.toNat ≤ s.inst.BUF_BYTES := by
  unfold keyIvSized sourceFits
  decide

theorem test_witness_CbcEncChainsItsBlocks : let s := toyReady 0 5 56 hello
    s.inst.legal = true ∧ keyIvSized s ∧ keyValid s = true ∧ ivValid s = true ∧ sourceFits s
    ∧ s.DST.toNat + s.LEN.toNat + (s.inst.B - s.LEN.toNat % s.inst.B) ≤ s.inst.BUF_BYTES := by
  unfold keyIvSized sourceFits
  decide

theorem test_witness_CbcDecUnchainsAndUnpads : let s := toyReady 0 8 16 helloCbc
    s.inst.legal = true ∧ keyIvSized s ∧ keyValid s = true ∧ ivValid s = true ∧ sourceFits s ∧ s.LEN.toNat ≠ 0
    ∧ s.LEN.toNat % s.inst.B = 0 ∧ (∀ chk, ¬ badPadding chk s.LEN.toNat (plainByte s))
    ∧ s.DST.toNat + (s.LEN.toNat - countOf s.LEN.toNat (plainByte s)) ≤ s.inst.BUF_BYTES := by
  refine ⟨by decide, by unfold keyIvSized; decide, by decide, by decide, by unfold sourceFits; decide, by decide, by decide,
    fun chk => not_badPadding ?_ ?_ ?_, ?_⟩ <;> decide +kernel

/-- One input for each clause: out of range by one byte, empty, rejected (V > L), accepted; the dividing cases of SRC + LEN. -/
theorem test_witness_CodecErrorIsFirstFailingCheck :
    ¬ sourceFits (toyReady 60 5 16 []) ∧ sourceFits (toyReady 60 4 16 []) ∧ (sourceFits (toyReady 64 0 16 []) ∧ (toyReady 64 0 16 []).LEN.toNat = 0)
    ∧ (sourceFits (toyReady 0 2 16 [0x41, 0x05]) ∧ (toyReady 0 2 16 [0x41, 0x05]).LEN.toNat ≠ 0
      ∧ badPadding .lenient 2 (inByte (toyReady 0 2 16 [0x41, 0x05])))
    ∧ ∀ chk, ¬ badPadding chk 2 (inByte (toyReady 0 2 16 [0x02, 0x02])) := by
  refine ⟨?_, ?_, ?_, ⟨?_, ?_, .inl ?_⟩, fun chk => not_badPadding ?_ ?_ ?_⟩ <;> (try unfold sourceFits) <;> decide +kernel

theorem test_witness_EcbErrorIsFirstFailingCheck : ∀ i ∈ [Instr.ecbEnc, .ecbDec],
    (toyReady 0 8 60 twice).inst.legal = true ∧ keyIvSized (toyReady 0 8 60 twice) ∧ (i = .ecbEnc ∨ i = .ecbDec) := by
  unfold keyIvSized
  decide

/-- One state for each clause of the CBC_DEC cascade. -/
theorem test_witness_CbcErrorIsFirstFailingCheck :
    (∀ s ∈ [toyReady 0 8 16 helloCbc, { toyReady 0 8 16 helloCbc with KEYM := [false] }, { toyReady 0 8 16 helloCbc with IVM := [false] },
        toyReady 62 8 16 [], toyReady 0 6 16 helloCbc, toyReady 0 0 16 [], toyReady 0 4 16 [0x7C, 0x0E, 0x5C, 0x2F]],
      s.inst.legal = true ∧ keyIvSized s)
    ∧ keyValid { toyReady 0 8 16 helloCbc with KEYM := [false] } = false
    ∧ ivValid { toyReady 0 8 16 helloCbc with IVM := [false] } = false
    ∧ ¬ sourceFits (toyReady 62 8 16 []) ∧ (toyReady 0 6 16 helloCbc).LEN.toNat % 4 ≠ 0 ∧ (toyReady 0 0 16 []).LEN.toNat = 0
    ∧ ∀ chk, badPadding chk 4 (plainByte (toyReady 0 4 16 [0x7C, 0x0E, 0x5C, 0x2F])) := by
  refine ⟨?_, ?_, ?_, ?_, ?_, ?_, fun chk => .inl ?_⟩ <;> (try unfold keyIvSized) <;> (try unfold sourceFits) <;> decide +kernel

theorem test_witness_CommandErrorIsPrecise : (toyBusy 0).BUSY = true ∧ ∃ t, unitStep (toyBusy 0) = .next t ∧ t.ERR ≠ 0 :=
  ⟨rfl, _, rfl, by decide⟩

theorem test_witness_ErrorCodesOfEachCommand :
    ((Instr.pad 255).wf = true ∧ ∃ t, exec (.pad 255) (toyReady 0 5 16 hello) = .next t)
    ∧ ((toyBusy 0).BUSY = true ∧ ¬ WF (toyBusy 0).CMDL ∧ ∃ t, unitStep (toyBusy 0) = .next t)
    ∧ (∃ t, step (toyBusy 0) = .next t ∧ t.ERR ≠ (toyBusy 0).ERR)
    ∧ (∃ t, step { winWith (.host (.wr (wordAddr 0x014) 2)) with ERR := 6 } = .next t ∧ t.ERR ≠ 6)
    ∧ ∃ t, step { winWith .reset with ERR := 6 } = .next t ∧ t.ERR ≠ 6 :=
  ⟨⟨by decide, _, exec_eq _ _⟩, ⟨rfl, test_witness_IllegalWordsIssueAndCompleteIllegalCmd.2.2, unitStep_total _⟩,
    ⟨_, rfl, by decide⟩, ⟨_, rfl, by decide⟩, ⟨_, rfl, by decide⟩⟩

theorem test_witness_UnpadUndoesPad : let s := toyReady 0 5 16 hello
    s.inst.legal = true ∧ (∃ t, exec (.pad 4) s = .next t ∧ t.ERR = 0) ∧ (59 : Word).toNat + s.LEN.toNat ≤ s.inst.BUF_BYTES :=
  ⟨by decide, ⟨_, rfl, by decide +kernel⟩, by decide⟩

/-- For PaddedSequencesAreThoseStrictUnpadAccepts and the functions of UnpadUndoesPad, the bounds of b. -/
theorem test_witness_block_sizes : (1 ≤ 1 ∧ 1 ≤ 255) ∧ (1 ≤ 255 ∧ 255 ≤ 255) := by decide

/-- For EcbBlocksDependOnTheirOwnBlock, CbcBlockNeedsTwoCiphertextBlocks and the functions of the two round trips. -/
theorem test_witness_blocks : Params.toy.legal = true ∧ ([1, 2, 3, 4] : List Byte).length = Params.toy.KLEN
    ∧ ([0x10, 0x20, 0x30, 0x40] : List Byte).length = Params.toy.B ∧ twice.length % Params.toy.B = 0
    ∧ 0 < twice.length / Params.toy.B ∧ 1 < twice.length / Params.toy.B := by decide

theorem test_witness_EcbRoundTripRestoresInput : let s := toyReady 0 8 16 twice
    s.inst.legal = true ∧ keyIvSized s ∧ (∃ t, exec .ecbEnc s = .next t ∧ t.ERR = 0) ∧ (56 : Word).toNat + s.LEN.toNat ≤ s.inst.BUF_BYTES :=
  ⟨by decide, by unfold keyIvSized; decide, ⟨_, rfl, by decide +kernel⟩, by decide⟩

theorem test_witness_CbcRoundTripRestoresInput : let s := toyReady 0 5 16 hello
    s.inst.legal = true ∧ keyIvSized s ∧ (∃ t, exec .cbcEnc s = .next t ∧ t.ERR = 0) ∧ (59 : Word).toNat + s.LEN.toNat ≤ s.inst.BUF_BYTES :=
  ⟨by decide, by unfold keyIvSized; decide, ⟨_, rfl, by decide +kernel⟩, by decide⟩

theorem test_witness_CbcOfEmptyInputIsOneBlock : let s := toyReady 64 0 60 []
    s.inst.legal = true ∧ keyIvSized s ∧ keyValid s = true ∧ ivValid s = true ∧ s.LEN = 0 ∧ sourceFits s
    ∧ s.DST.toNat + s.inst.B ≤ s.inst.BUF_BYTES ∧ (64 : Word).toNat ≤ s.inst.BUF_BYTES := by
  unfold keyIvSized sourceFits
  decide

/-- The inputs of the second row of S8: block 1 alone differs. -/
theorem test_witness_CbcDiffusion : let x' : List Byte := [0x48, 0x45, 0x4C, 0x4C, 0x4E]
    hello.length = x'.length ∧ 1 < (padBytes hello 4).length / 4 ∧ blk 4 (padBytes hello 4) 1 ≠ blk 4 (padBytes x' 4) 1
    ∧ (∀ j, j < 2 → j ≠ 1 → blk 4 (padBytes hello 4) j = blk 4 (padBytes x' 4) j)
    ∧ ∀ j, j < 1 → blk 4 (padBytes hello 4) j = blk 4 (padBytes x' 4) j := by decide

theorem test_witness_OutputLengths : let s := toyReady 0 5 16 hello
    s.inst.legal = true ∧ keyIvSized s ∧ ∃ t, exec .cbcEnc s = .next t ∧ t.ERR = 0 :=
  ⟨by decide, by unfold keyIvSized; decide, _, rfl, by decide +kernel⟩

/-- Two states that differ outside the operands. -/
theorem test_witness_ResultDependsOnOperandsOnly : let s := toyReady 0 5 16 hello
    let s' := { s with BUF := Memory.write s.BUF 40 7, IE := true, RLEN := 3 }
    s.inst.legal = true ∧ s'.inst = s.inst ∧ s'.SRC = s.SRC ∧ s'.LEN = s.LEN ∧ s'.DST = s.DST ∧ s'.KEY = s.KEY ∧ s'.KEYM = s.KEYM
    ∧ s'.IV = s.IV ∧ s'.IVM = s.IVM ∧ (∀ j, j < s.LEN.toNat → inByte s' j = inByte s j) ∧ s' ≠ s := by decide +kernel

theorem test_witness_OutputDoesNotDependOnOverlap : let s := toyReady 0 5 16 hello
    s.inst.legal = true ∧ (∃ t, exec .cbcEnc s = .next t ∧ t.ERR = 0) ∧ ∃ t', exec .cbcEnc { s with DST := 2 } = .next t' ∧ t'.ERR = 0 :=
  ⟨by decide, ⟨_, rfl, by decide +kernel⟩, _, rfl, by decide +kernel⟩

theorem test_witness_HostReadStopsOnlyOnError : HostState.start.stopped = none ∧ HostState.start.regs.length = 8
    ∧ refused State.reset (.rd (wordAddr 0x028)) ∧ ¬ refused State.reset (.rd (wordAddr 0x000))
    ∧ (hostRead State.reset (wordAddr 0x000)).resp = some (.okRead 0x45434243) := by
  simp only [refused, reservedOffset]
  decide

end Sys2Proof.Tests
end

section
/-! SUPPORT. The invariant Inv: every named operation keeps it. -/

namespace Sys2Proof.Machine

open Sys2Proof

/-! ### Windows and their masks -/

/-- A window of zeros meets the clause on unwritten bytes, whatever its mask. -/
theorem unwrittenZero_replicate (n : Nat) (mask : List Bool) : unwrittenZero (List.replicate n 0) mask := by
  intro j hj _
  rw [List.getD_eq_getElem _ _ hj, List.getElem_replicate]

/-- A window write marks the word whose bytes it stores, so the bytes of unmarked words stay 0. -/
theorem unwrittenZero_setWindowWord {bytes : List Byte} {mask : List Bool} (w : Nat) (v : Word)
    (hlen : mask.length = ceil4 bytes.length) (h : unwrittenZero bytes mask) :
    unwrittenZero (setWindowWord bytes w v) (mask.set w true) := by
  intro j hj hm
  rw [length_setWindowWord] at hj
  have hjm : j / 4 < mask.length := by rw [hlen, ceil4]; omega
  rw [List.getD_eq_getElem _ _ (by simpa using hjm), List.getElem_set] at hm
  by_cases hw : w = j / 4
  · simp [hw] at hm
  · rw [if_neg hw, ← List.getD_eq_getElem _ false hjm] at hm
    rw [getD_setWindowWord _ _ _ _ hj, if_neg (Ne.symm hw)]
    exact h j hj hm

/-! ### Each operation keeps the invariant -/

section
variable {s : State}

theorem inv_withEnv (h : Inv s) (env : List Event) : Inv { s with env := env } := { h with }

theorem inv_respond (h : Inv s) (r : Response) : Inv (respond s r) := { h with }

theorem inv_refuseAccess (h : Inv s) : Inv (refuseAccess s) := { h with }

theorem inv_storeKey (h : Inv s) (w : Nat) (v : Word) : Inv (storeKey s w v) :=
  { h with
    keyLength := by simp [h.keyLength]
    keymLength := by simp [h.keymLength]
    keyUnwritten := unwrittenZero_setWindowWord w v (h.keyLength ▸ h.keymLength) h.keyUnwritten }

theorem inv_storeIv (h : Inv s) (w : Nat) (v : Word) : Inv (storeIv s w v) :=
  { h with
    ivLength := by simp [h.ivLength]
    ivmLength := by simp [h.ivmLength]
    ivUnwritten := unwrittenZero_setWindowWord w v (h.ivLength ▸ h.ivmLength) h.ivUnwritten }

/-- BUF_BYTES is a multiple of 4, so a word that begins inside BUF ends inside it. -/
theorem inv_storeBuf (h : Inv s) {w : Nat} (hw : 4 * w < s.inst.BUF_BYTES) (v : Word) : Inv (storeBuf s w v) :=
  { h with
    bufWf := Memory.wf_writeBytes _ _ h.bufWf
    bufRange := by
      obtain ⟨-, -, -, -, -, -, hmod, -⟩ := legal_bounds h.legal
      refine Memory.range_writeBytes h.bufRange ?_
      simp only [storeBuf_inst, List.length_cons, List.length_nil]
      omega }

theorem inv_clearKey (h : Inv s) : Inv (clearKey s) :=
  { h with
    keyLength := by simp [h.keyLength]
    keymLength := by simp [h.keymLength]
    keyUnwritten := by simpa using unwrittenZero_replicate _ _ }

theorem inv_clearIv (h : Inv s) : Inv (clearIv s) :=
  { h with
    ivLength := by simp [h.ivLength]
    ivmLength := by simp [h.ivmLength]
    ivUnwritten := by simpa using unwrittenZero_replicate _ _ }

theorem inv_clearKeyIf (h : Inv s) (b : Bool) : Inv (clearKeyIf b s) := by
  cases b
  · exact h
  · exact inv_clearKey h

theorem inv_clearIvIf (h : Inv s) (b : Bool) : Inv (clearIvIf b s) := by
  cases b
  · exact h
  · exact inv_clearIv h

theorem inv_withIE (h : Inv s) (b : Bool) : Inv { s with IE := b } := { h with }

theorem inv_storeCtrl (h : Inv s) (v : Word) : Inv (storeCtrl s v) :=
  inv_clearIvIf (inv_clearKeyIf (inv_withIE h _) _) _

theorem inv_acknowledge (h : Inv s) (v : Word) : Inv (acknowledge s v) :=
  { h with busyClear := fun hb => by simp [h.busyClear hb] }

theorem inv_issue (h : Inv s) (v : Word) : Inv (issue s v) :=
  { h with
    errLegal := Nat.zero_le _
    busyClear := fun _ => ⟨rfl, rfl, rfl⟩
    errorLength := fun _ => rfl
    rlenBound := Nat.zero_le _ }

/-- The codes of the command errors are 1 to 7 (60_exceptions.md R141). -/
theorem errCode_toNat_le (e : CmdError) : (errCode e).toNat ≤ 7 := by cases e <;> decide

theorem inv_raiseError (h : Inv s) (e : CmdError) : Inv (raiseError s e) :=
  { h with
    errLegal := errCode_toNat_le e
    busyClear := nofun
    errorLength := fun _ => rfl
    rlenBound := Nat.zero_le _ }

/-- An output that fits in BUF at DST keeps BUF's addresses in range, and RLEN can hold its length. -/
theorem inv_completeOk (h : Inv s) {out : List Byte} (hfit : s.DST.toNat + out.length ≤ s.inst.BUF_BYTES) :
    Inv (completeOk s out) :=
  { h with
    bufWf := Memory.wf_writeBytes _ _ h.bufWf
    bufRange := Memory.range_writeBytes h.bufRange hfit
    errLegal := Nat.zero_le _
    busyClear := nofun
    errorLength := fun hne => absurd rfl hne
    rlenBound := by
      have hlt := length_lt_of_fits h.legal hfit
      simp only [completeOk_RLEN, BitVec.toNat_ofNat, completeOk_inst]
      omega }

theorem inv_finish_resultOf (h : Inv s) (i : Instr) : Inv (finish s (resultOf i s)) := by
  rcases finish_cases s (resultOf i s) with ⟨out, hr, hf⟩ | ⟨e, -, hf⟩
  · rw [hf]
    exact inv_completeOk h (resultOf_fits hr)
  · rw [hf]
    exact inv_raiseError h e

theorem inv_afterReset {p : Params} (hp : p.legal = true) (draw : Nat) (env : List Event) :
    Inv (State.afterReset p draw env) where
  legal := hp
  keyLength := List.length_replicate
  keymLength := List.length_replicate
  ivLength := List.length_replicate
  ivmLength := List.length_replicate
  bufWf := Memory.wf_nil
  bufRange := nofun
  errLegal := Nat.zero_le _
  busyClear := nofun
  errorLength := fun _ => rfl
  rlenBound := Nat.zero_le _
  keyUnwritten := unwrittenZero_replicate _ _
  ivUnwritten := unwrittenZero_replicate _ _

/-! ### The agents keep the invariant -/

theorem inv_writeEffect (h : Inv s) (w : WordAddr) (v : Word) : Inv (writeEffect s (targetAt s w) v) := by
  have hoff := offset_of_target s w
  cases ht : targetAt s w with
  | ctrl => exact inv_storeCtrl h v
  | status => exact inv_acknowledge h v
  | cmd => exact inv_issue h v
  | key k => exact inv_storeKey h k v
  | iv k => exact inv_storeIv h k v
  | buf k =>
    rw [ht] at hoff
    obtain ⟨heq, hlt⟩ := hoff
    exact inv_storeBuf h (by omega) v
  | src | len | dst => exact { h with }
  | id | info | bufsz | rlen | reserved => exact h

theorem inv_hostAccess (h : Inv s) (a : Access) : Inv (hostAccess s a) := by
  rcases hostAccess_cases s a with he | ⟨w, -, -, he⟩ | ⟨w, v, -, -, he⟩ <;> rw [he]
  · exact inv_refuseAccess h
  · exact inv_respond h _
  · exact inv_respond (inv_writeEffect h w v) _

theorem inv_unitStep {t : State} (h : Inv s) (ht : unitStep s = .next t) : Inv t := by
  rcases unitStep_cases ht with ⟨-, rfl⟩ | ⟨-, ⟨i, -, rfl⟩ | ⟨-, -, rfl⟩⟩
  · exact h
  · exact inv_finish_resultOf h i
  · exact inv_raiseError h .illegalCmd

theorem inv_step {t : State} (h : Inv s) (ht : step s = .next t) : Inv t := by
  rcases step_cases ht with ⟨a, rest, -, rfl⟩ | ⟨rest, -, rfl⟩ | ⟨rest, -, hu⟩
  · exact inv_hostAccess (inv_withEnv h rest) a
  · exact inv_afterReset h.legal _ _
  · exact inv_unitStep (inv_withEnv h rest) hu

end

end Sys2Proof.Machine
end

section
/-! SUPPORT. The register page and the windows: what an access to each offset does, and what a turn of the unit leaves alone. -/

namespace Sys2Proof.Machine

open Sys2Proof

/-! ### Accesses by the state of BUSY (20_memory.md R54, R57) -/

/-- Outside the busy window's readable registers every access gets ERR while BUSY = 1 (R57). -/
theorem access_refused_of_busy {s : State} {w : WordAddr} {t : Target} (hb : s.BUSY = true) (ht : targetAt s w = t)
    (hr : readAccepted true t = false) (v : Word) :
    hostWrite s w v = { s with HERR := true, resp := some .err } ∧ hostRead s w = { s with HERR := true, resp := some .err } := by
  have hw : writeAccepted true t v = false := by cases t <;> simp_all [readAccepted, writeAccepted]
  exact ⟨hostWrite_refused ht (hb ▸ hw), hostRead_refused ht (hb ▸ hr)⟩

/-- A write is accepted in the busy state only to STATUS, or to CTRL without a clear action (R57). -/
theorem idle_of_writeAccepted {b : Bool} {t : Target} {v : Word} (h : writeAccepted b t v = true) (hs : t ≠ .status)
    (hc : t = .ctrl → v.getLsbD 1 = true ∨ v.getLsbD 2 = true) : b = false := by
  cases t with
  | status => exact absurd rfl hs
  | ctrl =>
    simp only [writeAccepted, Bool.or_eq_true, Bool.and_eq_true, Bool.not_eq_true'] at h
    rcases h with hb | ⟨h1, h2⟩
    · exact hb
    · exact absurd (hc rfl) (by rw [h1, h2]; decide)
  | id | info | bufsz | rlen | reserved => cases h
  | _ => simpa only [writeAccepted, Bool.not_eq_true'] using h

/-- A turn of the unit writes BUF, RLEN, ERR, BUSY and DONE, and no other field (40_command_execution.md R100). -/
theorem unitStep_frame {s t : State} (h : unitStep s = .next t) :
    t = { s with BUF := t.BUF, RLEN := t.RLEN, ERR := t.ERR, BUSY := t.BUSY, DONE := t.DONE } := by
  rcases unitStep_cases h with ⟨-, rfl⟩ | ⟨-, ⟨i, -, rfl⟩ | ⟨-, -, rfl⟩⟩
  · rfl
  · rcases finish_cases s (resultOf i s) with ⟨out, -, hf⟩ | ⟨e, -, hf⟩ <;> rw [hf] <;> rfl
  · rfl

/-! ### The words that reads return -/

/-- Byte i of a word is digit i of its number in base 256. -/
theorem toNat_wordByte (v : Word) (i : Nat) : (wordByte v i).toNat = v.toNat / 2 ^ (8 * i) % 2 ^ 8 := by
  simp [wordByte, BitVec.extractLsb'_toNat, Nat.shiftRight_eq_div_pow]

/-- INFO is the little-endian word of B, KLEN, 0 and VERSION (10_state.md R25). -/
theorem infoWord_eq_wordOfBytes (p : Params) :
    infoWord p = wordOfBytes (BitVec.ofNat 8 p.B) (BitVec.ofNat 8 p.KLEN) 0#8 1#8 := rfl

theorem toNat_infoWord {p : Params} (hp : p.legal = true) : (infoWord p).toNat = p.B + 256 * p.KLEN + 0x01000000 := by
  obtain ⟨-, hB, -, hK, -⟩ := legal_bounds hp
  rw [infoWord_eq_wordOfBytes, toNat_wordOfBytes]
  simp only [BitVec.toNat_ofNat]
  omega

theorem toNat_bufszWord {p : Params} (hp : p.legal = true) : (bufszWord p).toNat = p.BUF_BYTES := by
  obtain ⟨-, -, -, -, -, hbuf, -⟩ := legal_bounds hp
  simp only [bufszWord, BitVec.toNat_ofNat]
  omega

/-- Beyond its end a window reads 0, so only the bytes that exist add to the word (10_state.md R35). -/
theorem toNat_windowWord (bytes : List Byte) (k : Nat) :
    (windowWord bytes k).toNat = ((List.range 4).map fun i =>
      if 4 * k + i < bytes.length then (bytes.getD (4 * k + i) 0).toNat * 2 ^ (8 * i) else 0).sum := by
  have hbyte (j n : Nat) : (if j < bytes.length then (bytes.getD j 0).toNat * n else 0) = (bytes.getD j 0).toNat * n := by
    split
    · rfl
    · next hj => rw [List.getD_eq_default _ _ (by omega)]; simp
  simp only [windowWord, toNat_wordOfBytes, hbyte, List.range_succ, List.range_zero, List.map_append, List.map_cons,
    List.map_nil, List.sum_append, List.sum_cons, List.sum_nil, List.nil_append, Nat.add_zero]
  ring

theorem ctrlWord_fields (s : State) : (ctrlWord s).getLsbD 0 = s.IE ∧ (ctrlWord s).extractLsb' 1 31 = 0 := by
  unfold ctrlWord
  cases s.IE <;> exact ⟨rfl, rfl⟩

/-- The fields of STATUS (10_state.md R28): the position of each within the concatenation decides which one it is. -/
theorem statusWord_fields (s : State) :
    (statusWord s).getLsbD 0 = s.BUSY ∧ (statusWord s).getLsbD 1 = s.DONE
      ∧ (statusWord s).getLsbD 2 = keyValid s ∧ (statusWord s).getLsbD 3 = ivValid s
      ∧ (statusWord s).extractLsb' 4 4 = s.ERR ∧ (statusWord s).getLsbD 8 = s.HERR
      ∧ (statusWord s).extractLsb' 9 23 = 0 := by
  simp +decide only [statusWord, BitVec.getLsbD_append, BitVec.getLsbD_ofBool, BitVec.extractLsb'_append_eq_of_le,
    BitVec.extractLsb'_append_eq_of_add_le, if_true, if_false]
  simp

/-! ### Masks and validity (10_state.md R37, R38) -/

theorem all_id_iff (mask : List Bool) : mask.all id = true ↔ ∀ j, j < mask.length → mask.getD j false = true := by
  rw [List.all_eq_true, List.forall_mem_iff_getElem]
  exact forall₂_congr fun j hj => by rw [List.getD_eq_getElem _ _ hj]; rfl

theorem all_id_replicate_false {n : Nat} (hn : 1 ≤ n) : (List.replicate n false).all id = false := by
  simp [List.all_replicate]; omega

/-- A mask bit set beside set ones leaves them all set. -/
theorem all_id_set_true {mask : List Bool} (k : Nat) (h : mask.all id = true) : (mask.set k true).all id = true := by
  rw [List.all_eq_true] at h ⊢
  intro b hb
  rcases List.mem_or_eq_of_mem_set hb with hb | rfl
  · exact h b hb
  · rfl

theorem all_id_set_zero {mask : List Bool} (h : mask.length = 1) : (mask.set 0 true).all id = true := by
  obtain ⟨b, rfl⟩ := List.length_eq_one_iff.1 h
  rfl

theorem one_le_ceil4 {n : Nat} (h : 1 ≤ n) : 1 ≤ ceil4 n := by unfold ceil4; omega

theorem ceil4_eq_one {n : Nat} (h : 1 ≤ n) (h4 : n ≤ 4) : ceil4 n = 1 := by unfold ceil4; omega

theorem getD_set_true (mask : List Bool) (k j : Nat) (hj : j < mask.length) :
    (mask.set k true).getD j false = if j = k then true else mask.getD j false := by
  rw [List.getD_eq_getElem _ _ (by simpa using hj), List.getElem_set, List.getD_eq_getElem _ _ hj]
  simp only [eq_comm]

/-- An offset inside the KEY window is that of one of its 64 words. -/
theorem targetAt_of_mem_keyWindow (s : State) {w : WordAddr} (h : 0x100 ≤ byteOffset w) (h' : byteOffset w < 0x200) :
    ∃ k, targetAt s w = .key k := by
  unfold byteOffset at h h'
  exact ⟨w.toNat - 64, targetAt_key (by omega) (by unfold byteOffset; omega)⟩

/-- An offset inside the IV window is that of one of its 64 words. -/
theorem targetAt_of_mem_ivWindow (s : State) {w : WordAddr} (h : 0x200 ≤ byteOffset w) (h' : byteOffset w < 0x300) :
    ∃ k, targetAt s w = .iv k := by
  unfold byteOffset at h h'
  exact ⟨w.toNat - 128, targetAt_iv (by omega) (by unfold byteOffset; omega)⟩

end Sys2Proof.Machine
end

section
/-! SUPPORT. What one step can change: the cause of a changed field, and what the latch and the key do to a host access. -/

namespace Sys2Proof.Machine

open Sys2Proof Sys2Proof.Rules

/-! ### The cause of a change -/

/-- A part of the state that no response, refusal or turn of the unit touches changes only at reset or by an accepted write. -/
theorem step_change_cause {α : Type} (f : State → α) (henv : ∀ s env, f { s with env := env } = f s)
    (hresp : ∀ s r, f (respond s r) = f s) (hrefuse : ∀ s, f (refuseAccess s) = f s)
    (hunit : ∀ s t, unitStep s = .next t → f t = f s) {s t : State} (h : step s = .next t) (hne : f t ≠ f s) :
    nextResets s ∨ ∃ w v rest, s.env = .host (.wr w v) :: rest ∧ writeAccepted s.BUSY (targetAt s w) v = true
      ∧ f t = f (writeEffect { s with env := rest } (targetAt s w) v) := by
  rcases step_cases h with ⟨a, rest, he, rfl⟩ | ⟨rest, he, rfl⟩ | ⟨rest, -, hu⟩
  · rcases hostAccess_cases { s with env := rest } a with hr | ⟨w, -, -, hr⟩ | ⟨w, v, rfl, hacc, hr⟩
    · exact absurd (by rw [hr, hrefuse, henv]) hne
    · exact absurd (by rw [hr, hresp, henv]) hne
    · exact .inr ⟨w, v, rest, he, hacc, by rw [hr, hresp]; rfl⟩
  · exact .inl ⟨rest, he⟩
  · exact absurd ((hunit _ _ hu).trans (henv s rest)) hne

/-- KEY with its mask. -/
def keyWindow (s : State) : List Byte × List Bool := (s.KEY, s.KEYM)

/-- The accepted writes that change KEY or KEYM (10_state.md R42). -/
theorem key_write_cause {s : State} {w : WordAddr} {v : Word} (hacc : writeAccepted s.BUSY (targetAt s w) v = true)
    (hne : keyWindow (writeEffect s (targetAt s w) v) ≠ keyWindow s) :
    s.BUSY = false ∧ ((∃ k, k < 64 ∧ byteOffset w = 0x100 + 4 * k) ∨ (byteOffset w = 0x00C ∧ v.getLsbD 1 = true)) := by
  have hoff := offset_of_target s w
  cases ht : targetAt s w <;> rw [ht] at hacc hne hoff
  case key k => exact ⟨idle_of_writeAccepted hacc nofun nofun, .inl ⟨k, hoff.2, hoff.1⟩⟩
  case ctrl =>
    have hv : v.getLsbD 1 = true := by
      by_contra hv
      exact hne (by rw [keyWindow, writeEffect, storeCtrl_KEY, storeCtrl_KEYM, if_neg hv, if_neg hv]; rfl)
    exact ⟨idle_of_writeAccepted hacc nofun fun _ => .inl hv, .inr ⟨hoff, hv⟩⟩
  all_goals exact absurd rfl hne

/-- IV with its mask. -/
def ivWindow (s : State) : List Byte × List Bool := (s.IV, s.IVM)

/-- The accepted writes that change IV or IVM (R42). -/
theorem iv_write_cause {s : State} {w : WordAddr} {v : Word} (hacc : writeAccepted s.BUSY (targetAt s w) v = true)
    (hne : ivWindow (writeEffect s (targetAt s w) v) ≠ ivWindow s) :
    s.BUSY = false ∧ ((∃ k, k < 64 ∧ byteOffset w = 0x200 + 4 * k) ∨ (byteOffset w = 0x00C ∧ v.getLsbD 2 = true)) := by
  have hoff := offset_of_target s w
  cases ht : targetAt s w <;> rw [ht] at hacc hne hoff
  case iv k => exact ⟨idle_of_writeAccepted hacc nofun nofun, .inl ⟨k, hoff.2, hoff.1⟩⟩
  case ctrl =>
    have hv : v.getLsbD 2 = true := by
      by_contra hv
      exact hne (by rw [ivWindow, writeEffect, storeCtrl_IV, storeCtrl_IVM, if_neg hv, if_neg hv]; rfl)
    exact ⟨idle_of_writeAccepted hacc nofun fun _ => .inr hv, .inr ⟨hoff, hv⟩⟩
  all_goals exact absurd rfl hne

/-- The accepted write that changes CMDL, and what it leaves there (R39). -/
theorem cmdl_write_cause {s : State} {w : WordAddr} {v : Word} (hacc : writeAccepted s.BUSY (targetAt s w) v = true)
    (hne : (writeEffect s (targetAt s w) v).CMDL ≠ s.CMDL) :
    s.BUSY = false ∧ byteOffset w = 0x014 ∧ (writeEffect s (targetAt s w) v).CMDL = v := by
  have hoff := offset_of_target s w
  cases ht : targetAt s w <;> rw [ht] at hacc hne hoff
  case cmd => exact ⟨idle_of_writeAccepted hacc nofun nofun, hoff, rfl⟩
  case ctrl => exact absurd (storeCtrl_CMDL s v) hne
  all_goals exact absurd rfl hne

/-! ### The interrupt line (10_state.md R41) -/

theorem irq_eq_true_iff (s : State) : irq s = true ↔ s.IE = true ∧ s.DONE = true := Bool.and_eq_true_iff

/-- A completion leaves irq at IE, since it sets DONE; a turn that passes leaves irq alone. -/
theorem irq_unitStep {s t : State} (h : unitStep s = .next t) : irq t = if s.BUSY then s.IE else irq s := by
  rcases unitStep_cases h with ⟨hb, rfl⟩ | ⟨hb, ⟨i, -, rfl⟩ | ⟨-, -, rfl⟩⟩
  · simp [hb]
  · simp [hb, irq]
  · simp [hb, irq]

theorem irq_hostRead (s : State) (w : WordAddr) : irq (hostRead s w) = irq s := by
  unfold hostRead
  split <;> rfl

theorem irq_hostWrite_ctrl {s : State} {w : WordAddr} (v : Word) (hw : byteOffset w = 0x00C) :
    irq (hostWrite s w v) = if (hostWrite s w v).resp = some .okWrite then v.getLsbD 0 && s.DONE else irq s := by
  by_cases hacc : writeAccepted s.BUSY .ctrl v = true
  · rw [hostWrite_accepted (targetAt_ctrl hw) hacc, respond_resp, if_pos rfl]
    simp only [irq, respond_IE, respond_DONE, writeEffect, storeCtrl_IE, storeCtrl_DONE]
  · rw [hostWrite_refused (targetAt_ctrl hw) (Bool.not_eq_true _ ▸ hacc), refuseAccess_resp, if_neg nofun]
    rfl

theorem irq_hostWrite_status {s : State} {w : WordAddr} (v : Word) (hw : byteOffset w = 0x010) :
    irq (hostWrite s w v) = (irq s && !v.getLsbD 1) := by
  rw [hostWrite_accepted (targetAt_status hw) rfl]
  exact (Bool.and_assoc _ _ _).symm

theorem irq_hostWrite_cmd {s : State} {w : WordAddr} (v : Word) (hw : byteOffset w = 0x014) :
    irq (hostWrite s w v) = (irq s && s.BUSY) := by
  cases hb : s.BUSY with
  | false =>
    rw [hostWrite_accepted (targetAt_cmd hw) (by rw [hb]; rfl), Bool.and_false]
    exact Bool.and_false _
  | true =>
    rw [hostWrite_refused (targetAt_cmd hw) (by rw [hb]; rfl), Bool.and_true]
    rfl

theorem irq_hostWrite_other {s : State} {w : WordAddr} (v : Word) (hctrl : byteOffset w ≠ 0x00C)
    (hstatus : byteOffset w ≠ 0x010) (hcmd : byteOffset w ≠ 0x014) : irq (hostWrite s w v) = irq s := by
  have hoff := offset_of_target s w
  unfold hostWrite
  split
  · cases ht : targetAt s w <;> rw [ht] at hoff
    case ctrl => exact absurd hoff hctrl
    case status => exact absurd hoff hstatus
    case cmd => exact absurd hoff hcmd
    all_goals rfl
  · rfl

/-- The writes that raise irq, and the writes that lower it (10_state.md R41, 60_exceptions.md R153). -/
theorem irq_hostWrite_iff (s : State) (w : WordAddr) (v : Word) :
    (irq s = false → (irq (hostWrite s w v) = true ↔
      byteOffset w = 0x00C ∧ v.getLsbD 0 = true ∧ s.DONE = true ∧ (hostWrite s w v).resp = some .okWrite))
    ∧ (irq s = true → (irq (hostWrite s w v) = false ↔
      (byteOffset w = 0x010 ∧ v.getLsbD 1 = true) ∨ (byteOffset w = 0x014 ∧ s.BUSY = false)
        ∨ (byteOffset w = 0x00C ∧ v.getLsbD 0 = false ∧ (hostWrite s w v).resp = some .okWrite))) := by
  by_cases hctrl : byteOffset w = 0x00C
  · have hdone (h : irq s = true) : s.DONE = true := ((irq_eq_true_iff s).1 h).2
    rw [irq_hostWrite_ctrl v hctrl]
    by_cases hok : (hostWrite s w v).resp = some .okWrite
    · simp +contextual [hctrl, hok, hdone]
    · simp +contextual [hctrl, hok]
  by_cases hstatus : byteOffset w = 0x010
  · rw [irq_hostWrite_status v hstatus]
    simp +contextual [hstatus]
  by_cases hcmd : byteOffset w = 0x014
  · rw [irq_hostWrite_cmd v hcmd]
    simp +contextual [hcmd]
  · rw [irq_hostWrite_other v hctrl hstatus hcmd]
    simp +contextual [hctrl, hstatus, hcmd]

/-! ### Two states beside each other under the same host accesses -/

/-- A relation between states that shows the host the same and that every effect of an access keeps, is kept by a host access. -/
theorem hostAccess_related {R : State → State → Prop}
    (hview : ∀ {s s'}, R s s' → s'.BUSY = s.BUSY ∧ s'.inst = s.inst ∧ ∀ t, readWord s' t = readWord s t)
    (hrespond : ∀ {s s'} r, R s s' → R (respond s r) (respond s' r))
    (hrefuse : ∀ {s s'}, R s s' → R (refuseAccess s) (refuseAccess s'))
    (hwrite : ∀ {s s'} t v, R s s' → R (writeEffect s t v) (writeEffect s' t v))
    {s s' : State} (h : R s s') (a : Access) : R (hostAccess s a) (hostAccess s' a) := by
  obtain ⟨hbusy, hinst, hread⟩ := hview h
  have htarget (w : WordAddr) : targetAt s' w = targetAt s w := by rw [targetAt, targetAt, hinst]
  cases a with
  | rd w =>
    simp only [hostAccess, hostRead, hbusy, htarget, hread]
    split
    · exact hrespond _ h
    · exact hrefuse h
  | wr w v =>
    simp only [hostAccess, hostWrite, hbusy, htarget]
    split
    · exact hrespond _ (hwrite _ v h)
    · exact hrefuse h

/-- The two states differ at most in the latch. -/
def sameButCmdl (s s' : State) : Prop := ∃ c, s' = { s with CMDL := c }

/-- No host access reads CMDL (10_state.md R39). -/
theorem sameButCmdl_hostAccess {s s' : State} (h : sameButCmdl s s') (a : Access) :
    sameButCmdl (hostAccess s a) (hostAccess s' a) := by
  refine hostAccess_related ?_ ?_ ?_ ?_ h a
  · rintro s _ ⟨c, rfl⟩
    exact ⟨rfl, rfl, fun t => by cases t <;> rfl⟩
  · rintro s _ r ⟨c, rfl⟩
    exact ⟨c, rfl⟩
  · rintro s _ ⟨c, rfl⟩
    exact ⟨c, rfl⟩
  · rintro s _ t v ⟨c, rfl⟩
    cases t with
    | cmd => exact ⟨v, rfl⟩
    | ctrl => exact ⟨c, by ext1 <;> simp [writeEffect]⟩
    | _ => exact ⟨c, rfl⟩

/-- The two states differ at most in the bytes of KEY. -/
def sameButKey (s s' : State) : Prop := ∃ key, key.length = s.KEY.length ∧ s' = { s with KEY := key }

/-- No host access reads KEY (10_state.md R34). -/
theorem sameButKey_hostAccess {s s' : State} (h : sameButKey s s') (a : Access) :
    sameButKey (hostAccess s a) (hostAccess s' a) := by
  refine hostAccess_related ?_ ?_ ?_ ?_ h a
  · rintro s _ ⟨key, -, rfl⟩
    exact ⟨rfl, rfl, fun t => by cases t <;> rfl⟩
  · rintro s _ r ⟨key, hlen, rfl⟩
    exact ⟨key, hlen, rfl⟩
  · rintro s _ ⟨key, hlen, rfl⟩
    exact ⟨key, hlen, rfl⟩
  · rintro s _ t v ⟨key, hlen, rfl⟩
    cases t with
    | key k => exact ⟨setWindowWord key k v, by simp [writeEffect, hlen], rfl⟩
    | ctrl =>
      refine ⟨if v.getLsbD 1 then key.map fun _ => 0 else key, ?_, by ext1 <;> simp [writeEffect]⟩
      rw [writeEffect, storeCtrl_KEY]
      split <;> simp [hlen]
    | _ => exact ⟨key, hlen, rfl⟩

theorem sameButKey_foldl {s s' : State} (h : sameButKey s s') (accesses : List Access) :
    sameButKey (accesses.foldl hostAccess s) (accesses.foldl hostAccess s') := by
  induction accesses generalizing s s' with
  | nil => exact h
  | cons a rest ih => exact ih (sameButKey_hostAccess h a)

theorem length_KEY_hostAccess (s : State) (a : Access) : (hostAccess s a).KEY.length = s.KEY.length := by
  rcases hostAccess_cases s a with he | ⟨w, -, -, he⟩ | ⟨w, v, -, -, he⟩ <;> rw [he]
  · rfl
  · rfl
  · cases targetAt s w with
    | key k => exact length_setWindowWord _ _ _
    | ctrl =>
      rw [respond_KEY, writeEffect, storeCtrl_KEY]
      split <;> simp
    | _ => rfl

theorem length_KEY_foldl (s : State) (accesses : List Access) :
    (accesses.foldl hostAccess s).KEY.length = s.KEY.length := by
  induction accesses generalizing s with
  | nil => rfl
  | cons a rest ih => exact (ih _).trans (length_KEY_hostAccess s a)

end Sys2Proof.Machine
end

section
/-! SUPPORT. The statements on the state, its registers and windows, settled. -/

namespace Sys2Proof.Proofs

open Sys2Proof Sys2Proof.Machine Sys2Proof.Rules

/-- Settles O12: an event is a host access, a turn of the unit or reset, and each is built from operations that keep Inv. -/
theorem stepKeepsInvariant : Obligations.StepKeepsInvariant := fun _ _ h ht => inv_step h ht

/-- Settles O10: the step is applyReset, which computes each field from the parameters and the count of resets alone. -/
theorem resetEventSetsEveryField : Obligations.ResetEventSetsEveryField := by
  intro s rest hl henv
  obtain ⟨hB, -, hK, -⟩ := legal_bounds hl
  have hstep : step s = .next (applyReset { s with env := rest }) := by rw [step, henv]; rfl
  exact ⟨_, hstep, rfl, rfl, rfl, rfl, rfl, rfl, rfl, rfl, rfl, rfl, rfl, rfl, rfl, rfl,
    all_id_replicate_false (one_le_ceil4 hK), all_id_replicate_false (one_le_ceil4 hB), rfl, fun _ => rfl, rfl, rfl, rfl⟩

/-- Settles O21: the write is storeKey, read off byte by byte; a turn of the unit is framed by unitStep_frame. -/
theorem keyWindowIsWriteOnly : Obligations.KeyWindowIsWriteOnly := by
  refine ⟨fun s w v k hk hw => ⟨fun hb => ?_, fun hb => access_refused_of_busy hb (targetAt_key hk hw) rfl v⟩,
    fun s t h => ?_, fun _ _ _ => ⟨rfl, rfl⟩⟩
  · exact ⟨_, _, hostWrite_accepted (targetAt_key hk hw) (by rw [hb]; rfl), length_setWindowWord _ _ _, List.length_set,
      getD_setWindowWord _ _ _, getD_set_true _ _, hostRead_accepted (targetAt_key hk hw) (by rw [hb]; rfl)⟩
  · have hf := unitStep_frame h
    exact ⟨(congrArg State.KEY hf :), (congrArg State.KEYM hf :)⟩

/-- Settles O22: the write is storeIv, read off byte by byte; the read is windowWord, whose bytes beyond the end are 0. -/
theorem ivWindowReadsBack : Obligations.IvWindowReadsBack := by
  refine ⟨fun s w v k hk hw => ⟨fun hb => ⟨?_, ?_⟩, fun hb => access_refused_of_busy hb (targetAt_iv hk hw) rfl v⟩,
    fun s t h => ?_, fun _ _ _ => ⟨rfl, rfl⟩⟩
  · exact ⟨_, _, hostWrite_accepted (targetAt_iv hk hw) (by rw [hb]; rfl), length_setWindowWord _ _ _, List.length_set,
      getD_setWindowWord _ _ _, getD_set_true _ _⟩
  · exact ⟨_, hostRead_accepted (targetAt_iv hk hw) (by rw [hb]; rfl), toNat_windowWord _ _⟩
  · have hf := unitStep_frame h
    exact ⟨(congrArg State.IV hf :), (congrArg State.IVM hf :)⟩

/-- Settles O23: the write is storeBuf, the read the word of four bytes of BUF; after reset BUF lists no byte. -/
theorem bufWindowReadsAndWrites : Obligations.BufWindowReadsAndWrites := by
  refine ⟨fun s w v k hk hw => ⟨fun hb => ⟨?_, ?_⟩, fun hb => access_refused_of_busy hb (targetAt_buf hk hw) rfl v⟩,
    fun _ _ _ _ => rfl⟩
  · exact ⟨_, hostWrite_accepted (targetAt_buf hk hw) (by rw [hb]; rfl), bufByte_storeBuf s k v⟩
  · exact ⟨_, hostRead_accepted (targetAt_buf hk hw) (by rw [hb]; rfl), toNat_wordOfBytes _ _ _ _⟩

/-- Settles O24: a step that changes a window is reset or an accepted write, and few writes reach the window. -/
theorem keyAndIvChangeOnlyByTheHost : Obligations.KeyAndIvChangeOnlyByTheHost := by
  intro s t h
  refine ⟨fun hne => ?_, fun hne => ?_⟩
  · have hne' : keyWindow t ≠ keyWindow s := by simpa [keyWindow, imp_iff_not_or] using hne
    refine (step_change_cause keyWindow (fun _ _ => rfl) (fun _ _ => rfl) (fun _ => rfl)
      (fun _ _ hu => (congrArg keyWindow (unitStep_frame hu) :)) h hne').imp_right ?_
    rintro ⟨w, v, rest, he, hacc, hf⟩
    obtain ⟨hb, hcause⟩ := key_write_cause (s := { s with env := rest }) hacc (hf ▸ hne')
    exact ⟨hb, v, hcause.imp (fun ⟨k, hk, hw⟩ => ⟨k, hk, w, rest, he, hw⟩) fun ⟨hw, hv⟩ => ⟨⟨w, rest, he, hw⟩, hv⟩⟩
  · have hne' : ivWindow t ≠ ivWindow s := by simpa [ivWindow, imp_iff_not_or] using hne
    refine (step_change_cause ivWindow (fun _ _ => rfl) (fun _ _ => rfl) (fun _ => rfl)
      (fun _ _ hu => (congrArg ivWindow (unitStep_frame hu) :)) h hne').imp_right ?_
    rintro ⟨w, v, rest, he, hacc, hf⟩
    obtain ⟨hb, hcause⟩ := iv_write_cause (s := { s with env := rest }) hacc (hf ▸ hne')
    exact ⟨hb, v, hcause.imp (fun ⟨k, hk, hw⟩ => ⟨k, hk, w, rest, he, hw⟩) fun ⟨hw, hv⟩ => ⟨⟨w, rest, he, hw⟩, hv⟩⟩

/-- Settles O25: a clear action leaves a nonempty mask of zeros, and a window write only sets mask bits. -/
theorem clearInvalidatesAndRewriteKeepsValid : Obligations.ClearInvalidatesAndRewriteKeepsValid := by
  intro s w v hinv hb
  obtain ⟨hB, -, hK, -⟩ := legal_bounds hinv.legal
  have hkm : s.KEYM.length = ceil4 s.inst.KLEN := hinv.keymLength
  have him : s.IVM.length = ceil4 s.inst.B := hinv.ivmLength
  have hctrl (hw : byteOffset w = 0x00C) : hostWrite s w v = respond (storeCtrl s v) .okWrite :=
    hostWrite_accepted (targetAt_ctrl hw) (by rw [hb]; rfl)
  have hkey {k : Nat} (ht : targetAt s w = .key k) : hostWrite s w v = respond (storeKey s k v) .okWrite :=
    hostWrite_accepted ht (by rw [hb]; rfl)
  have hiv {k : Nat} (ht : targetAt s w = .iv k) : hostWrite s w v = respond (storeIv s k v) .okWrite :=
    hostWrite_accepted ht (by rw [hb]; rfl)
  refine ⟨fun hw hv => ?_, fun hw hv => ?_, fun h h' hvalid => ?_, fun h h' hvalid => ?_, fun hw h4 => ?_, fun hw h4 => ?_⟩
  · simpa [hctrl hw, keyValid, hv, hkm] using all_id_replicate_false (one_le_ceil4 hK)
  · simpa [hctrl hw, ivValid, hv, him] using all_id_replicate_false (one_le_ceil4 hB)
  · obtain ⟨k, ht⟩ := targetAt_of_mem_keyWindow s h h'
    rw [hkey ht]
    exact all_id_set_true k hvalid
  · obtain ⟨k, ht⟩ := targetAt_of_mem_ivWindow s h h'
    rw [hiv ht]
    exact all_id_set_true k hvalid
  · rw [hkey (targetAt_key (k := 0) (by decide) hw)]
    exact all_id_set_zero (hkm.trans (ceil4_eq_one hK h4))
  · rw [hiv (targetAt_iv (k := 0) (by decide) hw)]
    exact all_id_set_zero (him.trans (ceil4_eq_one hB h4))

/-- Settles O28 by the cases of a step: a read leaves irq alone, a write moves it as irq_hostWrite_iff says, reset clears it,
and a turn of the unit leaves IE when it completes a command. -/
theorem interruptLineRisesAndFalls : Obligations.InterruptLineRisesAndFalls := by
  refine ⟨irq_eq_true_iff, fun s t h => ?_⟩
  rcases step_cases h with ⟨a, rest, he, rfl⟩ | ⟨rest, he, rfl⟩ | ⟨rest, he, hu⟩
  · cases a with
    | rd w =>
      have hirq : irq (hostAccess { s with env := rest } (.rd w)) = irq s := irq_hostRead { s with env := rest } w
      simp [hirq, nextIsUnit, nextWrites, nextResets, he]
    | wr w v =>
      have hnw (o : Nat) (v' : Word) : nextWrites s o v' ↔ v' = v ∧ byteOffset w = o := by
        simp [nextWrites, he, eq_comm]
      have hunit : ¬ nextIsUnit s := by simp [nextIsUnit, he]
      have hr : ¬ nextResets s := by simp [nextResets, he]
      simp only [hnw, hunit, hr, false_and, false_or, or_false, and_assoc, exists_eq_left]
      exact irq_hostWrite_iff { s with env := rest } w v
  · simp [nextIsUnit, nextWrites, nextResets, he, irq]
  · have hnw (o : Nat) (v : Word) : ¬ nextWrites s o v := by rcases he with he | ⟨he, -⟩ <;> simp [nextWrites, he]
    have hunit : nextIsUnit s := he.symm.imp (·.1) fun he => ⟨rest, he⟩
    have hr : ¬ nextResets s := by rcases he with he | ⟨he, -⟩ <;> simp [nextResets, he]
    have hirq : irq t = if s.BUSY then s.IE else irq s := (irq_unitStep hu :)
    simp only [hnw, hunit, hr, hirq, false_and, exists_false, or_false, true_and, iff_false]
    cases s.BUSY
    · simp +contextual
    · simp +contextual [irq]

/-- Settles O29: every host access keeps the relation sameButKey, so a list of them does. -/
theorem keyCannotBeReadBack : Obligations.KeyCannotBeReadBack := by
  intro s key accesses hlen
  obtain ⟨key', hlen', he⟩ := sameButKey_foldl ⟨key, hlen, rfl⟩ accesses
  exact ⟨key', by rw [hlen', length_KEY_foldl, hlen], he⟩

/-- Settles O11: Inv holds of every state after reset with legal parameters, the default ones among them. -/
theorem resetMeetsInvariant : Obligations.ResetMeetsInvariant :=
  ⟨inv_afterReset (by decide) _ _, fun _ d env hp => inv_afterReset hp d env⟩

/-- Settles O16: the reads give idWord, infoWord, bufszWord and RLEN, and no write to the four is accepted. -/
theorem readOnlyRegisters : Obligations.ReadOnlyRegisters := by
  intro s w v hl
  obtain ⟨-, hB, -, hK, -⟩ := legal_bounds hl
  have hinfo : (infoWord s.inst).toNat = s.inst.B + 256 * s.inst.KLEN + 0x01000000 := toNat_infoWord hl
  have hdigit (i n : Nat) (h : (infoWord s.inst).toNat / 2 ^ (8 * i) % 2 ^ 8 = n) :
      ((infoWord s.inst).extractLsb' (8 * i) 8).toNat = n := (toNat_wordByte _ i).trans h
  refine ⟨fun hw => ?_, fun hw => ?_, fun hw => ?_, fun hw => ?_, fun hw => ?_⟩
  · rw [hostRead_accepted (targetAt_id hw) rfl]; rfl
  · refine ⟨infoWord s.inst, by rw [hostRead_accepted (targetAt_info hw) rfl]; rfl, hdigit 0 _ ?_, hdigit 1 _ ?_,
      BitVec.eq_of_toNat_eq (hdigit 2 _ ?_), BitVec.eq_of_toNat_eq (hdigit 3 _ ?_), hinfo, fun hd => by rw [hd]; rfl⟩ <;>
      rw [hinfo] <;> simp <;> omega
  · exact ⟨bufszWord s.inst, by rw [hostRead_accepted (targetAt_bufsz hw) rfl]; rfl, toNat_bufszWord hl,
      fun hd => by rw [hd]; rfl⟩
  · rw [hostRead_accepted (targetAt_rlen hw) rfl]; rfl
  · simp only [List.mem_cons, List.not_mem_nil, or_false] at hw
    rcases hw with hw | hw | hw | hw
    · exact hostWrite_refused (targetAt_id hw) rfl
    · exact hostWrite_refused (targetAt_info hw) rfl
    · exact hostWrite_refused (targetAt_bufsz hw) rfl
    · exact hostWrite_refused (targetAt_rlen hw) rfl

/-- Settles O17: the accepted write is storeCtrl, and with a clear action selected it is refused while BUSY = 1. -/
theorem ctrlReadsAndWrites : Obligations.CtrlReadsAndWrites := by
  intro s w v hw
  have ht : targetAt s w = .ctrl := targetAt_ctrl hw
  refine ⟨⟨ctrlWord s, by rw [hostRead_accepted ht rfl]; rfl, ctrlWord_fields s⟩, fun hok => ?_, fun hb hv => ?_, rfl⟩
  · have hacc : writeAccepted s.BUSY .ctrl v = true := by
      simpa only [writeAccepted, Bool.or_eq_true, Bool.and_eq_true, Bool.not_eq_true'] using hok
    rw [hostWrite_accepted ht hacc]
    ext1 <;> simp [writeEffect]
  · refine hostWrite_refused ht ?_
    rcases hv with hv | hv <;> simp only [writeAccepted, hb, hv] <;> simp

/-- Settles O18: the read is statusWord, field by field, and the write is acknowledge. -/
theorem statusReadsAndWrites : Obligations.StatusReadsAndWrites := by
  intro s w v hw
  have ht : targetAt s w = .status := targetAt_status hw
  obtain ⟨hbusy, hdone, hkey, hiv, hrest⟩ := statusWord_fields s
  refine ⟨⟨statusWord s, by rw [hostRead_accepted ht rfl]; rfl, hbusy, hdone, ?_, ?_, hrest⟩, ?_⟩
  · rw [hkey]; exact all_id_iff s.KEYM
  · rw [hiv]; exact all_id_iff s.IVM
  · rw [hostWrite_accepted ht rfl]
    have hclear (b c : Bool) : (b && !c) = if c then false else b := by cases b <;> cases c <;> rfl
    simp only [writeEffect, acknowledge, hclear]
    rfl

/-- Settles O19: the accepted write is issue. -/
theorem cmdWriteIssuesOrIsDropped : Obligations.CmdWriteIssuesOrIsDropped := fun s w v hw =>
  have ht : targetAt s w = .cmd := targetAt_cmd hw
  ⟨fun hb => ⟨hostWrite_accepted ht (by rw [hb]; rfl), hostRead_accepted ht (by rw [hb]; rfl)⟩,
    fun hb => access_refused_of_busy hb ht rfl v, rfl⟩

/-- Settles O20: each accepted write sets its one register; a turn of the unit is framed by unitStep_frame. -/
theorem operandRegistersHoldWhatIsWritten : Obligations.OperandRegistersHoldWhatIsWritten := by
  refine ⟨fun s w v hb => ?_, fun s t h => ?_, rfl, rfl, rfl⟩
  · have hsrc (hw : byteOffset w = 0x018) : hostWrite s w v = { s with SRC := v, resp := some .okWrite } :=
      hostWrite_accepted (targetAt_src hw) (by rw [hb]; rfl)
    have hlen (hw : byteOffset w = 0x01C) : hostWrite s w v = { s with LEN := v, resp := some .okWrite } :=
      hostWrite_accepted (targetAt_len hw) (by rw [hb]; rfl)
    have hdst (hw : byteOffset w = 0x020) : hostWrite s w v = { s with DST := v, resp := some .okWrite } :=
      hostWrite_accepted (targetAt_dst hw) (by rw [hb]; rfl)
    refine ⟨hsrc, hlen, hdst, fun hw => ?_⟩
    simp only [List.mem_cons, List.not_mem_nil, or_false] at hw
    rcases hw with hw | hw | hw
    · rw [hsrc hw, hostRead_accepted (targetAt_src hw) (by simp only [hb]; rfl)]; rfl
    · rw [hlen hw, hostRead_accepted (targetAt_len hw) (by simp only [hb]; rfl)]; rfl
    · rw [hdst hw, hostRead_accepted (targetAt_dst hw) (by simp only [hb]; rfl)]; rfl
  · have hf := unitStep_frame h
    exact ⟨(congrArg State.SRC hf :), (congrArg State.LEN hf :), (congrArg State.DST hf :)⟩

/-- Settles O27: only issue and reset write CMDL, host accesses keep the relation sameButCmdl, and Exec does not read CMDL. -/
theorem cmdlIsWrittenByIssueAndReadByCompletion : Obligations.CmdlIsWrittenByIssueAndReadByCompletion := by
  refine ⟨fun s t h hne => ?_, fun s c a => sameButCmdl_hostAccess ⟨c, rfl⟩ a, fun s hb => ?_, fun i s t c h => ?_⟩
  · refine (step_change_cause State.CMDL (fun _ _ => rfl) (fun _ _ => rfl) (fun _ => rfl)
      (fun s t hu => (congrArg State.CMDL (unitStep_frame hu) :)) h hne).imp_right ?_
    rintro ⟨w, v, rest, he, hacc, hf⟩
    obtain ⟨hb, hw, hv⟩ := cmdl_write_cause (s := { s with env := rest }) hacc (hf ▸ hne)
    exact ⟨hb, w, rest, by rw [hf.trans hv]; exact he, hw⟩
  · simp only [unitStep, hb, if_true, completeStep]
    cases decode s.CMDL <;> rfl
  · obtain rfl := (exec_next_iff i s t).1 h
    rw [exec_eq]
    have hr : resultOf i { s with CMDL := c } = resultOf i s := by cases i <;> rfl
    rw [hr]
    cases resultOf i s <;> rfl

end Sys2Proof.Proofs
end

section
/-! SUPPORT. Refused accesses, repeated accesses, the host beside a busy unit, and the output before it is placed (20_memory.md R54 to R60). -/

namespace Sys2Proof.Machine

open Sys2Proof Sys2Proof.Rules

/-! ### Which accesses are refused (20_memory.md R54, R55, R57) -/

/-- The offsets at which the rules refuse a read are those whose target does not accept it. -/
theorem refused_rd_iff (s : State) (w : WordAddr) :
    refused s (.rd w) ↔ readAccepted s.BUSY (targetAt s w) = false := by
  have hoff := offset_of_target s w
  cases hb : s.BUSY <;> cases ht : targetAt s w <;> rw [ht] at hoff
  all_goals
    simp only [refused, reservedOffset, readAccepted, hb, List.mem_cons, List.not_mem_nil, or_false, Bool.not_true,
      Bool.not_false, Bool.false_eq_true, Bool.true_eq_false, iff_false, iff_true, false_and, true_and]
    omega

/-- The writes that the rules refuse are those their target does not accept; only at CTRL does the value count. -/
theorem refused_wr_iff (s : State) (w : WordAddr) (v : Word) :
    refused s (.wr w v) ↔ writeAccepted s.BUSY (targetAt s w) v = false := by
  have hoff := offset_of_target s w
  cases hb : s.BUSY <;> cases ht : targetAt s w <;> rw [ht] at hoff
  case true.ctrl =>
    have hoff : byteOffset w = 0x00C := hoff
    have hres : ¬ reservedOffset s 0x00C := by unfold reservedOffset; omega
    simp [refused, writeAccepted, hb, hoff, hres]
  all_goals
    simp only [refused, reservedOffset, writeAccepted, hb, List.mem_cons, List.not_mem_nil, or_false, Bool.not_true,
      Bool.not_false, Bool.true_or, Bool.false_eq_true, Bool.true_eq_false, iff_false, iff_true, false_and, true_and]
    omega

theorem hostAccess_of_refused {s : State} {a : Access} (h : refused s a) : hostAccess s a = refuseAccess s := by
  cases a with
  | rd w => exact hostRead_refused rfl ((refused_rd_iff s w).1 h)
  | wr w v => exact hostWrite_refused rfl ((refused_wr_iff s w v).1 h)

theorem hostRead_of_not_refused {s : State} {w : WordAddr} (h : ¬ refused s (.rd w)) :
    hostRead s w = respond s (.okRead (readWord s (targetAt s w))) :=
  hostRead_accepted rfl (Bool.eq_true_of_not_eq_false (mt (refused_rd_iff s w).2 h))

theorem hostWrite_of_not_refused {s : State} {w : WordAddr} {v : Word} (h : ¬ refused s (.wr w v)) :
    hostWrite s w v = respond (writeEffect s (targetAt s w) v) .okWrite :=
  hostWrite_accepted rfl (Bool.eq_true_of_not_eq_false (mt (refused_wr_iff s w v).2 h))

/-- The port answers ERR to the refused accesses and to no other. -/
theorem resp_hostAccess_eq_err_iff (s : State) (a : Access) : (hostAccess s a).resp = some .err ↔ refused s a := by
  refine ⟨fun h => ?_, fun h => by rw [hostAccess_of_refused h, refuseAccess_resp]⟩
  by_contra hn
  cases a with
  | rd w => rw [hostAccess, hostRead_of_not_refused hn] at h; cases h
  | wr w v => rw [hostAccess, hostWrite_of_not_refused hn] at h; cases h

/-- The write that changes HERR is an acknowledge of its bit (10_state.md R28). -/
theorem herr_write_cause {s : State} {w : WordAddr} {v : Word}
    (hne : (writeEffect s (targetAt s w) v).HERR ≠ s.HERR) : byteOffset w = 0x010 ∧ v.getLsbD 8 = true := by
  have hoff := offset_of_target s w
  cases ht : targetAt s w <;> rw [ht] at hne hoff
  case status =>
    refine ⟨hoff, ?_⟩
    by_contra hv
    exact hne (by rw [writeEffect, acknowledge_HERR, Bool.eq_false_of_not_eq_true hv]; exact Bool.and_true _)
  case ctrl => exact absurd (storeCtrl_HERR s v) hne
  all_goals exact absurd rfl hne

/-- Only reset and a STATUS write with bit 8 set take HERR from 1 to 0 (60_exceptions.md R151). -/
theorem herr_fall_cause {s t : State} (h : step s = .next t) (hs : s.HERR = true) (ht : t.HERR = false) :
    (∃ v, nextWrites s 0x010 v ∧ v.getLsbD 8 = true) ∨ nextResets s := by
  have hne : t.HERR ≠ s.HERR := by rw [hs, ht]; decide
  rcases step_cases h with ⟨a, rest, he, rfl⟩ | ⟨rest, he, -⟩ | ⟨rest, -, hu⟩
  · rcases hostAccess_cases { s with env := rest } a with hr | ⟨w, -, -, hr⟩ | ⟨w, v, rfl, -, hr⟩ <;> rw [hr] at ht hne
    · cases ht
    · exact absurd rfl hne
    · obtain ⟨hw, hv⟩ := herr_write_cause hne
      exact .inl ⟨v, ⟨w, rest, he, hw⟩, hv⟩
  · exact .inr ⟨rest, he⟩
  · exact absurd (congrArg State.HERR (unitStep_frame hu)) hne

/-! ### The same access again (R56) -/

/-- No read returns the record of the last response. -/
theorem readWord_respond (s : State) (r : Response) (t : Target) : readWord (respond s r) t = readWord s t := by
  cases t <;> rfl

theorem hostRead_hostRead (s : State) (w : WordAddr) : hostRead (hostRead s w) w = hostRead s w := by
  cases h : readAccepted s.BUSY (targetAt s w) with
  | false =>
    rw [hostRead_refused rfl h, hostRead_refused (s := refuseAccess s) rfl h]
    rfl
  | true =>
    rw [hostRead_accepted rfl h, hostRead_accepted (s := respond s _) rfl h, readWord_respond]
    rfl

/-- No write reads the record of the last response. -/
theorem writeEffect_respond (s : State) (r : Response) (t : Target) (v : Word) :
    writeEffect (respond s r) t v = respond (writeEffect s t v) r := by
  cases t with
  | ctrl => ext1 <;> simp [writeEffect]
  | _ => rfl

/-- Only a CMD write makes the unit busy (40_command_execution.md R90). -/
theorem writeEffect_BUSY {t : Target} (ht : t ≠ .cmd) (s : State) (v : Word) : (writeEffect s t v).BUSY = s.BUSY := by
  cases t with
  | cmd => exact absurd rfl ht
  | ctrl => exact storeCtrl_BUSY s v
  | _ => rfl

theorem storeCtrl_storeCtrl (s : State) (v : Word) : storeCtrl (storeCtrl s v) v = storeCtrl s v := by
  ext1 <;> simp
  all_goals split <;> simp [*]

theorem acknowledge_acknowledge (s : State) (v : Word) : acknowledge (acknowledge s v) v = acknowledge s v := by
  simp [acknowledge]

theorem storeKey_storeKey (s : State) (k : Nat) (v : Word) : storeKey (storeKey s k v) k v = storeKey s k v := by
  ext1 <;> simp [setWindowWord_setWindowWord]

theorem storeIv_storeIv (s : State) (k : Nat) (v : Word) : storeIv (storeIv s k v) k v = storeIv s k v := by
  ext1 <;> simp [setWindowWord_setWindowWord]

/-- In canonical form equal bytes are equal lists, so storing a word of BUF again changes nothing (log 6). -/
theorem storeBuf_storeBuf {s : State} (h : Memory.wf s.BUF = true) (k : Nat) (v : Word) :
    storeBuf (storeBuf s k v) k v = storeBuf s k v := by
  ext1 <;> simp [Memory.writeBytes_writeBytes _ _ h]

/-- Every effect of a write but issue is idempotent. -/
theorem writeEffect_writeEffect {s : State} (hbuf : Memory.wf s.BUF = true) {t : Target} (ht : t ≠ .cmd) (v : Word) :
    writeEffect (writeEffect s t v) t v = writeEffect s t v := by
  cases t with
  | cmd => exact absurd rfl ht
  | ctrl => exact storeCtrl_storeCtrl s v
  | status => exact acknowledge_acknowledge s v
  | key k => exact storeKey_storeKey s k v
  | iv k => exact storeIv_storeIv s k v
  | buf k => exact storeBuf_storeBuf hbuf k v
  | src | len | dst | id | info | bufsz | rlen | reserved => rfl

theorem hostWrite_hostWrite {s : State} (hbuf : Memory.wf s.BUF = true) {w : WordAddr} (hw : targetAt s w ≠ .cmd)
    (v : Word) : hostWrite (hostWrite s w v) w v = hostWrite s w v := by
  cases h : writeAccepted s.BUSY (targetAt s w) v with
  | false =>
    rw [hostWrite_refused rfl h, hostWrite_refused (s := refuseAccess s) rfl h]
    rfl
  | true =>
    have ht : targetAt (respond (writeEffect s (targetAt s w) v) .okWrite) w = targetAt s w := by
      rw [targetAt, respond_inst, writeEffect_inst, targetAt]
    rw [hostWrite_accepted rfl h, hostWrite_accepted ht (by rwa [respond_BUSY, writeEffect_BUSY hw]),
      writeEffect_respond, writeEffect_writeEffect hbuf hw]
    rfl

/-! ### The host beside a command in flight (R57, 40_command_execution.md R94) -/

/-- The two states differ at most in IE, DONE, HERR and the response: in nothing that a completion reads. -/
def sameButFlags (s s' : State) : Prop :=
  ∃ ie done herr resp, s' = { s with IE := ie, DONE := done, HERR := herr, resp := resp }

/-- Without a clear action a CTRL write sets IE alone (10_state.md R27). -/
theorem storeCtrl_of_no_clear {s : State} {v : Word} (h1 : v.getLsbD 1 = false) (h2 : v.getLsbD 2 = false) :
    storeCtrl s v = { s with IE := v.getLsbD 0 } := by
  rw [storeCtrl, h1, h2]
  rfl

/-- While BUSY = 1 the only writes accepted are STATUS and CTRL without a clear action (R57). -/
theorem sameButFlags_hostAccess {s : State} (hb : s.BUSY = true) (a : Access) : sameButFlags s (hostAccess s a) := by
  rcases hostAccess_cases s a with he | ⟨w, -, -, he⟩ | ⟨w, v, -, hacc, he⟩ <;> rw [he]
  · exact ⟨_, _, _, _, rfl⟩
  · exact ⟨_, _, _, _, rfl⟩
  · have hbusy : s.BUSY ≠ false := by rw [hb]; decide
    cases ht : targetAt s w <;> rw [ht] at hacc
    case status => exact ⟨_, _, _, _, rfl⟩
    case ctrl =>
      by_cases hv : v.getLsbD 1 = true ∨ v.getLsbD 2 = true
      · exact absurd (idle_of_writeAccepted hacc nofun fun _ => hv) hbusy
      · obtain ⟨h1, h2⟩ := not_or.1 hv
        rw [writeEffect, storeCtrl_of_no_clear (Bool.eq_false_of_not_eq_true h1) (Bool.eq_false_of_not_eq_true h2)]
        exact ⟨_, _, _, _, rfl⟩
    all_goals exact absurd (idle_of_writeAccepted hacc nofun nofun) hbusy

theorem sameButFlags_foldl {s : State} (hb : s.BUSY = true) (accesses : List Access) :
    sameButFlags s (accesses.foldl hostAccess s) := by
  induction accesses generalizing s with
  | nil => exact ⟨_, _, _, _, rfl⟩
  | cons a rest ih =>
    obtain ⟨ie, done, herr, resp, he⟩ := sameButFlags_hostAccess hb a
    obtain ⟨ie', done', herr', resp', he'⟩ := ih (s := hostAccess s a) (by rw [he]; exact hb)
    exact ⟨ie', done', herr', resp', by rw [List.foldl_cons, he', he]⟩

/-- What the latched word returns when it completes (40_command_execution.md R91, 30_encoding.md R75). -/
def latchedResult (s : State) : Except CmdError (List Byte) :=
  match decode s.CMDL with
  | .ok i => resultOf i s
  | .error _ => .error .illegalCmd

theorem unitStep_of_busy {s : State} (hb : s.BUSY = true) : unitStep s = .next (finish s (latchedResult s)) := by
  rw [unitStep, if_pos hb, completeStep, latchedResult]
  cases decode s.CMDL with
  | ok i => exact exec_eq i s
  | error e => rfl

/-- A completion reads no flag but BUSY, and sets DONE whatever it was. -/
theorem unitStep_withFlags {s : State} (hb : s.BUSY = true) (ie done herr : Bool) (resp : Option Response) :
    unitStep { s with IE := ie, DONE := done, HERR := herr, resp := resp }
      = .next { finish s (latchedResult s) with IE := ie, HERR := herr, resp := resp } := by
  have hr : latchedResult { s with IE := ie, DONE := done, HERR := herr, resp := resp } = latchedResult s := by
    unfold latchedResult
    cases decode s.CMDL with
    | ok i => cases i <;> rfl
    | error e => rfl
  rw [unitStep_of_busy (s := { s with IE := ie, DONE := done, HERR := herr, resp := resp }) hb, hr]
  cases latchedResult s <;> rfl

/-! ### The output before it is placed (20_memory.md R60) -/

/-- What Exec computes before it looks at DST: the first failing check, or the output. -/
def outputOf (i : Instr) (s : State) : Except CmdError (List Byte) :=
  match i with
  | .pad pbs => do
    require (pbs != 0) .illegalCmd
    requireSource s
    return padBytes (inputBytes s) pbs.toNat
  | .unpad chk => do
    requireSource s
    requireNonempty s
    unpadBytes (inputBytes s) chk
  | .ecbEnc => do
    requireKey s
    requireSource s
    requireBlocks s
    return ecbEncrypt s.inst s.KEY (inputBytes s)
  | .ecbDec => do
    requireKey s
    requireSource s
    requireBlocks s
    return ecbDecrypt s.inst s.KEY (inputBytes s)
  | .cbcEnc => do
    requireKey s
    requireIv s
    requireSource s
    return cbcEncrypt s.inst s.KEY s.IV (inputBytes s)
  | .cbcDec chk => do
    requireKey s
    requireIv s
    requireSource s
    requireNonempty s
    requireBlocks s
    cbcDecrypt s.inst s.KEY s.IV (inputBytes s) chk

/-- The check that the output fits at DST is the last thing Exec does (40_command_execution.md R93). -/
theorem resultOf_eq_outputOf_bind (i : Instr) (s : State) : resultOf i s = outputOf i s >>= placeOutput s := by
  cases i <;> simp only [resultOf, outputOf, padResult, unpadResult, ecbEncResult, ecbDecResult, cbcEncResult,
    cbcDecResult, bind_assoc, pure_bind]

/-- DST does not decide what the output is. -/
theorem outputOf_withDST (i : Instr) (s : State) (d : Word) : outputOf i { s with DST := d } = outputOf i s := by
  cases i <;> rfl

theorem outputOf_of_resultOf {i : Instr} {s : State} {out : List Byte} (h : resultOf i s = .ok out) :
    outputOf i s = .ok out :=
  (placeOutput_of_bind ((resultOf_eq_outputOf_bind i s).symm.trans h)).1

theorem errCode_ne_zero (e : CmdError) : errCode e ≠ 0 := by cases e <;> decide

/-- A completion without an error wrote an output (40_command_execution.md R91). -/
theorem exec_ok_of_ERR_eq_zero {i : Instr} {s t : State} (h : exec i s = .next t) (hok : t.ERR = 0) :
    ∃ out, resultOf i s = .ok out ∧ t = completeOk s out := by
  obtain rfl := (exec_next_iff i s t).1 h
  rcases finish_cases s (resultOf i s) with ⟨out, hr, hf⟩ | ⟨e, -, hf⟩
  · exact ⟨out, hr, hf⟩
  · rw [hf] at hok
    exact absurd hok (errCode_ne_zero e)

end Sys2Proof.Machine
end

section
/-! SUPPORT. The statements of 20_memory.md on the host port and on overlap, settled. -/

namespace Sys2Proof.Proofs

open Sys2Proof Sys2Proof.Machine Sys2Proof.Rules

/-- Settles O14: the refused accesses are those whose target does not accept them, and refuseAccess is what they get. -/
theorem accessErrorsExactlyWhenRefused : Obligations.AccessErrorsExactlyWhenRefused :=
  ⟨fun s a => ⟨resp_hostAccess_eq_err_iff s a, hostAccess_of_refused⟩, fun _ _ => herr_fall_cause⟩

/-- Settles O15: an accepted read is respond alone, and each effect of a write but issue is idempotent. -/
theorem readsHaveNoSideEffectAndWritesAreIdempotent : Obligations.ReadsHaveNoSideEffectAndWritesAreIdempotent := by
  refine ⟨fun s w h => ⟨_, hostRead_of_not_refused h⟩, hostRead_hostRead, fun s w v hinv hw => ?_⟩
  refine hostWrite_hostWrite hinv.bufWf (fun ht => hw ?_) v
  have hoff := offset_of_target s w
  rwa [ht] at hoff

/-- Settles O26: the host can change flags alone while BUSY = 1, and a completion reads no flag. -/
theorem hostCannotDisturbCommandInFlight : Obligations.HostCannotDisturbCommandInFlight := by
  intro s accesses hb
  obtain ⟨ie, done, herr, resp, he⟩ := sameButFlags_foldl hb accesses
  rw [he]
  exact ⟨hb, rfl, _, _, unitStep_of_busy hb, unitStep_withFlags hb ie done herr resp, rfl, rfl, rfl,
    finish_BUSY s _, finish_DONE s _, rfl, rfl, rfl, rfl, rfl, rfl, rfl⟩

/-- Settles O52: the output is computed before DST is read, and both completions write that output, each at its own DST. -/
theorem outputDoesNotDependOnOverlap : Obligations.OutputDoesNotDependOnOverlap := by
  intro i s t t' d hl h h' hok hok'
  obtain ⟨out, hr, rfl⟩ := exec_ok_of_ERR_eq_zero h hok
  obtain ⟨out', hr', rfl⟩ := exec_ok_of_ERR_eq_zero h' hok'
  have hout : out' = out := by
    have ho : outputOf i s = .ok out' := (outputOf_withDST i s d).symm.trans (outputOf_of_resultOf hr')
    exact Except.ok.inj (ho.symm.trans (outputOf_of_resultOf hr))
  subst hout
  obtain ⟨-, hlen, hbytes⟩ := exec_of_ok hl hr
  obtain ⟨-, -, hbytes'⟩ := exec_of_ok (s := { s with DST := d }) hl hr'
  refine ⟨rfl, fun j hj => ?_⟩
  rw [hlen] at hj
  exact (hbytes' j hj).trans (hbytes j hj).symm

end Sys2Proof.Proofs
end

section
/-! SUPPORT. The command word as the concatenation of its fields, and the decoder as the inverse of the encoder (30_encoding.md R71 to R76). -/

namespace Sys2Proof.Machine

open Sys2Proof Sys2Proof.Rules

/-! ### The layout of the word (30_encoding.md R71) -/

/-- The reserved bits [31:16] and [7:5] are 0. -/
def reservedZero (c : Word) : Prop := c.extractLsb' 16 16 = 0 ∧ c.extractLsb' 5 3 = 0

theorem toNat_packWord (pbs : BitVec 8) (chk : BitVec 1) (op : BitVec 4) :
    (packWord pbs chk op).toNat = op.toNat + 16 * chk.toNat + 256 * pbs.toNat := by
  have hop := op.isLt
  have hchk := chk.isLt
  unfold packWord
  rw [BitVec.toNat_append, BitVec.toNat_append, BitVec.toNat_append, BitVec.toNat_append,
    ← Nat.shiftLeft_add_eq_or_of_lt hop, ← Nat.shiftLeft_add_eq_or_of_lt hchk,
    ← Nat.shiftLeft_add_eq_or_of_lt (BitVec.isLt _), ← Nat.shiftLeft_add_eq_or_of_lt (BitVec.isLt _)]
  simp only [Nat.shiftLeft_eq, BitVec.ofNat_eq_ofNat, BitVec.toNat_ofNat]
  omega

theorem reservedZero_iff (c : Word) : reservedZero c ↔ c.toNat / 65536 = 0 ∧ c.toNat / 32 % 8 = 0 := by
  have hc := c.isLt
  simp only [reservedZero, ← BitVec.toNat_inj, BitVec.extractLsb'_toNat, Nat.shiftRight_eq_div_pow,
    BitVec.ofNat_eq_ofNat, BitVec.toNat_ofNat]
  omega

theorem toNat_fieldOP (c : Word) : (fieldOP c).toNat = c.toNat % 16 := by
  simp [fieldOP, BitVec.extractLsb'_toNat]

theorem toNat_fieldPBS (c : Word) : (fieldPBS c).toNat = c.toNat / 256 % 256 := by
  simp [fieldPBS, BitVec.extractLsb'_toNat, Nat.shiftRight_eq_div_pow]

theorem toNat_ofBool_fieldCHK (c : Word) : (BitVec.ofBool (fieldCHK c)).toNat = c.toNat / 16 % 2 := by
  rw [fieldCHK, BitVec.toNat_ofBool, BitVec.getLsbD, Nat.toNat_testBit]

/-- A word is fixed by its three fields once its reserved bits are 0. -/
theorem eq_packWord_iff {c : Word} {pbs : BitVec 8} {chk : BitVec 1} {op : BitVec 4} : c = packWord pbs chk op ↔
    reservedZero c ∧ fieldPBS c = pbs ∧ BitVec.ofBool (fieldCHK c) = chk ∧ fieldOP c = op := by
  have hpbs := pbs.isLt
  have hchk := chk.isLt
  have hop := op.isLt
  rw [reservedZero_iff]
  simp only [← BitVec.toNat_inj, toNat_packWord, toNat_fieldOP, toNat_fieldPBS, toNat_ofBool_fieldCHK]
  omega

section
variable (pbs : BitVec 8) (chk : BitVec 1) (op : BitVec 4)

@[simp] theorem reservedHigh_packWord : (packWord pbs chk op).extractLsb' 16 16 = 0 := (eq_packWord_iff.1 rfl).1.1

@[simp] theorem reservedLow_packWord : (packWord pbs chk op).extractLsb' 5 3 = 0 := (eq_packWord_iff.1 rfl).1.2

@[simp] theorem fieldPBS_packWord : fieldPBS (packWord pbs chk op) = pbs := (eq_packWord_iff.1 rfl).2.1

@[simp] theorem fieldCHK_packWord : fieldCHK (packWord pbs chk op) = chk[0] := by
  have h : BitVec.ofBool (fieldCHK (packWord pbs chk op)) = chk := (eq_packWord_iff.1 rfl).2.2.1
  simp [← congrArg (·[0]) h]

@[simp] theorem fieldOP_packWord : fieldOP (packWord pbs chk op) = op := (eq_packWord_iff.1 rfl).2.2.2

end

@[simp] theorem chkBit_padCheckOf (b : Bool) : chkBit (padCheckOf b) = BitVec.ofBool b := by cases b <;> rfl

@[simp] theorem padCheckOf_chkBit (k : PadCheck) : padCheckOf (chkBit k)[0] = k := by cases k <;> rfl

/-! ### The decoder's two checks -/

theorem withoutPBS_eq_ok_iff {c : Word} {i j : Instr} : withoutPBS c i = .ok j ↔ fieldPBS c = 0 ∧ i = j := by
  unfold withoutPBS
  split <;> simp_all

theorem withoutCHK_eq_ok_iff {c : Word} {r : Except Illegal Instr} {j : Instr} :
    withoutCHK c r = .ok j ↔ fieldCHK c = false ∧ r = .ok j := by
  unfold withoutCHK
  split <;> simp_all

/-- The arm of a command without operands in its word. -/
theorem withoutCHK_withoutPBS_eq_ok_iff {c : Word} {i j : Instr} :
    withoutCHK c (withoutPBS c i) = .ok j ↔ fieldCHK c = false ∧ fieldPBS c = 0 ∧ i = j := by
  rw [withoutCHK_eq_ok_iff, withoutPBS_eq_ok_iff]

/-! ### The decoder inverts the encoder -/

theorem decode_encode {i : Instr} (h : i.wf = true) : decode (encode i) = .ok i := by
  cases i with
  | pad pbs =>
    have hpbs : pbs ≠ 0#8 := bne_iff_ne.1 h
    simp [encode, decode, withoutCHK, hpbs]
  | unpad k => simp [encode, decode, withoutPBS]
  | ecbEnc => simp [encode, decode, withoutPBS, withoutCHK]
  | ecbDec => simp [encode, decode, withoutPBS, withoutCHK]
  | cbcEnc => simp [encode, decode, withoutPBS, withoutCHK]
  | cbcDec k => simp [encode, decode, withoutPBS]

/-- Each arm of the decoder fixes OP and checks the fields it does not carry, so the whole word is known. -/
theorem wf_and_eq_encode_of_decode {c : Word} {i : Instr} (h : decode c = .ok i) : i.wf = true ∧ c = encode i := by
  unfold decode at h
  split at h
  · cases h
  next hres =>
  have hres : reservedZero c := by rwa [not_or, not_not, not_not] at hres
  have hword {pbs : BitVec 8} {chk : Bool} {n : Nat} (hop : (fieldOP c).toNat = n) (hchk : fieldCHK c = chk)
      (hpbs : fieldPBS c = pbs) : c = packWord pbs (BitVec.ofBool chk) (BitVec.ofNat 4 n) :=
    eq_packWord_iff.2 ⟨hres, hpbs, by rw [hchk], by rw [← hop, BitVec.ofNat_toNat, BitVec.setWidth_eq]⟩
  split at h
  next hop =>
    obtain ⟨hchk, h⟩ := withoutCHK_eq_ok_iff.1 h
    split at h
    · cases h
    · next hpbs =>
      cases h
      exact ⟨bne_iff_ne.2 hpbs, (hword hop hchk rfl).trans rfl⟩
  next hop =>
    obtain ⟨hpbs, rfl⟩ := withoutPBS_eq_ok_iff.1 h
    exact ⟨rfl, by rw [encode, chkBit_padCheckOf]; exact hword hop rfl hpbs⟩
  next hop =>
    obtain ⟨hchk, hpbs, rfl⟩ := withoutCHK_withoutPBS_eq_ok_iff.1 h
    exact ⟨rfl, (hword hop hchk hpbs).trans rfl⟩
  next hop =>
    obtain ⟨hchk, hpbs, rfl⟩ := withoutCHK_withoutPBS_eq_ok_iff.1 h
    exact ⟨rfl, (hword hop hchk hpbs).trans rfl⟩
  next hop =>
    obtain ⟨hchk, hpbs, rfl⟩ := withoutCHK_withoutPBS_eq_ok_iff.1 h
    exact ⟨rfl, (hword hop hchk hpbs).trans rfl⟩
  next hop =>
    obtain ⟨hpbs, rfl⟩ := withoutPBS_eq_ok_iff.1 h
    exact ⟨rfl, by rw [encode, chkBit_padCheckOf]; exact hword hop rfl hpbs⟩
  · cases h

/-- Decoder and encoder are inverse on the well-formed commands. -/
theorem decode_eq_ok_iff (c : Word) (i : Instr) : decode c = .ok i ↔ i.wf = true ∧ c = encode i :=
  ⟨wf_and_eq_encode_of_decode, fun ⟨hwf, hc⟩ => hc ▸ decode_encode hwf⟩

/-! ### The predicate WF (30_encoding.md R74) -/

/-- The model's check of a word is the rules' predicate: they differ in Bool for Prop and in how OP is compared. -/
theorem wordWF_iff (c : Word) : wordWF c = true ↔ WF c := by
  have hop (n : BitVec 4) : fieldOP c = n ↔ (c.extractLsb' 0 4).toNat = n.toNat := BitVec.toNat_inj.symm
  simp only [wordWF, WF, Bool.and_eq_true, Bool.or_eq_true, Bool.not_eq_true', beq_iff_eq, bne_iff_ne,
    beq_eq_false_iff_ne, decide_eq_true_eq, ne_eq, hop, and_assoc, or_assoc, imp_iff_not_or, not_not, Bool.not_eq_true]
  rfl

theorem WF_encode {i : Instr} (h : i.wf = true) : WF (encode i) := by
  rw [← wordWF_iff]
  cases i with
  | pad pbs => exact Laws.EncodeWellFormed.pad pbs h
  | unpad k => exact Laws.EncodeWellFormed.unpad k h
  | ecbEnc => exact Laws.EncodeWellFormed.ecbEnc h
  | ecbDec => exact Laws.EncodeWellFormed.ecbDec h
  | cbcEnc => exact Laws.EncodeWellFormed.cbcEnc h
  | cbcDec k => exact Laws.EncodeWellFormed.cbcDec k h

/-- Each clause of WF is one check of the decoder. -/
theorem exists_decode_of_WF {c : Word} (h : WF c) : ∃ i, decode c = .ok i := by
  obtain ⟨hhigh, hlow, hmin, hmax, hchk, hpad, hpbs⟩ := h
  replace hchk (h2 : (fieldOP c).toNat ≠ 2) (h6 : (fieldOP c).toNat ≠ 6) : fieldCHK c = false :=
    Bool.eq_false_of_not_eq_true fun ht => (hchk ht).elim h2 h6
  replace hpbs (h1 : (fieldOP c).toNat ≠ 1) : fieldPBS c = 0 := hpbs h1
  rw [decode, if_neg (by rw [hhigh, hlow]; decide)]
  split
  next hop => exact ⟨_, withoutCHK_eq_ok_iff.2 ⟨hchk (by omega) (by omega), if_neg (hpad hop)⟩⟩
  next hop => exact ⟨_, withoutPBS_eq_ok_iff.2 ⟨hpbs (by omega), rfl⟩⟩
  next hop => exact ⟨_, withoutCHK_withoutPBS_eq_ok_iff.2 ⟨hchk (by omega) (by omega), hpbs (by omega), rfl⟩⟩
  next hop => exact ⟨_, withoutCHK_withoutPBS_eq_ok_iff.2 ⟨hchk (by omega) (by omega), hpbs (by omega), rfl⟩⟩
  next hop => exact ⟨_, withoutCHK_withoutPBS_eq_ok_iff.2 ⟨hchk (by omega) (by omega), hpbs (by omega), rfl⟩⟩
  next hop => exact ⟨_, withoutPBS_eq_ok_iff.2 ⟨hpbs (by omega), rfl⟩⟩
  · replace hmin : 1 ≤ (fieldOP c).toNat := hmin
    replace hmax : (fieldOP c).toNat ≤ 6 := hmax
    interval_cases (fieldOP c).toNat <;> contradiction

/-- The decoder accepts exactly the words of R74. -/
theorem exists_decode_iff_WF (c : Word) : (∃ i, decode c = .ok i) ↔ WF c := by
  refine ⟨fun ⟨i, h⟩ => ?_, exists_decode_of_WF⟩
  obtain ⟨hwf, rfl⟩ := (decode_eq_ok_iff c i).1 h
  exact WF_encode hwf

/-! ### The listed words (30_encoding.md R76) -/

theorem encode_pad_ofNat {n : Nat} (h : n ≤ 255) :
    encode (.pad (BitVec.ofNat 8 n)) = BitVec.ofNat 32 (1 + 256 * n) := by
  refine BitVec.eq_of_toNat_eq ?_
  rw [encode, toNat_packWord]
  simp only [BitVec.toNat_ofNat, BitVec.ofNat_eq_ofNat]
  omega

/-- The well-formed commands, in the order in which R76 lists their words. -/
def legalInstrs : List Instr :=
  ((List.range 255).map fun n => .pad (BitVec.ofNat 8 (n + 1)))
    ++ [.unpad .lenient, .unpad .strict, .ecbEnc, .ecbDec, .cbcEnc, .cbcDec .lenient, .cbcDec .strict]

theorem mem_legalInstrs_iff (i : Instr) : i ∈ legalInstrs ↔ i.wf = true := by
  cases i with
  | pad pbs =>
    have hlt : pbs.toNat < 256 := pbs.isLt
    have hwf : (Instr.pad pbs).wf = true ↔ pbs.toNat ≠ 0 := bne_iff_ne.trans BitVec.toNat_inj.symm.not
    simp only [legalInstrs, hwf, List.mem_append, List.mem_map, List.mem_range, Instr.pad.injEq, ← BitVec.toNat_inj,
      BitVec.toNat_ofNat]
    constructor
    · rintro (⟨n, hn, h⟩ | h)
      · omega
      · simp at h
    · intro h
      exact .inl ⟨pbs.toNat - 1, by omega, by omega⟩
  | unpad k => cases k <;> simp [legalInstrs, Instr.wf]
  | ecbEnc | ecbDec | cbcEnc => simp [legalInstrs, Instr.wf]
  | cbcDec k => cases k <;> simp [legalInstrs, Instr.wf]

theorem nodup_legalInstrs : legalInstrs.Nodup := by
  refine List.nodup_append'.2 ⟨List.nodup_range.map_on fun n hn m hm h => ?_, by decide, fun i hi hi' => ?_⟩
  · have h : (n + 1) % 256 = (m + 1) % 256 := congrArg BitVec.toNat (Instr.pad.inj h)
    have hn : n < 255 := List.mem_range.1 hn
    have hm : m < 255 := List.mem_range.1 hm
    omega
  · obtain ⟨n, -, rfl⟩ := List.mem_map.1 hi
    simp at hi'

/-- The listed words are those of the well-formed commands. -/
theorem map_encode_legalInstrs : legalInstrs.map encode =
    ((List.range 255).map fun n => BitVec.ofNat 32 (0x101 + 0x100 * n))
      ++ [0x00000002, 0x00000012, 0x00000003, 0x00000004, 0x00000005, 0x00000006, 0x00000016] := by
  rw [legalInstrs, List.map_append, List.map_map]
  refine congrArg₂ _ (List.map_congr_left fun n hn => ?_) (by decide)
  have hn : n < 255 := List.mem_range.1 hn
  rw [Function.comp_apply, encode_pad_ofNat (by omega)]
  congr 1
  omega

/-- Different well-formed commands have different words, since the decoder tells them apart. -/
theorem encode_inj_of_wf {i j : Instr} (hi : i.wf = true) (hj : j.wf = true) (h : encode i = encode j) : i = j :=
  Except.ok.inj ((decode_encode hi).symm.trans (h ▸ decode_encode hj))

end Sys2Proof.Machine
end

section
/-! SUPPORT. The assembler: digits, literals and the syntax table (30_encoding.md R77). -/

namespace Sys2Proof.Machine

open Sys2Proof Sys2Proof.Rules

/-! ### Digits -/

/-- The characters of the digits, by their codes: 0 to 9 from 48, a to f from 97. -/
theorem toNat_digitChars {d : Nat} (h : d < 16) :
    (digitChars.getD d '?').toNat = if d < 10 then 48 + d else 87 + d := by
  interval_cases d <;> rfl

theorem lowerChar_digitChars {d : Nat} (h : d < 16) : lowerChar (digitChars.getD d '?') = digitChars.getD d '?' := by
  have hd := toNat_digitChars h
  rw [lowerChar, if_neg]
  split at hd <;> omega

/-- No character is an upper-case letter once lowerChar has been over it. -/
theorem not_upper_lowerChar (ch : Char) : ¬ (65 ≤ (lowerChar ch).toNat ∧ (lowerChar ch).toNat ≤ 90) := by
  unfold lowerChar
  split
  next h =>
    rw [Char.toNat_ofNat, if_pos (.inl (by omega))]
    omega
  next h => exact h

/-- No upper-case letter is among the characters. -/
def lowerCase (cs : List Char) : Prop := ∀ ch ∈ cs, ¬ (65 ≤ ch.toNat ∧ ch.toNat ≤ 90)

theorem lowerCase_map_lowerChar (cs : List Char) : lowerCase (cs.map lowerChar) := by
  intro ch hch
  obtain ⟨ch', -, rfl⟩ := List.mem_map.1 hch
  exact not_upper_lowerChar ch'

/-- In lower case a character is a digit of the base exactly when it is one of the base's digitChars. -/
theorem digitValue_eq_some_iff {base : Nat} (hbase : base ≤ 16) {ch : Char} (hch : ¬ (65 ≤ ch.toNat ∧ ch.toNat ≤ 90))
    (d : Nat) : digitValue base ch = some d ↔ d < base ∧ ch = digitChars.getD d '?' := by
  have hchar (hd : d < base) : ch = digitChars.getD d '?' ↔ ch.toNat = if d < 10 then 48 + d else 87 + d := by
    rw [← Char.toNat_inj, toNat_digitChars (by omega)]
  rw [and_congr_right hchar]
  simp only [digitValue, Option.ite_none_right_eq_some, Option.some.injEq]
  split_ifs <;> omega

/-- A literal's digits are read from the left, each shifting the number before it. -/
theorem digitsValue_eq_some_iff {base : Nat} (hbase : base ≤ 16) {cs : List Char} (hcs : lowerCase cs) (acc n : Nat) :
    digitsValue base acc cs = some n
      ↔ ∃ ds : List Nat, (∀ d ∈ ds, d < base) ∧ cs = digitText ds ∧ n = ds.foldl (fun n d => base * n + d) acc := by
  induction cs generalizing acc with
  | nil =>
    constructor
    · intro h
      exact ⟨[], nofun, rfl, (Option.some.inj h).symm⟩
    · rintro ⟨ds, -, htext, rfl⟩
      obtain rfl : ds = [] := List.map_eq_nil_iff.1 htext.symm
      rfl
  | cons ch rest ih =>
    obtain ⟨hch, hrest⟩ := List.forall_mem_cons.1 hcs
    rw [digitsValue]
    constructor
    · intro h
      split at h
      · cases h
      next d hd =>
        obtain ⟨hlt, rfl⟩ := (digitValue_eq_some_iff hbase hch d).1 hd
        obtain ⟨ds, hds, rfl, rfl⟩ := (ih hrest _).1 h
        exact ⟨d :: ds, List.forall_mem_cons.2 ⟨hlt, hds⟩, rfl, rfl⟩
    · rintro ⟨_ | ⟨d, ds⟩, hds, htext, rfl⟩
      · cases htext
      · obtain ⟨hlt, hds⟩ := List.forall_mem_cons.1 hds
        obtain ⟨hd, htext⟩ := List.cons.inj htext
        rw [(digitValue_eq_some_iff hbase hch d).2 ⟨hlt, hd⟩]
        exact (ih hrest _).2 ⟨ds, hds, htext, rfl⟩

/-! ### Literals -/

/-- The two forms of a literal, each by the model's reading of its digits. -/
theorem literalOf_iff {cs : List Char} (hcs : lowerCase cs) (n : Nat) : literalOf cs n ↔
    (cs ≠ [] ∧ digitsValue 10 0 cs = some n)
      ∨ ∃ rest, rest ≠ [] ∧ cs = '0' :: 'x' :: rest ∧ digitsValue 16 0 rest = some n := by
  have hne (ds : List Nat) : digitText ds ≠ [] ↔ ds ≠ [] := List.map_eq_nil_iff.not
  constructor
  · rintro ⟨ds, hds, ⟨hlt, rfl, rfl⟩ | ⟨hlt, rfl, rfl⟩⟩
    · exact .inl ⟨(hne ds).2 hds, (digitsValue_eq_some_iff (by decide) hcs 0 _).2 ⟨ds, hlt, rfl, rfl⟩⟩
    · have hrest : lowerCase (digitText ds) := fun ch hch => hcs ch (List.mem_cons_of_mem _ (List.mem_cons_of_mem _ hch))
      exact .inr ⟨_, (hne ds).2 hds, rfl, (digitsValue_eq_some_iff (by decide) hrest 0 _).2 ⟨ds, hlt, rfl, rfl⟩⟩
  · rintro (⟨hcs', h⟩ | ⟨rest, hrest', rfl, h⟩)
    · obtain ⟨ds, hlt, rfl, rfl⟩ := (digitsValue_eq_some_iff (by decide) hcs 0 n).1 h
      exact ⟨ds, (hne ds).1 hcs', .inl ⟨hlt, rfl, rfl⟩⟩
    · have hrest : lowerCase rest := fun ch hch => hcs ch (List.mem_cons_of_mem _ (List.mem_cons_of_mem _ hch))
      obtain ⟨ds, hlt, rfl, rfl⟩ := (digitsValue_eq_some_iff (by decide) hrest 0 n).1 h
      exact ⟨ds, (hne ds).1 hrest', .inr ⟨hlt, rfl, rfl⟩⟩

/-- The letter x is no decimal digit, so a text beginning 0x is read in base 16 alone. -/
theorem literalValue_eq_some_iff {cs : List Char} (hcs : lowerCase cs) (n : Nat) :
    literalValue cs = some n ↔ literalOf cs n := by
  have hx (rest : List Char) : digitsValue 10 0 ('0' :: 'x' :: rest) = none := rfl
  rw [literalOf_iff hcs]
  unfold literalValue
  split
  · simp
  · simp [hx]
  next rest hne =>
    have hne : rest ≠ [] := hne
    simp [hx, hne]
  next hnil h0x hhex =>
    have hhex (rest : List Char) : cs ≠ '0' :: 'x' :: rest := hhex rest
    have hnil : cs ≠ [] := hnil
    simp [hnil, hhex]

/-- The library's digits of a number are a digit text of it. -/
theorem exists_digitText_eq_toDigits {base : Nat} (h1 : 1 < base) (h16 : base ≤ 16) (n : Nat) :
    ∃ ds : List Nat, ds ≠ [] ∧ (∀ d ∈ ds, d < base) ∧ Nat.toDigits base n = digitText ds ∧ n = digitNumber base ds := by
  have hdigit {d : Nat} (hd : d < base) : d.digitChar = digitChars.getD d '?' := by
    have hd : d < 16 := by omega
    interval_cases d <;> rfl
  induction n using Nat.strong_induction_on with
  | _ n ih =>
    rw [Nat.toDigits_eq_if h1]
    split
    next hlt => exact ⟨[n], nofun, by simpa using hlt, by simp [digitText, hdigit hlt], by simp [digitNumber]⟩
    next hge =>
      have hmod : n % base < base := Nat.mod_lt _ (by omega)
      obtain ⟨ds, -, hds, htext, hnum⟩ := ih (n / base) (Nat.div_lt_self (by omega) h1)
      refine ⟨ds ++ [n % base], by simp, ?_, ?_, ?_⟩
      · simpa [or_imp, forall_and, hmod] using hds
      · rw [htext, hdigit hmod, digitText, digitText, List.map_append]
        rfl
      · rw [digitNumber, List.foldl_append, ← digitNumber, ← hnum]
        exact (Nat.div_add_mod n base).symm

theorem literalOf_toDigits (n : Nat) :
    literalOf (Nat.toDigits 10 n) n ∧ literalOf ('0' :: 'x' :: Nat.toDigits 16 n) n := by
  obtain ⟨ds, hne, hlt, htext, hnum⟩ := exists_digitText_eq_toDigits (base := 10) (by decide) (by decide) n
  obtain ⟨ds', hne', hlt', htext', hnum'⟩ := exists_digitText_eq_toDigits (base := 16) (by decide) (by decide) n
  exact ⟨⟨ds, hne, .inl ⟨hlt, htext, hnum⟩⟩, ds', hne', .inr ⟨hlt', by rw [htext'], hnum'⟩⟩

theorem map_lowerChar_digitText {ds : List Nat} (h : ∀ d ∈ ds, d < 16) : (digitText ds).map lowerChar = digitText ds := by
  rw [digitText, List.map_map]
  exact List.map_congr_left fun d hd => lowerChar_digitChars (h d hd)

/-- A literal is written without upper-case letters. -/
theorem map_lowerChar_of_literalOf {cs : List Char} {n : Nat} (h : literalOf cs n) : cs.map lowerChar = cs := by
  obtain ⟨ds, -, ⟨hlt, rfl, -⟩ | ⟨hlt, rfl, -⟩⟩ := h
  · exact map_lowerChar_digitText fun d hd => (hlt d hd).trans (by decide)
  · rw [List.map_cons, List.map_cons, map_lowerChar_digitText hlt]
    rfl

/-! ### The syntax table -/

/-- The rows of R77 without an operand. -/
def plainRows : List (List Char × Instr) :=
  [(['u', 'n', 'p', 'a', 'd'], .unpad .lenient),
   (['u', 'n', 'p', 'a', 'd', '.', 'c', 'h', 'k'], .unpad .strict),
   (['e', 'c', 'b', '.', 'e', 'n', 'c'], .ecbEnc),
   (['e', 'c', 'b', '.', 'd', 'e', 'c'], .ecbDec),
   (['c', 'b', 'c', '.', 'e', 'n', 'c'], .cbcEnc),
   (['c', 'b', 'c', '.', 'd', 'e', 'c'], .cbcDec .lenient),
   (['c', 'b', 'c', '.', 'd', 'e', 'c', '.', 'c', 'h', 'k'], .cbcDec .strict)]

theorem asmPad_eq_some_iff {operand : List Char} (h : lowerCase operand) (i : Instr) : asmPad operand = some i ↔
    ∃ n, literalOf operand n ∧ 1 ≤ n ∧ n ≤ 255 ∧ i = .pad (BitVec.ofNat 8 n) := by
  simp only [← literalValue_eq_some_iff h, asmPad]
  split
  next hnone => simp [hnone]
  next n hn => simp [hn, and_assoc, eq_comm]

/-- Without operands the assembler looks its mnemonic up in the table; `pad` stands in none of these rows. -/
theorem asmInstr_nil_eq_some_iff (m : List Char) (i : Instr) : asmInstr m [] = some i ↔ (m, i) ∈ plainRows := by
  constructor
  · intro h
    unfold asmInstr at h
    split_ifs at h <;> cases h <;> simp [plainRows, *]
  · have hrows : ∀ row ∈ plainRows, asmInstr row.1 [] = some row.2 := by decide
    exact hrows (m, i)

/-- With operands only `pad` assembles, and it takes one. -/
theorem asmInstr_cons_eq_some_iff (m o : List Char) (ops : List (List Char)) (i : Instr) :
    asmInstr m (o :: ops) = some i ↔ m = ['p', 'a', 'd'] ∧ ops = [] ∧ asmPad o = some i := by
  unfold asmInstr
  split
  next hm => cases ops <;> simp [hm]
  next hm => simp [hm]

theorem pad_ofNat_wf {n : Nat} (h1 : 1 ≤ n) (h255 : n ≤ 255) : (Instr.pad (BitVec.ofNat 8 n)).wf = true := by
  refine bne_iff_ne.2 fun h => ?_
  have h : n % 256 = 0 := congrArg BitVec.toNat h
  omega

theorem assemble_eq_some_iff (m : List Char) (ops : List (List Char)) (c : Word) : assemble m ops = some c ↔
    ∃ i, asmInstr (m.map lowerChar) (ops.map (List.map lowerChar)) = some i ∧ encode i = c :=
  Option.map_eq_some_iff

theorem assemble_nil_eq_some_iff (m : List Char) (c : Word) :
    assemble m [] = some c ↔ ∃ i, (m.map lowerChar, i) ∈ plainRows ∧ encode i = c := by
  rw [assemble_eq_some_iff]
  exact exists_congr fun i => and_congr_left' (asmInstr_nil_eq_some_iff _ i)

theorem assemble_cons_eq_some_iff (m o : List Char) (ops : List (List Char)) (c : Word) :
    assemble m (o :: ops) = some c ↔ m.map lowerChar = ['p', 'a', 'd'] ∧ ops = []
      ∧ ∃ n, literalOf (o.map lowerChar) n ∧ 1 ≤ n ∧ n ≤ 255 ∧ c = BitVec.ofNat 32 (1 + 256 * n) := by
  simp only [assemble_eq_some_iff, List.map_cons, asmInstr_cons_eq_some_iff, List.map_eq_nil_iff,
    asmPad_eq_some_iff (lowerCase_map_lowerChar o)]
  constructor
  · rintro ⟨_, ⟨hm, hops, n, hn, h1, h255, rfl⟩, rfl⟩
    exact ⟨hm, hops, n, hn, h1, h255, encode_pad_ofNat h255⟩
  · rintro ⟨hm, hops, n, hn, h1, h255, rfl⟩
    exact ⟨_, ⟨hm, hops, n, hn, h1, h255, rfl⟩, encode_pad_ofNat h255⟩

/-- Every word the assembler gives is that of a well-formed command. -/
theorem WF_of_assemble {m : List Char} {ops : List (List Char)} {c : Word} (h : assemble m ops = some c) : WF c := by
  cases ops with
  | nil =>
    obtain ⟨i, hi, rfl⟩ := (assemble_nil_eq_some_iff m c).1 h
    have hwf : ∀ row ∈ plainRows, row.2.wf = true := by decide
    exact WF_encode (hwf _ hi)
  | cons o ops =>
    obtain ⟨-, -, n, -, h1, h255, rfl⟩ := (assemble_cons_eq_some_iff m o ops c).1 h
    rw [← encode_pad_ofNat h255]
    exact WF_encode (pad_ofNat_wf h1 h255)

theorem assemble_pad_of_literalOf {cs : List Char} {n : Nat} (h : literalOf cs n) (h1 : 1 ≤ n) (h255 : n ≤ 255) :
    assemble ['p', 'a', 'd'] [cs] = some (BitVec.ofNat 32 (1 + 256 * n)) :=
  (assemble_cons_eq_some_iff _ _ _ _).2 ⟨rfl, rfl, n, (map_lowerChar_of_literalOf h).symm ▸ h, h1, h255, rfl⟩

end Sys2Proof.Machine
end

section
/-! SUPPORT. The statements of 30_encoding.md, settled. -/

namespace Sys2Proof.Proofs

open Sys2Proof Sys2Proof.Machine Sys2Proof.Rules

/-- Settles O4: the fields of a concatenation are what was concatenated, and each arm of the decoder rebuilds its command from them. -/
theorem decodeInvertsEncode : Obligations.DecodeInvertsEncode := fun _ h => decode_encode h

/-- Settles O2: by the number of operands, the word is that of a row without one or that of `pad` with its literal;
the digits that the library writes for a number are a literal of it. -/
theorem assemblerFollowsSyntaxTable : Obligations.AssemblerFollowsSyntaxTable := by
  refine ⟨fun m ops c => ⟨?_, WF_of_assemble⟩, fun n h1 h255 => ?_⟩
  · cases ops with
    | nil =>
      rw [assemble_nil_eq_some_iff]
      simp only [plainRows, List.mem_cons, List.not_mem_nil, or_false, Prod.mk.injEq, or_and_right, exists_or, and_assoc,
        existsAndEq, true_and, List.ne_cons_self, false_and, exists_false, and_false, false_or, eq_comm (a := c)]
      rfl
    | cons o ops =>
      rw [assemble_cons_eq_some_iff]
      simp
  · obtain ⟨hdec, hhex⟩ := literalOf_toDigits n
    exact ⟨assemble_pad_of_literalOf hdec h1 h255, assemble_pad_of_literalOf hhex h1 h255⟩

/-- Settles O3: WF is the decoder's domain, the accepted CMD write is issue, and the completion of any other word is raiseError. -/
theorem illegalWordsIssueAndCompleteIllegalCmd : Obligations.IllegalWordsIssueAndCompleteIllegalCmd := by
  refine ⟨exists_decode_iff_WF, fun s w v hb hw => ?_, fun s hb hwf => ?_⟩
  · rw [hostWrite_accepted (targetAt_cmd hw) (by rw [hb]; rfl)]
    exact ⟨rfl, rfl, rfl⟩
  · have hresult : latchedResult s = .error .illegalCmd := by
      unfold latchedResult
      cases hd : decode s.CMDL with
      | ok i => exact absurd ((exists_decode_iff_WF _).1 ⟨i, hd⟩) hwf
      | error e => rfl
    rw [unitStep_of_busy hb, hresult]
    rfl

/-- Settles O5: the arm of the decoder that answers fixes every field of the word. -/
theorem encodeInvertsDecode : Obligations.EncodeInvertsDecode := fun _ _ h =>
  have ⟨hwf, hc⟩ := wf_and_eq_encode_of_decode h
  ⟨hwf, hc.symm⟩

/-- Settles O6: the list is the encoder over the well-formed commands, each once, and the encoder is injective on them. -/
theorem exactlyTheListedWordsAreLegal : Obligations.ExactlyTheListedWordsAreLegal := by
  unfold Obligations.ExactlyTheListedWordsAreLegal
  rw [← map_encode_legalInstrs]
  refine ⟨by simp [legalInstrs], nodup_legalInstrs.map_on fun i hi j hj h => ?_, fun c => ?_⟩
  · exact encode_inj_of_wf ((mem_legalInstrs_iff i).1 hi) ((mem_legalInstrs_iff j).1 hj) h
  · simp only [List.mem_map, mem_legalInstrs_iff, decode_eq_ok_iff, eq_comm (a := c)]

/-- Settles O1 by evaluating the decoder on each word. -/
theorem sampleWordsDecode : Obligations.SampleWordsDecode := by
  unfold Obligations.SampleWordsDecode
  decide

/-- Settles O53: the port answers ERR to a refused read, on which hostLoad stops the program and loads nothing, and hostLoad
puts the data of an accepted one into its register. -/
theorem hostReadStopsOnlyOnError : Obligations.HostReadStopsOnlyOnError := by
  intro h s w r v hrun hlen
  refine ⟨fun href => ?_, fun d _ hresp => ?_, hrun, rfl, rfl, rfl, rfl⟩
  · have hresp : (hostRead s w).resp = some .err := (resp_hostAccess_eq_err_iff s (.rd w)).2 href
    rw [hostInstrStep, hresp]
    exact ⟨rfl, rfl⟩
  · have hset : (h.regs.set r.val d).getD r.val 0 = d := by
      rw [List.getD_eq_getElem _ _ (by rw [List.length_set, hlen]; exact r.isLt), List.getElem_set_self]
    rw [hostInstrStep, hresp]
    exact ⟨hrun, hset⟩

end Sys2Proof.Proofs
end

section
/-! SUPPORT. A step and a completion of any command: which word runs, the code recorded, what Exec reads and what it leaves alone
(40_command_execution.md R90 to R94, R99 to R101). -/

namespace Sys2Proof.Machine

open Sys2Proof Sys2Proof.Rules

/-! ### Which word a step runs (R90, R91) -/

theorem unitStep_of_decode {s : State} {i : Instr} (hb : s.BUSY = true) (hd : decode s.CMDL = .ok i) :
    unitStep s = exec i s := by
  rw [unitStep, if_pos hb, completeStep, hd]

theorem step_of_env_nil {s : State} (h : s.env = []) : step s = unitStep s := by rw [step, h]

theorem step_of_unitTurn {s : State} {rest : List Event} (h : s.env = .unitTurn :: rest) :
    step s = unitStep { s with env := rest } := by
  rw [step, h]
  rfl

theorem decodeTableWord_eq_some_iff (nbits w : Nat) (i : Instr) :
    decodeTableWord nbits w = some i ↔ decode (tableWord nbits w) = .ok i := by
  rw [decodeTableWord, tableWord]
  cases decode (BitVec.ofNat 32 (w % 2 ^ nbits)) <;> simp

/-- The turn that withFetchWord puts first is taken in the state that issued the word (log 11). -/
theorem step_withFetchWord (s : State) (nbits w : Nat) :
    step (s.withFetchWord nbits w) = unitStep (issue s (tableWord nbits w)) :=
  step_of_unitTurn rfl

/-! ### A step takes one event (R92) -/

theorem step_env {s t : State} (h : step s = .next t) : t.env = s.env.tail := by
  rcases step_cases h with ⟨a, rest, he, rfl⟩ | ⟨rest, he, rfl⟩ | ⟨rest, he, hu⟩
  · rw [hostAccess_env, he, List.tail_cons]
  · rw [he, List.tail_cons]
    rfl
  · rw [(unitStep_idle hu).2]
    rcases he with he | ⟨he, rfl⟩ <;> rw [he] <;> rfl

/-- With no event pending the unit has its turn, and a command in flight completes. -/
theorem busy_eq_false_of_step {s t : State} (he : s.env = []) (h : step s = .next t) : t.BUSY = false :=
  (unitStep_idle ((step_of_env_nil he).symm.trans h)).1

/-! ### The code a completion records (R93, 60_exceptions.md R149) -/

section
variable (s : State)

/-- A check that fails decides the code; one that holds leaves it to the rest of Exec. -/
theorem finish_ERR_check (c : Prop) [Decidable c] (e : CmdError) (r : Except CmdError (List Byte)) :
    (finish s (if c then .error e else r)).ERR = if c then errCode e else (finish s r).ERR := by
  split <;> rfl

theorem finish_ERR_placeOutput (out : List Byte) :
    (finish s (placeOutput s out)).ERR = if s.inst.BUF_BYTES < s.DST.toNat + out.length then 7 else 0 := by
  rw [placeOutput]
  by_cases h : s.DST.toNat + out.length ≤ s.inst.BUF_BYTES
  · rw [if_pos h, if_neg (Nat.not_lt.2 h)]
    rfl
  · rw [if_neg h, if_pos (Nat.not_le.1 h)]
    rfl

end

/-! ### What Exec reads (R94, R101) -/

/-- The input of a command, listed by the rules' inByte. -/
theorem inputBytes_eq_map_range (s : State) : inputBytes s = (List.range s.LEN.toNat).map (inByte s) := rfl

/-- The input bytes of a command are its only bytes of BUF. -/
theorem inputBytes_congr {s s' : State} (hlen : s'.LEN = s.LEN) (h : ∀ j, j < s.LEN.toNat → inByte s' j = inByte s j) :
    inputBytes s' = inputBytes s := by
  rw [inputBytes_eq_map_range, inputBytes_eq_map_range, hlen]
  exact List.map_congr_left fun j hj => h j (List.mem_range.1 hj)

/-- Everything Exec reads: the parameters, the operand registers, KEY and IV with their masks, and the input bytes. -/
def operands (s : State) : Params × Word × Word × Word × List Byte × List Bool × List Byte × List Bool × List Byte :=
  (s.inst, s.SRC, s.LEN, s.DST, s.KEY, s.KEYM, s.IV, s.IVM, inputBytes s)

theorem resultOf_congr {s s' : State} (h : operands s' = operands s) (i : Instr) : resultOf i s' = resultOf i s := by
  simp only [operands, Prod.mk.injEq] at h
  obtain ⟨hinst, hsrc, hlen, hdst, hkey, hkeym, hiv, hivm, hin⟩ := h
  have hkv : keyValid s' = keyValid s := by rw [keyValid, keyValid, hkeym]
  have hvv : ivValid s' = ivValid s := by rw [ivValid, ivValid, hivm]
  have hplace : placeOutput s' = placeOutput s := by
    funext out
    rw [placeOutput, placeOutput, hdst, hinst]
  cases i <;> simp only [resultOf, padResult_eq, unpadResult_eq, ecbEncResult_eq, ecbDecResult_eq, cbcEncResult_eq,
    cbcDecResult_eq, hinst, hsrc, hlen, hkey, hiv, hin, hkv, hvv, hplace]

/-- A result decides ERR, RLEN and the output bytes, whatever state it completes in. -/
theorem finish_result_congr {s s' : State} (hdst : s'.DST = s.DST) {r : Except CmdError (List Byte)}
    (hr : ∀ out, r = .ok out → out.length < 2 ^ 32) :
    (finish s' r).ERR = (finish s r).ERR ∧ (finish s' r).RLEN = (finish s r).RLEN
      ∧ ∀ j, j < (finish s r).RLEN.toNat →
          bufByte (finish s' r) (s.DST.toNat + j) = bufByte (finish s r) (s.DST.toNat + j) := by
  cases r with
  | error e => exact ⟨rfl, rfl, fun j hj => absurd hj (Nat.not_lt_zero j)⟩
  | ok out =>
    refine ⟨rfl, rfl, fun j hj => ?_⟩
    rw [finish_ok, completeOk_RLEN, BitVec.toNat_ofNat, Nat.mod_eq_of_lt (hr out rfl)] at hj
    rw [finish_ok, finish_ok, bufByte_completeOk, bufByte_completeOk, hdst, if_pos ⟨by omega, by omega⟩,
      if_pos ⟨by omega, by omega⟩]

/-! ### What Exec leaves alone (R99, R100, 20_memory.md R59) -/

theorem bufByte_finish_of_outside {s : State} (hl : s.inst.legal = true) (i : Instr) {a : Nat}
    (ha : ¬ (s.DST.toNat ≤ a ∧ a < s.DST.toNat + (finish s (resultOf i s)).RLEN.toNat)) :
    bufByte (finish s (resultOf i s)) a = bufByte s a := by
  rcases finish_cases s (resultOf i s) with ⟨out, hr, hf⟩ | ⟨e, -, hf⟩ <;> rw [hf] at ha ⊢
  · obtain ⟨-, hlen, -⟩ := exec_of_ok hl hr
    rw [hlen] at ha
    rw [bufByte_completeOk, if_neg ha]
  · exact bufByte_raiseError s e a

end Sys2Proof.Machine
end

section
/-! SUPPORT. The output of each command by the bytes and blocks of the rules: unpad, the decrypted sequence, ECB's one cascade, and
the output lengths (40_command_execution.md R93, R98). -/

namespace Sys2Proof.Machine

open Sys2Proof Sys2Proof.Rules

/-! ### Unpad by the bytes of its input (41_padding.md R111, 60_exceptions.md R147) -/

theorem getD_map_range (byte : Nat → Byte) {L j : Nat} (h : j < L) : ((List.range L).map byte).getD j 0 = byte j := by
  rw [List.getD_eq_getElem _ _ (by simpa using h)]
  simp

section
variable {L : Nat} {byte : Nat → Byte} {chk : PadCheck}

theorem paddingCount_map_range (byte : Nat → Byte) (hL : L ≠ 0) :
    paddingCount ((List.range L).map byte) = countOf L byte := by
  rw [paddingCount_eq, List.length_map, List.length_range, getD_map_range byte (by omega), countOf]

theorem not_badPadding_iff : ¬ badPadding chk L byte ↔ countOf L byte ≤ L ∧
    (chk = .strict → countOf L byte ≠ 0 ∧ ∀ j, L - countOf L byte ≤ j → j < L → (byte j).toNat = countOf L byte) := by
  simp [badPadding]

theorem countOf_le_of_not_badPadding (h : ¬ badPadding chk L byte) : countOf L byte ≤ L := (not_badPadding_iff.1 h).1

/-- Unpad succeeds exactly when its padding is not rejected, and takes the count off the end. -/
theorem unpadBytes_map_range_eq_ok_iff (hL : L ≠ 0) (out : List Byte) :
    unpadBytes ((List.range L).map byte) chk = .ok out ↔
      ¬ badPadding chk L byte ∧ out = (List.range (L - countOf L byte)).map byte := by
  have htake : ((List.range L).map byte).take (L - countOf L byte) = (List.range (L - countOf L byte)).map byte := by
    rw [← List.map_take, List.take_range, Nat.min_eq_left (Nat.sub_le _ _)]
  have hbytes (V : Nat) : (∀ j, L - V ≤ j → j < L → (((List.range L).map byte).getD j 0).toNat = V)
      ↔ ∀ j, L - V ≤ j → j < L → (byte j).toNat = V :=
    forall₃_congr fun j _ hj => by rw [getD_map_range byte hj]
  rw [unpadBytes_ok_iff, paddingCount_map_range byte hL, List.length_map, List.length_range, htake, hbytes,
    not_badPadding_iff]
  tauto

theorem unpadBytes_map_range_of_badPadding (hL : L ≠ 0) (h : badPadding chk L byte) :
    unpadBytes ((List.range L).map byte) chk = .error .badPadding := by
  cases hu : unpadBytes ((List.range L).map byte) chk with
  | ok out => exact absurd h ((unpadBytes_map_range_eq_ok_iff hL out).1 hu).1
  | error e => rw [unpadBytes_error _ _ e hu]

theorem unpadBytes_map_range_of_not_badPadding (hL : L ≠ 0) (h : ¬ badPadding chk L byte) :
    unpadBytes ((List.range L).map byte) chk = .ok ((List.range (L - countOf L byte)).map byte) :=
  (unpadBytes_map_range_eq_ok_iff hL _).2 ⟨h, rfl⟩

theorem finish_ERR_unpadBytes_of_badPadding (s : State) (hL : L ≠ 0) (h : badPadding chk L byte) :
    (finish s ((unpadBytes ((List.range L).map byte) chk).bind (placeOutput s))).ERR = 6 := by
  rw [unpadBytes_map_range_of_badPadding hL h]
  rfl

theorem finish_ERR_unpadBytes_of_not_badPadding (s : State) (hL : L ≠ 0) (h : ¬ badPadding chk L byte) :
    (finish s ((unpadBytes ((List.range L).map byte) chk).bind (placeOutput s))).ERR
      = if s.inst.BUF_BYTES < s.DST.toNat + (L - countOf L byte) then 7 else 0 := by
  rw [unpadBytes_map_range_of_not_badPadding hL h, Except.bind, finish_ERR_placeOutput, List.length_map, List.length_range]

theorem length_of_unpadBytes_placed {s : State} {out : List Byte} (hL : L ≠ 0)
    (h : (unpadBytes ((List.range L).map byte) chk).bind (placeOutput s) = .ok out) :
    out.length + countOf L byte = L := by
  obtain ⟨hgood, rfl⟩ := (unpadBytes_map_range_eq_ok_iff hL out).1 (placeOutput_of_bind h).1
  rw [List.length_map, List.length_range, Nat.sub_add_cancel (countOf_le_of_not_badPadding hgood)]

end

/-- UNPAD once its checks on the operands hold. -/
theorem unpadResult_of_checks {s : State} (hsrc : sourceFits s) (hL : s.LEN.toNat ≠ 0) (chk : PadCheck) :
    unpadResult chk s = (unpadBytes ((List.range s.LEN.toNat).map (inByte s)) chk).bind (placeOutput s) := by
  rw [unpadResult_eq, if_neg (Nat.not_lt.2 hsrc), if_neg hL, inputBytes_eq_map_range]

/-! ### The decrypted sequence of CBC_DEC by its blocks (43_cbc.md R131) -/

section
variable {s : State} (hl : s.inst.legal = true) (hsz : keyIvSized s)
include hl hsz

theorem blk_cbcPlain {i : Nat} (hi : i < s.LEN.toNat / s.inst.B) :
    blk s.inst.B (cbcPlain s.inst s.KEY s.IV (inputBytes s)) i = plainBlock s i := by
  obtain ⟨hk, hiv⟩ := hsz
  have hin {j : Nat} (hj : j < s.LEN.toNat / s.inst.B) : blk s.inst.B (inputBytes s) j = inBlock s j :=
    blk_inputBytes s _ _ (succ_mul_le_of_lt_div hj)
  have hlen := length_of_mem_cbcUnchain (fun b hb => length_decryptBlock hl hk hb) hiv
    fun c hc => length_of_mem_blocksOf (y := inputBytes s) hc
  rw [cbcPlain, blk_flatten (legal_bounds hl).1 _ hlen i (by simpa using hi), getElem_cbcUnchain, plainBlock,
    getElem_blocksOf, hin hi]
  split
  · rfl
  · rw [getElem_blocksOf, hin (by omega)]

theorem cbcPlain_eq_map_range (hmod : s.LEN.toNat % s.inst.B = 0) :
    cbcPlain s.inst s.KEY s.IV (inputBytes s) = (List.range s.LEN.toNat).map (plainByte s) := by
  have hlen : (cbcPlain s.inst s.KEY s.IV (inputBytes s)).length = s.LEN.toNat := by
    rw [length_cbcPlain hl hsz.1 hsz.2 _ (by rwa [length_inputBytes]), length_inputBytes]
  refine ext_getD (by simpa using hlen) fun j hj => ?_
  rw [hlen] at hj
  have hB : 0 < s.inst.B := (legal_bounds hl).1
  have hdiv : j / s.inst.B < s.LEN.toNat / s.inst.B :=
    Nat.div_lt_div_of_lt_of_dvd (Nat.dvd_of_mod_eq_zero hmod) hj
  rw [getD_map_range _ hj, plainByte, ← blk_cbcPlain hl hsz hdiv,
    getD_blk (Nat.mod_lt j hB) (by rw [hlen]; exact succ_mul_le_of_lt_div hdiv), Nat.div_add_mod']

theorem cbcDecrypt_eq_unpadBytes (hmod : s.LEN.toNat % s.inst.B = 0) (chk : PadCheck) :
    cbcDecrypt s.inst s.KEY s.IV (inputBytes s) chk = unpadBytes ((List.range s.LEN.toNat).map (plainByte s)) chk := by
  rw [cbcDecrypt, cbcPlain_eq_map_range hl hsz hmod]

/-- CBC_DEC once its checks on the operands hold: from there on it is UNPAD of the decrypted sequence. -/
theorem cbcDecResult_of_checks (hk : keyValid s = true) (hv : ivValid s = true) (hsrc : sourceFits s)
    (hL : s.LEN.toNat ≠ 0) (hmod : s.LEN.toNat % s.inst.B = 0) (chk : PadCheck) : cbcDecResult chk s =
      (unpadBytes ((List.range s.LEN.toNat).map (plainByte s)) chk).bind (placeOutput s) := by
  rw [cbcDecResult_eq, if_neg (by simp [hk]), if_neg (by simp [hv]), if_neg (Nat.not_lt.2 hsrc),
    if_neg (by simp [hL, hmod]), cbcDecrypt_eq_unpadBytes hl hsz hmod]

/-! ### ECB_ENC and ECB_DEC: one cascade, and an output as long as the input -/

theorem resultOf_ecb_eq {i : Instr} (hi : i = .ecbEnc ∨ i = .ecbDec) :
    ∃ out, (s.LEN.toNat % s.inst.B = 0 → out.length = s.LEN.toNat) ∧ resultOf i s =
      if keyValid s = false then .error .noKey
      else if s.inst.BUF_BYTES < s.SRC.toNat + s.LEN.toNat then .error .srcRange
      else if s.LEN.toNat % s.inst.B ≠ 0 then .error .length
      else placeOutput s out := by
  have hx (h : s.LEN.toNat % s.inst.B = 0) : (inputBytes s).length % s.inst.B = 0 := by rwa [length_inputBytes]
  rcases hi with rfl | rfl
  · exact ⟨_, fun h => (length_ecbEncrypt hl hsz.1 _ (hx h)).trans (length_inputBytes s), ecbEncResult_eq s⟩
  · exact ⟨_, fun h => (length_ecbDecrypt hl hsz.1 _ (hx h)).trans (length_inputBytes s), ecbDecResult_eq s⟩

end

/-! ### Output lengths (R98) -/

theorem length_padResult {pbs : BitVec 8} {s : State} {out : List Byte} (h : padResult pbs s = .ok out) :
    out.length = s.LEN.toNat + (pbs.toNat - s.LEN.toNat % pbs.toNat) := by
  rw [padResult_eq] at h
  split_ifs at h
  obtain ⟨-, rfl⟩ := (placeOutput_ok_iff _ _ _).1 h
  rw [length_padBytes, length_inputBytes]

theorem length_unpadResult {chk : PadCheck} {s : State} {out : List Byte} (h : unpadResult chk s = .ok out) :
    out.length + countOf s.LEN.toNat (inByte s) = s.LEN.toNat := by
  rw [unpadResult_eq] at h
  split_ifs at h with _ hL
  exact length_of_unpadBytes_placed hL h

section
variable {s : State} (hl : s.inst.legal = true) (hsz : keyIvSized s) {out : List Byte}
include hl hsz

theorem length_resultOf_ecb {i : Instr} (hi : i = .ecbEnc ∨ i = .ecbDec) (h : resultOf i s = .ok out) :
    out.length = s.LEN.toNat := by
  obtain ⟨y, hlen, he⟩ := resultOf_ecb_eq hl hsz hi
  rw [he] at h
  split_ifs at h with _ _ hmod
  obtain ⟨-, rfl⟩ := (placeOutput_ok_iff _ _ _).1 h
  exact hlen (not_not.1 hmod)

theorem length_cbcEncResult (h : cbcEncResult s = .ok out) :
    out.length = s.LEN.toNat + (s.inst.B - s.LEN.toNat % s.inst.B) := by
  rw [cbcEncResult_eq] at h
  split_ifs at h
  obtain ⟨-, rfl⟩ := (placeOutput_ok_iff _ _ _).1 h
  rw [length_cbcEncrypt hl hsz.1 hsz.2, length_inputBytes]

theorem length_cbcDecResult {chk : PadCheck} (h : cbcDecResult chk s = .ok out) :
    out.length + countOf s.LEN.toNat (plainByte s) = s.LEN.toNat := by
  rw [cbcDecResult_eq] at h
  split_ifs at h with _ _ _ hlen
  obtain ⟨hL, hmod⟩ := not_or.1 hlen
  rw [cbcDecrypt_eq_unpadBytes hl hsz (not_not.1 hmod)] at h
  exact length_of_unpadBytes_placed hL h

end

end Sys2Proof.Machine
end

section
/-! SUPPORT. The statements of 40_command_execution.md on every command, settled. -/

namespace Sys2Proof.Proofs

open Sys2Proof Sys2Proof.Machine Sys2Proof.Rules

/-- Settles O7: either way the step is a turn of the unit, and the turn runs what the latched word decodes to. -/
theorem stepRunsDecodedCommand : Obligations.StepRunsDecodedCommand := by
  intro s i
  refine ⟨fun hb hd => ⟨fun he => ?_, fun rest he => ?_⟩, fun nbits w hw => ?_⟩
  · rw [step_of_env_nil he, unitStep_of_decode hb hd]
  · rw [step_of_unitTurn he, unitStep_of_decode (s := { s with env := rest }) hb hd]
  · rw [step_withFetchWord]
    exact unitStep_of_decode rfl ((decodeTableWord_eq_some_iff nbits w i).1 hw)

/-- Settles O9, by induction on the pending events: each step takes one, and the last one is a turn of the unit. -/
theorem commandInFlightCompletes : Obligations.CommandInFlightCompletes := by
  intro s
  generalize he : s.env = events
  induction events generalizing s with
  | nil =>
    obtain ⟨t, ht⟩ := step_total s
    exact ⟨t, run_succ_of_step 0 ht, busy_eq_false_of_step he ht, by rw [step_env ht, he, List.tail_nil]⟩
  | cons e rest ih =>
    obtain ⟨t, ht⟩ := step_total s
    have htail : t.env = rest := by rw [step_env ht, he, List.tail_cons]
    rw [List.length_cons, run_succ_of_step _ ht]
    exact ih t htail

/-- Settles O30: a completion sets ERR, RLEN, BUSY and DONE, and BUF only where the output it returned goes. -/
theorem commandsWriteOnlyTheirResult : Obligations.CommandsWriteOnlyTheirResult := by
  intro i s t hl h
  obtain rfl := (exec_next_iff i s t).1 h
  exact ⟨finish_KEY s _, finish_KEYM s _, finish_IV s _, finish_IVM s _, finish_SRC s _, finish_LEN s _, finish_DST s _,
    finish_IE s _, finish_HERR s _, finish_CMDL s _, finish_inst s _, finish_draw s _, finish_env s _, finish_resp s _,
    finish_BUSY s _, finish_DONE s _, fun a => bufByte_finish_of_outside hl i⟩

/-- Settles O37: PAD's checks as they stand in its cascade, and UNPAD's padding check by the bytes of the input. -/
theorem codecErrorIsFirstFailingCheck : Obligations.CodecErrorIsFirstFailingCheck := by
  refine ⟨fun s pbs => ⟨_, exec_eq _ s, ?_⟩, fun s chk => ⟨_, exec_eq _ s, ?_⟩⟩
  · rw [resultOf, padResult_eq, finish_ERR_check, finish_ERR_check, finish_ERR_placeOutput, length_padBytes,
      length_inputBytes, ← Nat.add_assoc]
    rfl
  · rw [resultOf]
    refine ⟨fun hsrc => ?_, fun hsrc hL => ?_, fun hsrc hL hbad => ?_, fun hsrc hL hgood => ?_⟩
    · rw [unpadResult_eq, if_pos (Nat.not_le.1 hsrc)]
      rfl
    · rw [unpadResult_eq, if_neg (Nat.not_lt.2 hsrc), if_pos hL]
      rfl
    · rw [unpadResult_of_checks hsrc hL, finish_ERR_unpadBytes_of_badPadding s hL hbad]
    · rw [unpadResult_of_checks hsrc hL, finish_ERR_unpadBytes_of_not_badPadding s hL hgood]

/-- Settles O38: the cascade of the two commands, whose output is as long as an aligned input. -/
theorem ecbErrorIsFirstFailingCheck : Obligations.EcbErrorIsFirstFailingCheck := by
  intro s i hl hsz hi
  obtain ⟨out, hlen, he⟩ := resultOf_ecb_eq hl hsz hi
  refine ⟨_, exec_eq i s, ?_⟩
  rw [he, finish_ERR_check, finish_ERR_check, finish_ERR_check, finish_ERR_placeOutput]
  by_cases hmod : s.LEN.toNat % s.inst.B = 0
  · rw [hlen hmod]
    rfl
  · rw [if_pos hmod, if_pos hmod]
    rfl

/-- Settles O39: the two cascades, CBC_DEC's padding check by the bytes of the decrypted sequence. -/
theorem cbcErrorIsFirstFailingCheck : Obligations.CbcErrorIsFirstFailingCheck := by
  refine ⟨fun s hl hsz => ⟨_, exec_eq _ s, ?_⟩, fun s chk hl hsz => ⟨_, exec_eq _ s, ?_⟩⟩
  · rw [resultOf, cbcEncResult_eq, finish_ERR_check, finish_ERR_check, finish_ERR_check, finish_ERR_placeOutput,
      length_cbcEncrypt hl hsz.1 hsz.2, length_inputBytes, ← Nat.add_assoc]
    rfl
  · rw [resultOf]
    refine ⟨fun hk => ?_, fun hk hv => ?_, fun hk hv hsrc => ?_, fun hk hv hsrc hlen => ?_,
      fun hk hv hsrc hL hmod hbad => ?_, fun hk hv hsrc hL hmod hgood => ?_⟩
    · rw [cbcDecResult_eq, if_pos hk]
      rfl
    · rw [cbcDecResult_eq, if_neg (by simp [hk]), if_pos hv]
      rfl
    · rw [cbcDecResult_eq, if_neg (by simp [hk]), if_neg (by simp [hv]), if_pos (Nat.not_le.1 hsrc)]
      rfl
    · rw [cbcDecResult_eq, if_neg (by simp [hk]), if_neg (by simp [hv]), if_neg (Nat.not_lt.2 hsrc), if_pos hlen]
      rfl
    · rw [cbcDecResult_of_checks hl hsz hk hv hsrc hL hmod, finish_ERR_unpadBytes_of_badPadding s hL hbad]
    · rw [cbcDecResult_of_checks hl hsz hk hv hsrc hL hmod, finish_ERR_unpadBytes_of_not_badPadding s hL hgood]

/-- Settles O50: RLEN is the length of the output that Exec returned, which fits at DST. -/
theorem outputLengths : Obligations.OutputLengths := by
  intro i s t hl hsz h hok
  obtain ⟨out, hr, rfl⟩ := exec_ok_of_ERR_eq_zero h hok
  have hfit := resultOf_fits hr
  obtain ⟨-, hlen, -⟩ := exec_of_ok hl hr
  obtain ⟨-, hB, -⟩ := legal_bounds hl
  rw [← hlen] at hfit
  rw [← and_assoc]
  refine ⟨?_, hfit⟩
  cases i with
  | pad pbs =>
    have hout := hlen.trans (length_padResult hr)
    exact ⟨hout, by have := pbs.isLt; omega⟩
  | unpad chk =>
    have hout := length_unpadResult hr
    rw [← hlen] at hout
    exact ⟨hout, by omega⟩
  | ecbEnc =>
    have hout := hlen.trans (length_resultOf_ecb hl hsz (.inl rfl) hr)
    exact ⟨BitVec.eq_of_toNat_eq hout, by omega⟩
  | ecbDec =>
    have hout := hlen.trans (length_resultOf_ecb hl hsz (.inr rfl) hr)
    exact ⟨BitVec.eq_of_toNat_eq hout, by omega⟩
  | cbcEnc =>
    have hout := hlen.trans (length_cbcEncResult hl hsz hr)
    exact ⟨hout, by omega⟩
  | cbcDec chk =>
    have hout := length_cbcDecResult hl hsz hr
    rw [← hlen] at hout
    exact ⟨hout, by omega⟩

/-- Settles O51: what Exec returns depends on the operands alone, and decides all that is claimed. -/
theorem resultDependsOnOperandsOnly : Obligations.ResultDependsOnOperandsOnly := by
  intro i s s' t t' hl hinst hsrc hlen hdst hkey hkeym hiv hivm hin h h'
  obtain rfl := (exec_next_iff i s t).1 h
  obtain rfl := (exec_next_iff i s' t').1 h'
  have hops : operands s' = operands s := by
    simp only [operands, hinst, hsrc, hlen, hdst, hkey, hkeym, hiv, hivm, inputBytes_congr hlen hin]
  rw [resultOf_congr hops i]
  exact finish_result_congr hdst fun out hr => length_lt_of_fits hl (resultOf_fits hr)

end Sys2Proof.Proofs
end

section
/-! SUPPORT. The PKCS#7 codec: pad and unpad undo each other, which sequences pad makes, and when PAD and UNPAD succeed with which
output (41_padding.md R110 to R115). -/

namespace Sys2Proof.Machine

open Sys2Proof Sys2Proof.Rules

/-! ### The functions -/

section
variable {b : Nat}

theorem toNat_getD_padBytes_right (hb : b ≤ 255) {x : List Byte} {i : Nat} (h1 : x.length ≤ i)
    (h2 : i < x.length + (b - x.length % b)) : ((padBytes x b).getD i 0).toNat = b - x.length % b := by
  rw [getD_padBytes_right x b i h1 h2, BitVec.toNat_ofNat, Nat.mod_eq_of_lt (by omega)]

/-- pad appends at least one byte, so the last byte of its result is one of those it appended. -/
theorem paddingCount_padBytes (h1 : 1 ≤ b) (hb : b ≤ 255) (x : List Byte) :
    paddingCount (padBytes x b) = b - x.length % b := by
  have hR := Nat.mod_lt x.length h1
  rw [paddingCount_eq, length_padBytes, toNat_getD_padBytes_right hb (by omega) (by omega)]

/-- No check of either mode fails on what pad makes, and exactly its own bytes are removed. -/
theorem unpadBytes_padBytes (h1 : 1 ≤ b) (hb : b ≤ 255) (x : List Byte) (chk : PadCheck) :
    unpadBytes (padBytes x b) chk = .ok x := by
  have hR := Nat.mod_lt x.length h1
  rw [unpadBytes_ok_iff, paddingCount_padBytes h1 hb, length_padBytes, Nat.add_sub_cancel]
  refine ⟨by omega, ?_, fun _ => ⟨by omega, fun j hj hlt => toNat_getD_padBytes_right hb hj hlt⟩⟩
  rw [padBytes, List.take_left]

/-- A sequence whose last V bytes are all V ends in the V bytes that pad would append. -/
theorem drop_eq_repBytes {x : List Byte} {V : Nat} (hV : V ≤ x.length)
    (h : ∀ j, x.length - V ≤ j → j < x.length → (x.getD j 0).toNat = V) :
    x.drop (x.length - V) = repBytes V (BitVec.ofNat 8 V) := by
  refine List.eq_replicate_iff.2 ⟨by rw [List.length_drop]; omega, fun v hv => ?_⟩
  obtain ⟨i, hi, rfl⟩ := List.mem_drop_iff_getElem.1 hv
  have hbyte := h (x.length - V + i) (by omega) (by omega)
  rw [List.getD_eq_getElem _ _ (by omega)] at hbyte
  conv_rhs => rw [← hbyte, BitVec.ofNat_toNat, BitVec.setWidth_eq]

/-- Taking 1 to b bytes off a multiple of b leaves a length whose padding is as many bytes. -/
theorem sub_mod_sub_eq {n V : Nat} (hn : n % b = 0) (hVn : V ≤ n) (h1 : 1 ≤ V) (hVb : V ≤ b) : b - (n - V) % b = V := by
  obtain ⟨k, rfl⟩ := Nat.dvd_of_mod_eq_zero hn
  cases k with
  | zero => omega
  | succ k =>
    have e : b * (k + 1) - V = b - V + b * k := by rw [Nat.mul_succ]; omega
    rw [e, Nat.add_mul_mod_self_left, Nat.mod_eq_of_lt (by omega)]
    omega

/-- What strict unpad leaves, padded again, is its input when that is aligned and its count is at most b. -/
theorem padBytes_of_unpadBytes_strict {x y : List Byte} (hu : unpadBytes x .strict = .ok y) (hmod : x.length % b = 0)
    (hcount : paddingCount x ≤ b) : padBytes y b = x := by
  obtain ⟨hle, rfl, hstrict⟩ := (unpadBytes_ok_iff x .strict y).1 hu
  obtain ⟨hne, hbytes⟩ := hstrict rfl
  have hlen : (x.take (x.length - paddingCount x)).length = x.length - paddingCount x :=
    List.length_take_of_le (Nat.sub_le _ _)
  rw [padBytes, hlen, sub_mod_sub_eq hmod hle (Nat.one_le_iff_ne_zero.2 hne) hcount, ← drop_eq_repBytes hle hbytes,
    List.take_append_drop]

/-- The image of pad (R115). -/
theorem exists_eq_padBytes_iff (h1 : 1 ≤ b) (hb : b ≤ 255) (x : List Byte) : (∃ y, x = padBytes y b)
    ↔ (∃ y, unpadBytes x .strict = .ok y) ∧ x.length % b = 0 ∧ paddingCount x ≤ b := by
  constructor
  · rintro ⟨y, rfl⟩
    exact ⟨⟨y, unpadBytes_padBytes h1 hb y .strict⟩, length_padBytes_mod h1 y,
      (paddingCount_padBytes h1 hb y).trans_le (Nat.sub_le _ _)⟩
  · rintro ⟨⟨y, hu⟩, hmod, hcount⟩
    exact ⟨y, (padBytes_of_unpadBytes_strict hu hmod hcount).symm⟩

end

/-! ### The commands -/

theorem one_le_toNat {pbs : BitVec 8} (h : pbs ≠ 0) : 1 ≤ pbs.toNat :=
  Nat.one_le_iff_ne_zero.2 fun h0 => h (BitVec.eq_of_toNat_eq h0)

/-- PAD succeeds exactly when none of its three checks fails, and its output is the padded input (R112). -/
theorem resultOf_pad_eq_ok_iff {s : State} {pbs : BitVec 8} {out : List Byte} : resultOf (.pad pbs) s = .ok out ↔
    pbs ≠ 0 ∧ sourceFits s ∧ s.DST.toNat + s.LEN.toNat + (pbs.toNat - s.LEN.toNat % pbs.toNat) ≤ s.inst.BUF_BYTES
      ∧ out = padBytes (inputBytes s) pbs.toNat := by
  rw [resultOf, padResult_eq]
  split_ifs with h0 hsrc
  · simp [h0]
  · simp [sourceFits, Nat.not_le.2 hsrc]
  · rw [placeOutput_ok_iff, length_padBytes, length_inputBytes, ← Nat.add_assoc]
    exact ⟨fun ⟨hfit, hout⟩ => ⟨h0, Nat.not_lt.1 hsrc, hfit, hout⟩, fun ⟨_, _, hfit, hout⟩ => ⟨hfit, hout⟩⟩

/-- UNPAD of an input that unpad accepts, when the output fits (R113). -/
theorem resultOf_unpad_of_unpadBytes {s : State} {chk : PadCheck} {out : List Byte} (hsrc : sourceFits s)
    (hL : s.LEN.toNat ≠ 0) (hu : unpadBytes (inputBytes s) chk = .ok out)
    (hfit : s.DST.toNat + out.length ≤ s.inst.BUF_BYTES) : resultOf (.unpad chk) s = .ok out := by
  rw [resultOf, unpadResult_eq, if_neg (Nat.not_lt.2 hsrc), if_neg hL, hu]
  exact (placeOutput_ok_iff s out out).2 ⟨hfit, rfl⟩

/-- The state in which the host has aimed the next command at the output of one that succeeded, its own output to go to d. -/
def aimedAtOutput (s : State) (out : List Byte) (d : Word) : State :=
  { completeOk s out with SRC := s.DST, LEN := (completeOk s out).RLEN, DST := d }

section
variable {s : State} {i : Instr} {out : List Byte} (hl : s.inst.legal = true) (h : resultOf i s = .ok out) (d : Word)
include hl h

theorem toNat_LEN_aimedAtOutput : (aimedAtOutput s out d).LEN.toNat = out.length := (exec_of_ok hl h).2.1

/-- The next command's input is the output. -/
theorem inputBytes_aimedAtOutput : inputBytes (aimedAtOutput s out d) = out := by
  rw [inputBytes, toNat_LEN_aimedAtOutput hl h d]
  exact memRead_completeOk s out

theorem sourceFits_aimedAtOutput : sourceFits (aimedAtOutput s out d) := by
  rw [sourceFits, toNat_LEN_aimedAtOutput hl h d]
  exact resultOf_fits h

end

/-- UNPAD of the output of a PAD returns the input of the PAD (R114). -/
theorem resultOf_unpad_aimedAtOutput {s : State} {pbs : BitVec 8} {out : List Byte} (hl : s.inst.legal = true)
    (h : resultOf (.pad pbs) s = .ok out) (chk : PadCheck) {d : Word} (hd : d.toNat + s.LEN.toNat ≤ s.inst.BUF_BYTES) :
    resultOf (.unpad chk) (aimedAtOutput s out d) = .ok (inputBytes s) := by
  obtain ⟨hpbs, -, -, hout⟩ := resultOf_pad_eq_ok_iff.1 h
  have h1 := one_le_toNat hpbs
  refine resultOf_unpad_of_unpadBytes (sourceFits_aimedAtOutput hl h d) ?_ ?_ (by rwa [length_inputBytes])
  · rw [toNat_LEN_aimedAtOutput hl h d, hout, length_padBytes]
    have hR := Nat.mod_lt (inputBytes s).length h1
    omega
  · rw [inputBytes_aimedAtOutput hl h d, hout]
    exact unpadBytes_padBytes h1 (by have := pbs.isLt; omega) _ chk

end Sys2Proof.Machine
end

section
/-! SUPPORT. The statements of 41_padding.md, settled. -/

namespace Sys2Proof.Proofs

open Sys2Proof Sys2Proof.Machine Sys2Proof.Rules

/-- Settles O31: PAD's output is the padded input, its bytes before LEN the input's and those from LEN on the count. -/
theorem padAppendsItsCount : Obligations.PadAppendsItsCount := by
  intro s pbs hl hpbs hsrc hfit
  obtain ⟨hexec, hlen, hbytes⟩ := exec_of_ok hl (resultOf_pad_eq_ok_iff.2 ⟨hpbs, hsrc, hfit, rfl⟩)
  rw [length_padBytes, length_inputBytes] at hlen hbytes
  refine ⟨_, hexec, rfl, rfl, rfl, hlen, fun j hj => ?_, fun j hj hlt => ?_⟩
  · rw [hbytes j (by omega), getD_padBytes_left _ _ _ (by rwa [length_inputBytes]), getD_inputBytes s j hj, inByte]
  · rw [hlen] at hlt
    have hcount := toNat_getD_padBytes_right (b := pbs.toNat) (by have := pbs.isLt; omega) (x := inputBytes s) (i := j)
    rw [length_inputBytes] at hcount
    rw [hbytes j hlt, hcount hj hlt]

/-- Settles O32: unpad of the input is its bytes before the last V, in either mode that does not reject it. -/
theorem unpadRemovesItsCount : Obligations.UnpadRemovesItsCount := by
  intro s chk hl hsrc hL hgood hfit
  have hu := unpadBytes_map_range_of_not_badPadding hL hgood
  rw [← inputBytes_eq_map_range] at hu
  obtain ⟨hexec, hlen, hbytes⟩ := exec_of_ok hl (resultOf_unpad_of_unpadBytes hsrc hL hu (by simpa using hfit))
  rw [List.length_map, List.length_range] at hlen hbytes
  refine ⟨_, hexec, rfl, rfl, rfl, hlen, fun j hj => ?_⟩
  rw [hlen] at hj
  rw [hbytes j hj, getD_map_range _ hj]

/-- Settles O42: the functions' law, and UNPAD reading as its input what PAD wrote. -/
theorem unpadUndoesPad : Obligations.UnpadUndoesPad := by
  refine ⟨fun x b chk h1 hb => ⟨unpadBytes_padBytes h1 hb x chk, length_padBytes_mod h1 x, ?_⟩,
    fun s t pbs chk d hl h hok hd => ?_⟩
  · have hR := Nat.mod_lt x.length h1
    rw [length_padBytes]
    omega
  · obtain ⟨out, hr, rfl⟩ := exec_ok_of_ERR_eq_zero h hok
    obtain ⟨hexec, hlen, hbytes⟩ := exec_of_ok (s := aimedAtOutput s out d) hl (resultOf_unpad_aimedAtOutput hl hr chk hd)
    rw [length_inputBytes] at hlen hbytes
    exact ⟨_, hexec, rfl, BitVec.eq_of_toNat_eq hlen, fun j hj => (hbytes j hj).trans (getD_inputBytes s j hj)⟩

/-- Settles O43: the examples by evaluation, and the image of pad; the empty sequence has count 0, which strict unpad rejects. -/
theorem paddedSequencesAreThoseStrictUnpadAccepts : Obligations.PaddedSequencesAreThoseStrictUnpadAccepts := by
  refine ⟨rfl, rfl, rfl, rfl, rfl, fun x b h1 hb => ?_⟩
  rw [exists_eq_padBytes_iff h1 hb, paddingCount_eq, countOf]

end Sys2Proof.Proofs
end

section
/-! SUPPORT. ECB in either direction: the blocks of its output, and when ECB_ENC and ECB_DEC succeed with which output
(42_ecb.md R120 to R123). -/

namespace Sys2Proof.Machine

open Sys2Proof Sys2Proof.Rules

/-! ### The functions -/

/-- Two blocks are equal exactly when their images are, for a length-keeping map that is injective on blocks (R122). -/
theorem blk_eq_iff_blk_mapBlocks_eq {B : Nat} (hB : 0 < B) {f : List Byte → List Byte}
    (hf : ∀ b : List Byte, b.length = B → (f b).length = B)
    (hinj : ∀ b c : List Byte, b.length = B → c.length = B → f b = f c → b = c)
    (x : List Byte) {i j : Nat} (hi : i < x.length / B) (hj : j < x.length / B) :
    blk B x i = blk B x j ↔ blk B (mapBlocks B f x) i = blk B (mapBlocks B f x) j := by
  rw [blk_mapBlocks hB hf x i hi, blk_mapBlocks hB hf x j hj]
  exact ⟨congrArg f,
    hinj _ _ (length_blk (succ_mul_le_of_lt_div hi)) (length_blk (succ_mul_le_of_lt_div hj))⟩

section
variable {p : Params} {k : List Byte} (hp : p.legal = true) (hk : k.length = p.KLEN) {x : List Byte}
include hp hk

theorem ecbDecrypt_ecbEncrypt (hx : x.length % p.B = 0) : ecbDecrypt p k (ecbEncrypt p k x) = x :=
  mapBlocks_mapBlocks (legal_bounds hp).1 (fun _ => length_encryptBlock hp hk) (fun _ => decryptBlock_encryptBlock hp hk) x hx

theorem ecbEncrypt_ecbDecrypt (hx : x.length % p.B = 0) : ecbEncrypt p k (ecbDecrypt p k x) = x :=
  mapBlocks_mapBlocks (legal_bounds hp).1 (fun _ => length_decryptBlock hp hk) (fun _ => encryptBlock_decryptBlock hp hk) x hx

end

/-! ### The commands -/

/-- The command i maps the function f over the blocks of its input. -/
def ecbCommand (i : Instr) (f : Params → List Byte → List Byte → List Byte) : Prop :=
  i = .ecbEnc ∧ f = encryptBlock ∨ i = .ecbDec ∧ f = decryptBlock

theorem ecbCommand_ecbEnc : ecbCommand .ecbEnc encryptBlock := .inl ⟨rfl, rfl⟩

theorem ecbCommand_ecbDec : ecbCommand .ecbDec decryptBlock := .inr ⟨rfl, rfl⟩

section
variable {i : Instr} {f : Params → List Byte → List Byte → List Byte} (hi : ecbCommand i f) {s : State} {out : List Byte}
include hi

theorem resultOf_ecbCommand_eq (s : State) : resultOf i s =
    if keyValid s = false then .error .noKey
    else if s.inst.BUF_BYTES < s.SRC.toNat + s.LEN.toNat then .error .srcRange
    else if s.LEN.toNat % s.inst.B ≠ 0 then .error .length
    else placeOutput s (mapBlocks s.inst.B (f s.inst s.KEY) (inputBytes s)) := by
  rcases hi with ⟨rfl, rfl⟩ | ⟨rfl, rfl⟩
  · exact ecbEncResult_eq s
  · exact ecbDecResult_eq s

/-- An ECB command succeeds exactly when none of its four checks fails (R120, R121). -/
theorem resultOf_ecbCommand_eq_ok_iff : resultOf i s = .ok out ↔
    keyValid s = true ∧ sourceFits s ∧ s.LEN.toNat % s.inst.B = 0 ∧ s.DST.toNat + out.length ≤ s.inst.BUF_BYTES
      ∧ out = mapBlocks s.inst.B (f s.inst s.KEY) (inputBytes s) := by
  rw [resultOf_ecbCommand_eq hi]
  split_ifs with hkey hsrc hmod
  · simp [hkey]
  · simp [sourceFits, Nat.not_le.2 hsrc]
  · simp [hmod]
  · rw [placeOutput_ok_iff]
    constructor
    · rintro ⟨hfit, rfl⟩
      exact ⟨Bool.eq_true_of_not_eq_false hkey, Nat.not_lt.1 hsrc, not_not.1 hmod, hfit, rfl⟩
    · rintro ⟨-, -, -, hfit, rfl⟩
      exact ⟨hfit, rfl⟩

theorem length_of_ecbCommand {p : Params} {k b : List Byte} (hp : p.legal = true) (hk : k.length = p.KLEN)
    (hb : b.length = p.B) : (f p k b).length = p.B := by
  rcases hi with ⟨-, rfl⟩ | ⟨-, rfl⟩
  · exact length_encryptBlock hp hk hb
  · exact length_decryptBlock hp hk hb

/-- The output of an ECB command is as long as its input (R98). -/
theorem length_ecbCommand_output (hl : s.inst.legal = true) (hk : s.KEY.length = s.inst.KLEN)
    (hmod : s.LEN.toNat % s.inst.B = 0) :
    (mapBlocks s.inst.B (f s.inst s.KEY) (inputBytes s)).length = s.LEN.toNat := by
  rw [length_mapBlocks fun _ => length_of_ecbCommand hi hl hk, length_inputBytes]
  exact Nat.div_mul_cancel (Nat.dvd_of_mod_eq_zero hmod)

end

/-- Block i of the output, read back where a successful completion put it. -/
theorem memRead_completeOk_block (s : State) {out : List Byte} {B i : Nat} (h : (i + 1) * B ≤ out.length) :
    memRead (completeOk s out) (s.DST.toNat + i * B) B = blk B out i := by
  rw [← take_drop_memRead _ _ out.length _ _ (by rwa [← Nat.succ_mul]), memRead_completeOk, blk]

/-- An ECB command whose checks hold completes with f of each input block, in block order (R120, R121). -/
theorem exec_ecbCommand_blocks {i : Instr} {f : Params → List Byte → List Byte → List Byte} (hi : ecbCommand i f)
    {s : State} (hl : s.inst.legal = true) (hsz : keyIvSized s) (hkey : keyValid s = true) (hsrc : sourceFits s)
    (hmod : s.LEN.toNat % s.inst.B = 0) (hfit : s.DST.toNat + s.LEN.toNat ≤ s.inst.BUF_BYTES) :
    ∃ t, exec i s = .next t ∧ t.ERR = 0 ∧ t.BUSY = false ∧ t.DONE = true ∧ t.RLEN = s.LEN
      ∧ ∀ n, n < s.LEN.toNat / s.inst.B →
          memRead t (s.DST.toNat + n * s.inst.B) s.inst.B = f s.inst s.KEY (inBlock s n) := by
  obtain ⟨hk, -⟩ := hsz
  have hout := length_ecbCommand_output hi hl hk hmod
  obtain ⟨hexec, hlen, -⟩ := exec_of_ok hl
    ((resultOf_ecbCommand_eq_ok_iff hi).2 ⟨hkey, hsrc, hmod, by rwa [hout], rfl⟩)
  refine ⟨_, hexec, rfl, rfl, rfl, BitVec.eq_of_toNat_eq (hlen.trans hout), fun n hn => ?_⟩
  have hin := succ_mul_le_of_lt_div hn
  rw [memRead_completeOk_block s (by rwa [hout]), blk_mapBlocks (legal_bounds hl).1
    (fun _ => length_of_ecbCommand hi hl hk) _ n (by rwa [length_inputBytes]), blk_inputBytes s _ n hin, inBlock]

/-- ECB_DEC of the output of an ECB_ENC returns the input of the ECB_ENC (R123). -/
theorem resultOf_ecbDec_aimedAtOutput {s : State} {out : List Byte} (hl : s.inst.legal = true) (hsz : keyIvSized s)
    (h : resultOf .ecbEnc s = .ok out) {d : Word} (hd : d.toNat + s.LEN.toNat ≤ s.inst.BUF_BYTES) :
    resultOf .ecbDec (aimedAtOutput s out d) = .ok (inputBytes s) := by
  obtain ⟨hk, -⟩ := hsz
  obtain ⟨hkey, -, hmod, -, hout⟩ := (resultOf_ecbCommand_eq_ok_iff ecbCommand_ecbEnc).1 h
  have hlen : out.length = s.LEN.toNat := hout ▸ length_ecbCommand_output ecbCommand_ecbEnc hl hk hmod
  refine (resultOf_ecbCommand_eq_ok_iff ecbCommand_ecbDec).2
    ⟨hkey, sourceFits_aimedAtOutput hl h d, ?_, by rwa [length_inputBytes], ?_⟩
  · rw [toNat_LEN_aimedAtOutput hl h d, hlen]
    exact hmod
  · rw [inputBytes_aimedAtOutput hl h d, hout]
    exact (ecbDecrypt_ecbEncrypt hl hk (by rwa [length_inputBytes])).symm

end Sys2Proof.Machine
end

section
/-! SUPPORT. The statements of 42_ecb.md, settled. -/

namespace Sys2Proof.Proofs

open Sys2Proof Sys2Proof.Machine Sys2Proof.Rules

/-- Settles O33: the blocks of an ECB command's output, with E for the function. -/
theorem ecbEncEncryptsEachBlock : Obligations.EcbEncEncryptsEachBlock :=
  fun _ => exec_ecbCommand_blocks ecbCommand_ecbEnc

/-- Settles O34: the blocks of an ECB command's output, with D for the function. -/
theorem ecbDecDecryptsEachBlock : Obligations.EcbDecDecryptsEachBlock :=
  fun _ => exec_ecbCommand_blocks ecbCommand_ecbDec

/-- Settles O44: E k and D k keep the length of a block and are injective on blocks. -/
theorem ecbBlocksDependOnTheirOwnBlock : Obligations.EcbBlocksDependOnTheirOwnBlock := by
  intro p k x hp hk _
  have hB := (legal_bounds hp).1
  have henc (b : List Byte) (hb : b.length = p.B) := length_encryptBlock hp hk hb
  have hdec (b : List Byte) (hb : b.length = p.B) := length_decryptBlock hp hk hb
  refine ⟨fun i hi => ⟨blk_mapBlocks hB henc x i hi, blk_mapBlocks hB hdec x i hi⟩, fun i j hi hj => ⟨?_, ?_⟩⟩
  · exact blk_eq_iff_blk_mapBlocks_eq hB henc (fun _ _ => encryptBlock_injective hp hk) x hi hj
  · exact blk_eq_iff_blk_mapBlocks_eq hB hdec (fun _ _ => decryptBlock_injective hp hk) x hi hj

/-- Settles O45: the functions undo each other, and ECB_DEC reads as its input what ECB_ENC wrote. -/
theorem ecbRoundTripRestoresInput : Obligations.EcbRoundTripRestoresInput := by
  refine ⟨fun p k x hp hk hx => ⟨ecbDecrypt_ecbEncrypt hp hk hx, ecbEncrypt_ecbDecrypt hp hk hx⟩,
    fun s t d hl hsz h hok hd => ?_⟩
  obtain ⟨out, hr, rfl⟩ := exec_ok_of_ERR_eq_zero h hok
  obtain ⟨hexec, hlen, hbytes⟩ := exec_of_ok (s := aimedAtOutput s out d) hl (resultOf_ecbDec_aimedAtOutput hl hsz hr hd)
  rw [length_inputBytes] at hlen hbytes
  exact ⟨_, hexec, rfl, BitVec.eq_of_toNat_eq hlen, fun j hj => (hbytes j hj).trans (getD_inputBytes s j hj)⟩

end Sys2Proof.Proofs
end

section
/-! SUPPORT. CBC in either direction: the blocks of its outputs, the round trip, diffusion, and when CBC_ENC and CBC_DEC succeed
with which output (43_cbc.md R130 to R136). -/

namespace Sys2Proof.Machine

open Sys2Proof Sys2Proof.Rules

/-! ### XOR with a block is injective -/

theorem xorBytes_left_inj {a b c : List Byte} (ha : a.length = c.length) (hb : b.length = c.length) :
    xorBytes a c = xorBytes b c ↔ a = b := by
  refine ⟨fun h => ?_, fun h => by rw [h]⟩
  rw [← xorBytes_xorBytes_cancel a c ha, h, xorBytes_xorBytes_cancel b c hb]

theorem xorBytes_right_inj {a b c : List Byte} (ha : a.length = c.length) (hb : b.length = c.length) :
    xorBytes c a = xorBytes c b ↔ a = b := by
  rw [xorBytes_comm c a, xorBytes_comm c b, xorBytes_left_inj ha hb]

/-! ### The blocks of the functions' results -/

/-- A sequence of one block. -/
theorem blocksOf_block {B : Nat} (hB : 0 < B) {c : List Byte} (hc : c.length = B) : blocksOf B c = [c] := by
  have h := blocksOf_append hB hc []
  rwa [List.append_nil, blocksOf_nil] at h

theorem length_blk_of_lt_div {B i : Nat} {y : List Byte} (h : i < y.length / B) : (blk B y i).length = B :=
  length_blk (succ_mul_le_of_lt_div h)

/-- The padded length depends on the length alone. -/
theorem length_padBytes_congr {x x' : List Byte} (h : x.length = x'.length) (b : Nat) :
    (padBytes x b).length = (padBytes x' b).length := by
  rw [length_padBytes, length_padBytes, h]

/-- C_(i-1) for block i of a ciphertext, C_(-1) the IV (R130, R131). -/
def previousBlock (B : Nat) (iv y : List Byte) (i : Nat) : List Byte := if i = 0 then iv else blk B y (i - 1)

@[simp] theorem previousBlock_zero (B : Nat) (iv y : List Byte) : previousBlock B iv y 0 = iv := rfl

@[simp] theorem previousBlock_succ (B : Nat) (iv y : List Byte) (i : Nat) : previousBlock B iv y (i + 1) = blk B y i := rfl

theorem length_previousBlock {B i : Nat} {iv y : List Byte} (hiv : iv.length = B) (hi : i < y.length / B) :
    (previousBlock B iv y i).length = B := by
  cases i with
  | zero => exact hiv
  | succ i => exact length_blk_of_lt_div (Nat.lt_of_succ_lt hi)

section
variable {p : Params} {k iv : List Byte} (hp : p.legal = true) (hk : k.length = p.KLEN) (hiv : iv.length = p.B)
include hp hk hiv

theorem length_cbcEncrypt_eq_length_padBytes (x : List Byte) : (cbcEncrypt p k iv x).length = (padBytes x p.B).length := by
  rw [length_cbcEncrypt hp hk hiv, length_padBytes]

theorem length_previousBlock_cbcEncrypt {x : List Byte} {i : Nat} (hi : i < (padBytes x p.B).length / p.B) :
    (previousBlock p.B iv (cbcEncrypt p k iv x) i).length = p.B :=
  length_previousBlock hiv (by rwa [length_cbcEncrypt_eq_length_padBytes hp hk hiv])

/-- The blocks of the ciphertext are the chain. -/
theorem blocksOf_cbcEncrypt (x : List Byte) :
    blocksOf p.B (cbcEncrypt p k iv x) = cbcChain (encryptBlock p k) iv (blocksOf p.B (padBytes x p.B)) :=
  blocksOf_flatten (legal_bounds hp).1 _
    (length_of_mem_cbcChain (fun _ => length_encryptBlock hp hk) hiv fun _ => length_of_mem_blocksOf)

/-- The recurrence of the ciphertext blocks (R130). -/
theorem blk_cbcEncrypt {x : List Byte} {i : Nat} (hi : i < (padBytes x p.B).length / p.B) :
    blk p.B (cbcEncrypt p k iv x) i = encryptBlock p k
      (xorBytes (blk p.B (padBytes x p.B) i) (previousBlock p.B iv (cbcEncrypt p k iv x) i)) := by
  have hlen := length_of_mem_cbcChain (fun _ => length_encryptBlock hp hk) hiv
    fun _ => length_of_mem_blocksOf (B := p.B) (y := padBytes x p.B)
  have hB := (legal_bounds hp).1
  rw [cbcEncrypt, blk_flatten hB _ hlen i (by simpa using hi), getElem_cbcChain, getElem_blocksOf]
  cases i with
  | zero => rfl
  | succ i =>
    rw [if_neg i.succ_ne_zero, previousBlock_succ, blk_flatten hB _ hlen i (by simpa using Nat.lt_of_succ_lt hi)]
    rfl

/-- Block i of the decrypted sequence needs two ciphertext blocks only (R131, R133). -/
theorem blk_cbcPlain_eq_xorBytes {y : List Byte} {i : Nat} (hi : i < y.length / p.B) :
    blk p.B (cbcPlain p k iv y) i = xorBytes (decryptBlock p k (blk p.B y i)) (previousBlock p.B iv y i) := by
  have hlen := length_of_mem_cbcUnchain (fun _ => length_decryptBlock hp hk) hiv
    fun _ => length_of_mem_blocksOf (B := p.B) (y := y)
  rw [cbcPlain, blk_flatten (legal_bounds hp).1 _ hlen i (by simpa using hi), getElem_cbcUnchain, getElem_blocksOf]
  cases i with
  | zero => rfl
  | succ i =>
    rw [if_neg i.succ_ne_zero, previousBlock_succ, getElem_blocksOf]
    rfl

/-- The decrypted sequence of the ciphertext is the padded input (R134). -/
theorem cbcPlain_cbcEncrypt (x : List Byte) : cbcPlain p k iv (cbcEncrypt p k iv x) = padBytes x p.B := by
  have hB := (legal_bounds hp).1
  rw [cbcPlain, blocksOf_cbcEncrypt hp hk hiv, cbcUnchain_cbcChain (fun _ => length_encryptBlock hp hk)
    (fun _ => decryptBlock_encryptBlock hp hk) hiv fun _ => length_of_mem_blocksOf,
    flatten_blocksOf hB _ (length_padBytes_mod hB x)]

theorem cbcDecrypt_cbcEncrypt (x : List Byte) (chk : PadCheck) : cbcDecrypt p k iv (cbcEncrypt p k iv x) chk = .ok x := by
  obtain ⟨h1, h255, -⟩ := legal_bounds hp
  rw [cbcDecrypt, cbcPlain_cbcEncrypt hp hk hiv, unpadBytes_padBytes h1 h255]

end

/-! ### One block alone (R133) -/

theorem ecbDecrypt_block {p : Params} (hB : 0 < p.B) (k : List Byte) {c : List Byte} (hc : c.length = p.B) :
    ecbDecrypt p k c = decryptBlock p k c := by
  simp [ecbDecrypt, mapBlocks, blocksOf_block hB hc]

theorem cbcPlain_block {p : Params} (hB : 0 < p.B) (k previous : List Byte) {c : List Byte} (hc : c.length = p.B) :
    cbcPlain p k previous c = xorBytes (decryptBlock p k c) previous := by
  simp [cbcPlain, cbcUnchain, blocksOf_block hB hc]

/-- Lenient unpad takes the count off the end, or rejects a count longer than the sequence (41_padding.md R111). -/
theorem unpadBytes_lenient (x : List Byte) : unpadBytes x .lenient =
    if paddingCount x ≤ x.length then .ok (x.take (x.length - paddingCount x)) else .error .badPadding := by
  simp only [unpadBytes, ← Nat.not_le, ite_not]

/-! ### Diffusion (R136) -/

section
variable {p : Params} {k iv x x' : List Byte} (hp : p.legal = true) (hk : k.length = p.KLEN) (hiv : iv.length = p.B)
  (hlen : x.length = x'.length)
include hp hk hiv hlen

/-- E is injective, so two ciphertext blocks are equal exactly when E was given the same. -/
theorem blk_cbcEncrypt_eq_iff {j : Nat} (hj : j < (padBytes x p.B).length / p.B) :
    blk p.B (cbcEncrypt p k iv x) j = blk p.B (cbcEncrypt p k iv x') j ↔
      xorBytes (blk p.B (padBytes x p.B) j) (previousBlock p.B iv (cbcEncrypt p k iv x) j)
        = xorBytes (blk p.B (padBytes x' p.B) j) (previousBlock p.B iv (cbcEncrypt p k iv x') j) := by
  have hin (z : List Byte) (hz : j < (padBytes z p.B).length / p.B) :
      (xorBytes (blk p.B (padBytes z p.B) j) (previousBlock p.B iv (cbcEncrypt p k iv z) j)).length = p.B := by
    rw [length_xorBytes, length_blk_of_lt_div hz, length_previousBlock_cbcEncrypt hp hk hiv hz, Nat.min_self]
  have hj' : j < (padBytes x' p.B).length / p.B := length_padBytes_congr hlen p.B ▸ hj
  rw [blk_cbcEncrypt hp hk hiv hj, blk_cbcEncrypt hp hk hiv hj']
  exact ⟨encryptBlock_injective hp hk (hin x hj) (hin x' hj'), congrArg _⟩

/-- Behind equal ciphertext blocks, ciphertext blocks differ exactly where padded blocks do. -/
theorem blk_cbcEncrypt_eq_iff_of_previousBlock_eq {j : Nat} (hj : j < (padBytes x p.B).length / p.B)
    (hprev : previousBlock p.B iv (cbcEncrypt p k iv x) j = previousBlock p.B iv (cbcEncrypt p k iv x') j) :
    blk p.B (cbcEncrypt p k iv x) j = blk p.B (cbcEncrypt p k iv x') j
      ↔ blk p.B (padBytes x p.B) j = blk p.B (padBytes x' p.B) j := by
  have hj' : j < (padBytes x' p.B).length / p.B := length_padBytes_congr hlen p.B ▸ hj
  have hc := length_previousBlock_cbcEncrypt hp hk hiv hj'
  rw [blk_cbcEncrypt_eq_iff hp hk hiv hlen hj, hprev]
  exact xorBytes_left_inj ((length_blk_of_lt_div hj).trans hc.symm) ((length_blk_of_lt_div hj').trans hc.symm)

/-- Behind different ciphertext blocks, equal padded blocks give different ciphertext blocks. -/
theorem blk_cbcEncrypt_succ_eq_iff_of_blk_eq {j : Nat} (hj : j + 1 < (padBytes x p.B).length / p.B)
    (hblk : blk p.B (padBytes x p.B) (j + 1) = blk p.B (padBytes x' p.B) (j + 1)) :
    blk p.B (cbcEncrypt p k iv x) (j + 1) = blk p.B (cbcEncrypt p k iv x') (j + 1)
      ↔ blk p.B (cbcEncrypt p k iv x) j = blk p.B (cbcEncrypt p k iv x') j := by
  have hj' : j + 1 < (padBytes x' p.B).length / p.B := length_padBytes_congr hlen p.B ▸ hj
  have hb := length_blk_of_lt_div hj'
  rw [blk_cbcEncrypt_eq_iff hp hk hiv hlen hj, hblk]
  exact xorBytes_right_inj ((length_previousBlock_cbcEncrypt hp hk hiv hj).trans hb.symm)
    ((length_previousBlock_cbcEncrypt hp hk hiv hj').trans hb.symm)

/-- The ciphertext blocks before the first difference are equal, and so is what the block at it is chained with. -/
theorem previousBlock_cbcEncrypt_eq {i : Nat} (hi : i < (padBytes x p.B).length / p.B)
    (hpre : ∀ j, j < i → blk p.B (padBytes x p.B) j = blk p.B (padBytes x' p.B) j) :
    previousBlock p.B iv (cbcEncrypt p k iv x) i = previousBlock p.B iv (cbcEncrypt p k iv x') i := by
  induction i with
  | zero => rfl
  | succ i ih =>
    have hi' := Nat.lt_of_succ_lt hi
    exact (blk_cbcEncrypt_eq_iff_of_previousBlock_eq hp hk hiv hlen hi'
      (ih hi' fun j hj => hpre j (Nat.lt_succ_of_lt hj))).2 (hpre i i.lt_succ_self)

/-- R136 (a): no block before the first difference changes, and the block at it does. -/
theorem blk_cbcEncrypt_first_difference {i : Nat} (hi : i < (padBytes x p.B).length / p.B)
    (hne : blk p.B (padBytes x p.B) i ≠ blk p.B (padBytes x' p.B) i)
    (hpre : ∀ j, j < i → blk p.B (padBytes x p.B) j = blk p.B (padBytes x' p.B) j) :
    (∀ j, j < i → blk p.B (cbcEncrypt p k iv x) j = blk p.B (cbcEncrypt p k iv x') j)
      ∧ blk p.B (cbcEncrypt p k iv x) i ≠ blk p.B (cbcEncrypt p k iv x') i := by
  have hprev {j : Nat} (hj : j ≤ i) :=
    previousBlock_cbcEncrypt_eq hp hk hiv hlen (hj.trans_lt hi) fun n hn => hpre n (hn.trans_le hj)
  refine ⟨fun j hj => ?_, fun h => hne ?_⟩
  · exact (blk_cbcEncrypt_eq_iff_of_previousBlock_eq hp hk hiv hlen (hj.trans hi) (hprev hj.le)).2 (hpre j hj)
  · exact (blk_cbcEncrypt_eq_iff_of_previousBlock_eq hp hk hiv hlen hi (hprev le_rfl)).1 h

/-- R136 (b), by induction from the changed block: when it alone changes, the change never dies out. -/
theorem blk_cbcEncrypt_ne_of_only_difference {i j : Nat}
    (hne : blk p.B (padBytes x p.B) i ≠ blk p.B (padBytes x' p.B) i)
    (hrest : ∀ j, j < (padBytes x p.B).length / p.B → j ≠ i → blk p.B (padBytes x p.B) j = blk p.B (padBytes x' p.B) j)
    (hij : i ≤ j) (hj : j < (padBytes x p.B).length / p.B) :
    blk p.B (cbcEncrypt p k iv x) j ≠ blk p.B (cbcEncrypt p k iv x') j := by
  induction j, hij using Nat.le_induction with
  | base =>
    exact (blk_cbcEncrypt_first_difference hp hk hiv hlen hj hne fun n hn => hrest n (hn.trans hj) hn.ne).2
  | succ j hij ih =>
    have hblk := hrest (j + 1) hj (Nat.lt_succ_of_le hij).ne'
    exact (blk_cbcEncrypt_succ_eq_iff_of_blk_eq hp hk hiv hlen hj hblk).not.2 (ih (Nat.lt_of_succ_lt hj))

end

/-! ### The commands -/

theorem getD_padBytes_inputBytes (s : State) {b j : Nat} (h : j < s.LEN.toNat + (b - s.LEN.toNat % b)) :
    (padBytes (inputBytes s) b).getD j 0 = paddedByte s b j := by
  unfold paddedByte
  split
  next hj => rw [getD_padBytes_left _ _ _ (by rwa [length_inputBytes]), getD_inputBytes s j hj, inByte]
  next hj =>
    rw [getD_padBytes_right _ _ _ (by rw [length_inputBytes]; omega) (by rwa [length_inputBytes]), length_inputBytes]

/-- The blocks of the padded input, by the bytes of BUF (R130). -/
theorem blk_padBytes_inputBytes (s : State) {i : Nat} (h : (i + 1) * s.inst.B ≤ (padBytes (inputBytes s) s.inst.B).length) :
    blk s.inst.B (padBytes (inputBytes s) s.inst.B) i = paddedBlock s i := by
  refine ext_getD (by rw [length_blk h, paddedBlock, List.length_map, List.length_range]) fun j hj => ?_
  rw [length_blk h] at hj
  rw [getD_blk hj h, paddedBlock, getD_map_range _ hj, getD_padBytes_inputBytes]
  rw [length_padBytes, length_inputBytes, Nat.succ_mul] at h
  omega

/-- CBC_ENC succeeds exactly when none of its four checks fails (R130). -/
theorem resultOf_cbcEnc_eq_ok_iff {s : State} {out : List Byte} : resultOf .cbcEnc s = .ok out ↔
    keyValid s = true ∧ ivValid s = true ∧ sourceFits s ∧ s.DST.toNat + out.length ≤ s.inst.BUF_BYTES
      ∧ out = cbcEncrypt s.inst s.KEY s.IV (inputBytes s) := by
  rw [resultOf, cbcEncResult_eq]
  split_ifs with hkey hivv hsrc
  · simp [hkey]
  · simp [hivv]
  · simp [sourceFits, Nat.not_le.2 hsrc]
  · rw [placeOutput_ok_iff]
    constructor
    · rintro ⟨hfit, rfl⟩
      exact ⟨Bool.eq_true_of_not_eq_false hkey, Bool.eq_true_of_not_eq_false hivv, Nat.not_lt.1 hsrc, hfit, rfl⟩
    · rintro ⟨-, -, -, hfit, rfl⟩
      exact ⟨hfit, rfl⟩

/-- CBC_DEC of an input that cbc_dec accepts, when the output fits (R131). -/
theorem resultOf_cbcDec_of_cbcDecrypt {s : State} {chk : PadCheck} {out : List Byte} (hkey : keyValid s = true)
    (hivv : ivValid s = true) (hsrc : sourceFits s) (hL : s.LEN.toNat ≠ 0) (hmod : s.LEN.toNat % s.inst.B = 0)
    (hdec : cbcDecrypt s.inst s.KEY s.IV (inputBytes s) chk = .ok out)
    (hfit : s.DST.toNat + out.length ≤ s.inst.BUF_BYTES) : resultOf (.cbcDec chk) s = .ok out := by
  rw [resultOf, cbcDecResult_eq, if_neg (by simp [hkey]), if_neg (by simp [hivv]), if_neg (Nat.not_lt.2 hsrc),
    if_neg (by simp [hL, hmod]), hdec]
  exact (placeOutput_ok_iff s out out).2 ⟨hfit, rfl⟩

/-- CBC_DEC of the output of a CBC_ENC returns the input of the CBC_ENC (R134). -/
theorem resultOf_cbcDec_aimedAtOutput {s : State} {out : List Byte} (hl : s.inst.legal = true) (hsz : keyIvSized s)
    (h : resultOf .cbcEnc s = .ok out) (chk : PadCheck) {d : Word} (hd : d.toNat + s.LEN.toNat ≤ s.inst.BUF_BYTES) :
    resultOf (.cbcDec chk) (aimedAtOutput s out d) = .ok (inputBytes s) := by
  obtain ⟨hk, hiv⟩ := hsz
  obtain ⟨hkey, hivv, -, -, hout⟩ := resultOf_cbcEnc_eq_ok_iff.1 h
  have hB := (legal_bounds hl).1
  have hpad : out.length = (padBytes (inputBytes s) s.inst.B).length :=
    hout ▸ length_cbcEncrypt_eq_length_padBytes hl hk hiv _
  refine resultOf_cbcDec_of_cbcDecrypt hkey hivv (sourceFits_aimedAtOutput hl h d) ?_ ?_ ?_ (by rwa [length_inputBytes])
  · rw [toNat_LEN_aimedAtOutput hl h d, hpad, length_padBytes]
    have hR := Nat.mod_lt (inputBytes s).length hB
    omega
  · rw [toNat_LEN_aimedAtOutput hl h d, hpad]
    exact length_padBytes_mod hB _
  · rw [inputBytes_aimedAtOutput hl h d, hout]
    exact cbcDecrypt_cbcEncrypt hl hk hiv _ chk

/-- The commands' round trip: what the CBC_DEC writes is the input that the CBC_ENC read (R134). -/
theorem exec_cbcDec_aimedAtOutput {s : State} {out : List Byte} (hl : s.inst.legal = true) (hsz : keyIvSized s)
    (h : resultOf .cbcEnc s = .ok out) (chk : PadCheck) {d : Word} (hd : d.toNat + s.LEN.toNat ≤ s.inst.BUF_BYTES) :
    ∃ u, exec (.cbcDec chk) (aimedAtOutput s out d) = .next u ∧ u.ERR = 0 ∧ u.RLEN = s.LEN
      ∧ ∀ j, j < s.LEN.toNat → bufByte u (d.toNat + j) = inByte s j := by
  obtain ⟨hexec, hlen, hbytes⟩ := exec_of_ok (s := aimedAtOutput s out d) hl (resultOf_cbcDec_aimedAtOutput hl hsz h chk hd)
  rw [length_inputBytes] at hlen hbytes
  exact ⟨_, hexec, rfl, BitVec.eq_of_toNat_eq hlen, fun j hj => (hbytes j hj).trans (getD_inputBytes s j hj)⟩

/-- The recurrence of R130 on the output blocks, read back where a successful CBC_ENC put them. -/
theorem memRead_completeOk_cbcEncrypt {s : State} (hl : s.inst.legal = true) (hsz : keyIvSized s) {out : List Byte}
    (hout : out = cbcEncrypt s.inst s.KEY s.IV (inputBytes s)) {i : Nat} (hi : i < out.length / s.inst.B) :
    memRead (completeOk s out) (s.DST.toNat + i * s.inst.B) s.inst.B
      = encryptBlock s.inst s.KEY (xorBytes (paddedBlock s i)
          (if i = 0 then s.IV else memRead (completeOk s out) (s.DST.toNat + (i - 1) * s.inst.B) s.inst.B)) := by
  obtain ⟨hk, hiv⟩ := hsz
  have hpad : out.length = (padBytes (inputBytes s) s.inst.B).length :=
    hout ▸ length_cbcEncrypt_eq_length_padBytes hl hk hiv _
  have hin := succ_mul_le_of_lt_div hi
  have hprev : (if i = 0 then s.IV else memRead (completeOk s out) (s.DST.toNat + (i - 1) * s.inst.B) s.inst.B)
      = previousBlock s.inst.B s.IV out i := by
    cases i with
    | zero => rfl
    | succ i => exact memRead_completeOk_block s (succ_mul_le_of_lt_div (Nat.lt_of_succ_lt hi))
  rw [hprev, memRead_completeOk_block s hin, ← blk_padBytes_inputBytes s (hpad ▸ hin), hout,
    blk_cbcEncrypt hl hk hiv (hpad ▸ hi)]

/-- With no input bytes every byte of the padded block is one of B's padding (R135). -/
theorem paddedBlock_of_LEN_eq_zero {s : State} (h : s.LEN = 0) :
    paddedBlock s 0 = List.replicate s.inst.B (BitVec.ofNat 8 s.inst.B) := by
  refine List.eq_replicate_iff.2 ⟨by simp [paddedBlock], fun v hv => ?_⟩
  obtain ⟨j, -, rfl⟩ := List.mem_map.1 hv
  simp [paddedByte, h]

end Sys2Proof.Machine
end

section
/-! SUPPORT. The statements of 43_cbc.md, settled. -/

namespace Sys2Proof.Proofs

open Sys2Proof Sys2Proof.Machine Sys2Proof.Rules

/-- Settles O35: the output of CBC_ENC is the ciphertext, and its blocks meet the recurrence where they are put. -/
theorem cbcEncChainsItsBlocks : Obligations.CbcEncChainsItsBlocks := by
  intro s hl hsz hkey hivv hsrc hfit
  have hout : (cbcEncrypt s.inst s.KEY s.IV (inputBytes s)).length
      = s.LEN.toNat + (s.inst.B - s.LEN.toNat % s.inst.B) := by
    rw [length_cbcEncrypt hl hsz.1 hsz.2, length_inputBytes]
  obtain ⟨hexec, hlen, -⟩ := exec_of_ok hl
    (resultOf_cbcEnc_eq_ok_iff.2 ⟨hkey, hivv, hsrc, by rwa [hout, ← Nat.add_assoc], rfl⟩)
  refine ⟨_, hexec, rfl, rfl, rfl, hlen.trans hout, fun i hi => ?_⟩
  rw [hlen] at hi
  exact memRead_completeOk_cbcEncrypt hl hsz rfl hi

/-- Settles O36: past its checks CBC_DEC is unpad of the decrypted sequence, whose padding is not rejected. -/
theorem cbcDecUnchainsAndUnpads : Obligations.CbcDecUnchainsAndUnpads := by
  intro s chk hl hsz hkey hivv hsrc hL hmod hgood hfit
  have hdec := (cbcDecrypt_eq_unpadBytes hl hsz hmod chk).trans (unpadBytes_map_range_of_not_badPadding hL hgood)
  obtain ⟨hexec, hlen, hbytes⟩ := exec_of_ok hl
    (resultOf_cbcDec_of_cbcDecrypt hkey hivv hsrc hL hmod hdec (by simpa using hfit))
  rw [List.length_map, List.length_range] at hlen hbytes
  refine ⟨_, hexec, rfl, rfl, rfl, hlen, fun j hj => ?_⟩
  rw [hlen] at hj
  rw [hbytes j hj, getD_map_range _ hj]

/-- Settles O46: unchaining undoes the chain and unpad the padding, and CBC_DEC reads as its input what CBC_ENC wrote. -/
theorem cbcRoundTripRestoresInput : Obligations.CbcRoundTripRestoresInput := by
  refine ⟨fun p k iv x chk hp hk hiv => cbcDecrypt_cbcEncrypt hp hk hiv x chk, fun s t chk d hl hsz h hok hd => ?_⟩
  obtain ⟨out, hr, rfl⟩ := exec_ok_of_ERR_eq_zero h hok
  exact exec_cbcDec_aimedAtOutput hl hsz hr chk hd

/-- Settles O47: block 0 of the recurrence when the input is empty, and the round trip of the empty input. -/
theorem cbcOfEmptyInputIsOneBlock : Obligations.CbcOfEmptyInputIsOneBlock := by
  intro s chk d hl hsz hkey hivv hLEN hsrc hfit hd
  have hL : s.LEN.toNat = 0 := by rw [hLEN]; rfl
  have hB := (legal_bounds hl).1
  have hout : (cbcEncrypt s.inst s.KEY s.IV (inputBytes s)).length = s.inst.B := by
    rw [length_cbcEncrypt hl hsz.1 hsz.2, length_inputBytes, hL, Nat.zero_mod, Nat.zero_add, Nat.sub_zero]
  have hr := resultOf_cbcEnc_eq_ok_iff.2 ⟨hkey, hivv, hsrc, by rwa [hout], rfl⟩
  obtain ⟨hexec, hlen, -⟩ := exec_of_ok hl hr
  have hblock := memRead_completeOk_cbcEncrypt hl hsz rfl (i := 0) (by rw [hout, Nat.div_self hB]; exact Nat.one_pos)
  rw [Nat.zero_mul, Nat.add_zero, if_pos rfl, paddedBlock_of_LEN_eq_zero hLEN] at hblock
  obtain ⟨u, hu, huERR, huRLEN, -⟩ := exec_cbcDec_aimedAtOutput hl hsz hr chk (d := d) (by rwa [hL])
  exact ⟨_, hexec, rfl, hlen.trans hout, hblock, u, hu, huERR, huRLEN.trans hLEN⟩

/-- Settles O48: the two recurrences, and both decryptions of one block with the block before it for IV. -/
theorem cbcBlockNeedsTwoCiphertextBlocks : Obligations.CbcBlockNeedsTwoCiphertextBlocks := by
  refine ⟨fun p k iv x i hp hk hiv hi => blk_cbcEncrypt hp hk hiv hi, fun p k iv y i hp hk hiv _ hi => ?_⟩
  intro before plain
  have hB := (legal_bounds hp).1
  have hc : (blk p.B y i).length = p.B := length_blk_of_lt_div hi
  have hbefore : before.length = p.B := length_previousBlock hiv hi
  have hplain : plain.length = p.B := by rw [length_xorBytes, length_decryptBlock hp hk hc, hbefore, Nat.min_self]
  have hcount : paddingCount plain = countOf p.B fun j => plain.getD j 0 := by rw [paddingCount_eq, hplain, countOf]
  refine ⟨blk_cbcPlain_eq_xorBytes hp hk hiv hi, ?_, ?_⟩
  · rw [ecbDecrypt_block hB k hc]
  · rw [cbcDecrypt, cbcPlain_block hB k before hc, unpadBytes_lenient, hplain, hcount]

/-- Settles O49: (a), (b), and the TOY pair of 95_test_vectors.md S8, whose padded blocks 0 and 1 differ and whose ciphertext
blocks 1 are the same. -/
theorem cbcDiffusion : Obligations.CbcDiffusion := by
  refine ⟨fun p k iv x x' i hp hk hiv hlen hi hne => ⟨?_, ?_⟩,
    Params.toy, [1, 2, 3, 4], [0x10, 0x20, 0x30, 0x40], [0x41, 0x42, 0x43, 0x44, 0x45, 0x46, 0x47, 0x48],
    [0x40, 0x42, 0x43, 0x44, 0x45, 0x46, 0x47, 0x49], by decide⟩
  · exact blk_cbcEncrypt_first_difference hp hk hiv hlen hi hne
  · exact fun hrest j => blk_cbcEncrypt_ne_of_only_difference hp hk hiv hlen hne hrest

end Sys2Proof.Proofs
end

section
/-! SUPPORT. The codes a completion can record, and what changes ERR (60_exceptions.md R141 to R150). -/

namespace Sys2Proof.Machine

open Sys2Proof Sys2Proof.Rules

/-! ### Which codes a completion can record (60_exceptions.md R141) -/

section
variable {s : State} {codes : List (BitVec 4)}

/-- A check adds the code of its error to those that the rest of Exec can leave. -/
theorem finish_ERR_check_mem {c : Prop} [Decidable c] {e : CmdError} {r : Except CmdError (List Byte)}
    (he : errCode e ∈ codes) (hr : (finish s r).ERR ∈ codes) :
    (finish s (if c then .error e else r)).ERR ∈ codes := by
  by_cases hc : c
  · rw [if_pos hc]
    exact he
  · rwa [if_neg hc]

theorem finish_ERR_placeOutput_mem (out : List Byte) (h0 : 0 ∈ codes) (h7 : 7 ∈ codes) :
    (finish s (placeOutput s out)).ERR ∈ codes := by
  rw [finish_ERR_placeOutput]
  split
  · exact h7
  · exact h0

/-- Unpad adds BAD_PADDING to the codes of placing its output. -/
theorem finish_ERR_unpadBytes_mem (x : List Byte) (chk : PadCheck) (h0 : 0 ∈ codes) (h6 : 6 ∈ codes) (h7 : 7 ∈ codes) :
    (finish s ((unpadBytes x chk).bind (placeOutput s))).ERR ∈ codes := by
  cases hu : unpadBytes x chk with
  | ok out => exact finish_ERR_placeOutput_mem out h0 h7
  | error e =>
    obtain rfl := unpadBytes_error x chk e hu
    exact h6

end

section
variable (s : State)

theorem finish_padResult_ERR_mem {pbs : BitVec 8} (h : pbs ≠ 0) : (finish s (padResult pbs s)).ERR ∈ [0, 4, 7] := by
  rw [padResult_eq, if_neg h]
  exact finish_ERR_check_mem (by decide) <| finish_ERR_placeOutput_mem _ (by decide) (by decide)

theorem finish_unpadResult_ERR_mem (chk : PadCheck) : (finish s (unpadResult chk s)).ERR ∈ [0, 4, 5, 6, 7] := by
  rw [unpadResult_eq]
  exact finish_ERR_check_mem (by decide) <| finish_ERR_check_mem (by decide) <|
    finish_ERR_unpadBytes_mem _ chk (by decide) (by decide) (by decide)

theorem finish_ecbCommand_ERR_mem {i : Instr} {f : Params → List Byte → List Byte → List Byte} (hi : ecbCommand i f) :
    (finish s (resultOf i s)).ERR ∈ [0, 2, 4, 5, 7] := by
  rw [resultOf_ecbCommand_eq hi]
  exact finish_ERR_check_mem (by decide) <| finish_ERR_check_mem (by decide) <|
    finish_ERR_check_mem (by decide) <| finish_ERR_placeOutput_mem _ (by decide) (by decide)

theorem finish_cbcEncResult_ERR_mem : (finish s (cbcEncResult s)).ERR ∈ [0, 2, 3, 4, 7] := by
  rw [cbcEncResult_eq]
  exact finish_ERR_check_mem (by decide) <| finish_ERR_check_mem (by decide) <|
    finish_ERR_check_mem (by decide) <| finish_ERR_placeOutput_mem _ (by decide) (by decide)

theorem finish_cbcDecResult_ERR_mem (chk : PadCheck) : (finish s (cbcDecResult chk s)).ERR ∈ [0, 2, 3, 4, 5, 6, 7] := by
  rw [cbcDecResult_eq]
  exact finish_ERR_check_mem (by decide) <| finish_ERR_check_mem (by decide) <|
    finish_ERR_check_mem (by decide) <| finish_ERR_check_mem (by decide) <|
    finish_ERR_unpadBytes_mem _ chk (by decide) (by decide) (by decide)

end

/-! ### What changes ERR (60_exceptions.md R142) -/

/-- The accepted write that changes ERR is an issue. -/
theorem err_write_cause {s : State} {w : WordAddr} {v : Word} (hacc : writeAccepted s.BUSY (targetAt s w) v = true)
    (hne : (writeEffect s (targetAt s w) v).ERR ≠ s.ERR) : byteOffset w = 0x014 ∧ s.BUSY = false := by
  have hoff := offset_of_target s w
  cases ht : targetAt s w <;> rw [ht] at hacc hne hoff
  case cmd => exact ⟨hoff, idle_of_writeAccepted hacc nofun nofun⟩
  case ctrl => exact absurd (storeCtrl_ERR s v) hne
  all_goals exact absurd rfl hne

/-- A turn of the unit changes ERR only when it completes a command. -/
theorem busy_of_unitStep_ERR_ne {s t : State} (h : unitStep s = .next t) (hne : t.ERR ≠ s.ERR) : s.BUSY = true := by
  rcases unitStep_cases h with ⟨-, rfl⟩ | ⟨hb, -⟩
  · exact absurd rfl hne
  · exact hb

theorem err_change_cause {s t : State} (h : step s = .next t) (hne : t.ERR ≠ s.ERR) :
    (nextIsUnit s ∧ s.BUSY = true) ∨ (∃ v, nextWrites s 0x014 v ∧ s.BUSY = false) ∨ nextResets s := by
  rcases step_cases h with ⟨a, rest, he, rfl⟩ | ⟨rest, he, -⟩ | ⟨rest, he, hu⟩
  · rcases hostAccess_cases { s with env := rest } a with hr | ⟨w, -, -, hr⟩ | ⟨w, v, rfl, hacc, hr⟩ <;> rw [hr] at hne
    · exact absurd rfl hne
    · exact absurd rfl hne
    · obtain ⟨hw, hb⟩ := err_write_cause hacc hne
      exact .inr (.inl ⟨v, ⟨w, rest, he, hw⟩, hb⟩)
  · exact .inr (.inr ⟨rest, he⟩)
  · exact .inl ⟨he.symm.imp (·.1) fun he => ⟨rest, he⟩, (busy_of_unitStep_ERR_ne hu hne :)⟩

/-! ### A command error is precise (60_exceptions.md R150) -/

/-- Of the two ways to complete, the one that leaves a code writes no byte of BUF. -/
theorem finish_of_ERR_ne_zero {s : State} {r : Except CmdError (List Byte)} (h : (finish s r).ERR ≠ 0) :
    finish s r = { s with ERR := (finish s r).ERR, RLEN := 0, BUSY := false, DONE := true } := by
  cases r with
  | ok out => exact absurd (completeOk_ERR s out) h
  | error e => rfl

end Sys2Proof.Machine
end

section
/-! SUPPORT. The statements of 60_exceptions.md, settled. -/

namespace Sys2Proof.Proofs

open Sys2Proof Sys2Proof.Machine Sys2Proof.Rules

/-- Settles O41: what each command's cascade of checks leaves, the completion of an ill-formed word, and the cases of a step. -/
theorem errorCodesOfEachCommand : Obligations.ErrorCodesOfEachCommand := by
  refine ⟨fun i s t hwf h => ?_, fun s t hb hill h => ?_, fun s t => err_change_cause⟩
  · obtain rfl := (exec_next_iff i s t).1 h
    cases i with
    | pad pbs => exact finish_padResult_ERR_mem s (bne_iff_ne.1 hwf)
    | unpad chk => exact finish_unpadResult_ERR_mem s chk
    | ecbEnc => exact finish_ecbCommand_ERR_mem s ecbCommand_ecbEnc
    | ecbDec => exact finish_ecbCommand_ERR_mem s ecbCommand_ecbDec
    | cbcEnc => exact finish_cbcEncResult_ERR_mem s
    | cbcDec chk => exact finish_cbcDecResult_ERR_mem s chk
  · rw [illegalWordsIssueAndCompleteIllegalCmd.2.2 s hb hill] at h
    cases h
    rfl

/-- Settles O40: the completion of the latched word left a code, so it wrote no output. -/
theorem commandErrorIsPrecise : Obligations.CommandErrorIsPrecise := by
  intro s t hb h hne
  rw [unitStep_of_busy hb] at h
  cases h
  exact finish_of_ERR_ne_zero hne

end Sys2Proof.Proofs
end

section
/-! SUPPORT. An idle unit: what keeps BUSY at 0, and a turn of the unit that passes (70_reset_and_hazards.md R172). -/

namespace Sys2Proof.Machine

open Sys2Proof Sys2Proof.Rules

/-- Of all host accesses only a write to CMD can change BUSY (40_command_execution.md R90). -/
theorem hostAccess_BUSY {s : State} {a : Access} (ha : ∀ w v, a = .wr w v → byteOffset w ≠ 0x014) :
    (hostAccess s a).BUSY = s.BUSY := by
  rcases hostAccess_cases s a with h | ⟨w, -, -, h⟩ | ⟨w, v, rfl, -, h⟩ <;> rw [h]
  · exact refuseAccess_BUSY s
  · exact respond_BUSY s _
  · have hcmd : targetAt s w ≠ .cmd := fun ht => by
      have hoff := offset_of_target s w
      rw [ht] at hoff
      exact ha w v rfl hoff
    rw [respond_BUSY, writeEffect_BUSY hcmd]

/-- A step from an idle unit starts no command unless it writes CMD. -/
theorem step_keeps_idle {s t : State} (hb : s.BUSY = false) (h : step s = .next t) (hcmd : ∀ v, ¬ nextWrites s 0x014 v) :
    t.BUSY = false := by
  rcases step_cases h with ⟨a, rest, he, rfl⟩ | ⟨rest, -, rfl⟩ | ⟨rest, -, hu⟩
  · rw [hostAccess_BUSY fun w v ha hw => hcmd v ⟨w, rest, ha ▸ he, hw⟩, hb]
  · exact applyReset_BUSY _
  · exact (unitStep_idle hu).1

/-- A turn of the unit passes while BUSY = 0 (log 8). -/
theorem unitStep_of_idle {s : State} (hb : s.BUSY = false) : unitStep s = .next s :=
  if_neg (Bool.eq_false_iff.1 hb)

/-- The step that is a turn of the unit is unitStep on the events that are left, none being left of none (log 7). -/
theorem step_of_nextIsUnit {s : State} (h : nextIsUnit s) : step s = unitStep { s with env := s.env.tail } := by
  rcases h with he | ⟨rest, he⟩
  · rw [step_of_env_nil he, show { s with env := s.env.tail } = s by rw [he, List.tail_nil, ← he]]
  · rw [step_of_unitTurn he, he, List.tail_cons]

end Sys2Proof.Machine
end

section
/-! SUPPORT. The statement of 70_reset_and_hazards.md on the idle unit, settled. -/

namespace Sys2Proof.Proofs

open Sys2Proof Sys2Proof.Machine Sys2Proof.Rules

/-- Settles O13: only an issue sets BUSY, and Complete is not enabled without it, so a turn passes. -/
theorem idleUntilCmdIsWritten : Obligations.IdleUntilCmdIsWritten := by
  refine fun s t hb h => ⟨step_keeps_idle hb h, fun hu => ?_⟩
  have hpass : step s = .next { s with env := s.env.tail } := (step_of_nextIsUnit hu).trans (unitStep_of_idle hb)
  cases h.symm.trans hpass
  rfl

end Sys2Proof.Proofs
end

section
/-! SUPPORT. The statement of 93_implementation_defined.md section 3 on the whole machine, settled. -/

namespace Sys2Proof.Proofs

open Sys2Proof Sys2Proof.Machine

/-- Settles O8, by induction on the number of steps: the first step gives a next state, and the rest is a shorter run from it. -/
theorem noRunEverStops : Obligations.NoRunEverStops := by
  intro k
  induction k with
  | zero => exact fun s => ⟨s, rfl⟩
  | succ k ih =>
    intro s
    obtain ⟨s', hs'⟩ := step_total s
    obtain ⟨t, ht⟩ := ih s'
    exact ⟨t, (run_succ_of_step k hs').trans ht⟩

end Sys2Proof.Proofs
end
